-- ==== Sys2Proof/Word.lean ====
section
/-! DEFINITION. The word types of the block (00_scope.md R7, R9, R11). -/

namespace Sys2Proof

/-- A 32-bit CSR or command word (INT_BITS = 32, R7). -/
abbrev Word := BitVec 32

/-- One content or filename symbol (SYM_BITS = 8, R7, R9). -/
abbrev Byte := BitVec 8

/-- A bit sequence, first bit first (R12). -/
abbrev Bits := List Bool

end Sys2Proof
end

