-- ==== Sys2Proof/Config.lean ====
section
/-! DEFINITION. What an implementation fixes (00_scope.md R7), and the free values the spec calls
UNSPECIFIED (00_scope.md R16, 93_implementation_defined.md). -/

namespace Sys2Proof

/-- The implementation parameters of R7, and BASE (R50; 93_implementation_defined.md I15). SYM_BITS = 8 and
INT_BITS = 32 are fixed by the types `Byte` and `Word`. `bitbufCap` counts bits. -/
structure Config where
  contentCap : Nat
  nameCap    : Nat
  bitbufCap  : Nat
  wmax       : Nat
  lmax       : Nat
  zcap       : Nat
  wReset     : Nat
  lReset     : Nat
  /-- BASE, the platform address at which the block's space of offsets begins (R50). -/
  base       : Nat
deriving DecidableEq, Repr

/-- The reference configuration: the column "default" of R7. The spec gives BASE no default; 0 is the
model's. [DESIGN CHOICE, log 20] -/
def Config.default : Config where
  contentCap := 1048576
  nameCap    := 255
  bitbufCap  := 33554432
  wmax       := 4096
  lmax       := 1024
  zcap       := 6145
  wReset     := 1000
  lReset     := 300
  base       := 0

/-- The column "constraint" of R7. BASE has none. -/
abbrev Config.Legal (c : Config) : Prop :=
  1 ≤ c.contentCap ∧ c.contentCap ≤ 4194304 ∧
  c.nameCap ≤ 4096 ∧
  c.bitbufCap % 8 = 0 ∧ 8 ≤ c.bitbufCap ∧ c.bitbufCap ≤ 67108864 ∧
  1 ≤ c.lmax ∧
  2 * c.lmax + c.wmax + 1 ≤ c.zcap ∧ c.zcap ≤ 262144 ∧
  c.wReset ≤ c.wmax ∧ 1 ≤ c.lReset ∧ c.lReset ≤ c.lmax

/-- FREE VALUE: what an UNSPECIFIED entry of `w` bits holds (R16: "a value the spec does not fix").
`epoch` numbers the event that drew it, `index` the entry. It has no body, so no proof can see a
value of it. [DESIGN CHOICE, log 5: safe.] -/
opaque Config.draw : (w epoch index : Nat) → BitVec w

end Sys2Proof
end

