-- ==== Sys2Proof/Syntax.lean ====
section
/-! DEFINITION. The 18 commands of the opcode map (30_encoding.md R71), with the operand fields of
their formats (R69, R70). -/

namespace Sys2Proof

/-- One command; the rule of each is the one the opcode map names. -/
inductive Instr where
  | nop
  | zarray
  | lzMatch
  | lzStep
  | lzRecon
  | triPut
  | triGet
  | hufBuild
  /-- HUF_ENC SYM, format S: SYM = w[7:0]. -/
  | hufEnc (sym : Byte)
  | hufTrie
  | hufDec
  /-- EO_ENC GEN, format G: GEN = w[0]. -/
  | eoEnc (gen : BitVec 1)
  /-- EO_DEC GEN, format G: GEN = w[0]. -/
  | eoDec (gen : BitVec 1)
  | bvClear
  /-- BV_PUT NBITS, format N: NBITS = w[5:0]. -/
  | bvPut (nbits : BitVec 6)
  /-- BV_GET NBITS, format N: NBITS = w[5:0]. -/
  | bvGet (nbits : BitVec 6)
  | frameC
  | frameD
deriving DecidableEq, Repr

end Sys2Proof
end

