-- ==== Sys2Proof/Machine/State.lean ====
section
/-! DEFINITION. The state of the block and of its host, as plain data (10_state.md, 20_memory.md R48,
30_encoding.md R74), the reasons a step can stop, and the state after reset (70_reset_and_hazards.md
R149 to R151). -/

namespace Sys2Proof.Machine

/-! ### Memories -/

/-- What the entries that a memory does not list read as. `drawn e`: each is a free draw of the event
numbered `e` (UNSPECIFIED, R16); `zero`: each reads 0. -/
inductive Fill where
  | zero
  | drawn (epoch : Nat)
deriving DecidableEq, Repr

/-- A local memory of `w`-bit entries (R38), keyed by entry index. `cells` is kept in one canonical
form (`Mem.wf`): indices strictly rising, and, under `zero`, no entry that is 0. For `w = 8` a cell
is a `Host.Cell`. -/
structure Mem (w : Nat) where
  fill  : Fill
  cells : List (Nat × BitVec w)
deriving DecidableEq, Repr

/-- The local memories of R38, HUF_TABLE as its CTL and its CODE words (R40). -/
structure Mems where
  /-- NAME, one byte per entry. -/
  name    : Mem 8
  /-- CONTENT, one byte per entry. -/
  content : Mem 8
  /-- BITBUF, one bit per entry (R38: "entry width 1 bit"). -/
  bitbuf  : Mem 1
  /-- ZIN, bits [15:0] of each word (R41). -/
  zin     : Mem 16
  /-- ZOUT (R41). -/
  zout    : Mem 32
  /-- HUF_TABLE CTL of symbol s at index s: VALID in bit 8, LEN in bits [7:0] (R40). -/
  hufCtl  : Mem 9
  /-- HUF_TABLE CODEk of symbol s at index 8·s + k (R40). -/
  hufCode : Mem 32
deriving DecidableEq, Repr

/-- The names of the local memories. -/
inductive MemName where
  | name | content | bitbuf | zin | zout | hufCtl | hufCode
deriving DecidableEq, Repr

/-- A decode trie (R44, R110). Under TABLE_OK exactly the leaves are marked, so a leaf carries its
symbol and an internal vertex none (log 16). `absent` is a missing child. -/
inductive Trie where
  | absent
  | leaf (sym : Byte)
  | node (child0 child1 : Trie)
deriving DecidableEq, Repr

/-! ### Registers -/

/-- The error codes of R136. -/
inductive ErrCode where
  | illegalCmd | param | emptyInput | assert | hufDecode | truncated | badTable | badStream
  | overflow | bufFull | noCode | range
deriving DecidableEq, Repr

/-- The CSRs by name (10_state.md section 4). -/
inductive Csr where
  | id | version | ctrl | status | cmd | errcode | windowSize | lookaheadSize | nlen | clen | pos
  | bvLen | bvRptr | zlen | triOffset | triLength | triSymbol | arg | result | resultBits
  | hufD | hufState | capContent | capName | capBitbuf | capZ | capWmax | capLmax
deriving DecidableEq, Repr

/-- The storage behind the CSRs. ID, VERSION and CAP_* are constants (R24, R30), STATUS.BUSY is the
engine's state, HUF_STATE.DEC_VALID is the presence of the trie, and the bits a rule calls reserved
have no storage: they read 0. -/
structure Regs where
  /-- CTRL.IRQ_EN (R25). -/
  irqEn  : Bool
  /-- STATUS.DONE (R26). -/
  done   : Bool
  /-- STATUS.ERR (R26). -/
  err    : Bool
  /-- STATUS.OVR (R26). -/
  ovr    : Bool
  /-- CMD: the last accepted word (R27); while BUSY it is the word the engine runs. -/
  cmd    : Word
  /-- ERRCODE.CODE (R28). -/
  errCode : Byte
  windowSize    : Word
  lookaheadSize : Word
  nlen   : Word
  clen   : Word
  pos    : Word
  bvLen  : Word
  bvRptr : Word
  zlen   : Word
  triOffset : Word
  triLength : Word
  /-- TRI_SYMBOL bits [7:0] (R35). -/
  triSymbol : Byte
  arg    : Word
  result : Word
  resultBits : Word
  /-- HUF_D bits [8:0] (R37). -/
  hufD   : BitVec 9
deriving DecidableEq, Repr

/-- The part of the snapshot S0 that needs a field (R22): IRQ_EN and OVR, the only bits of a CSR that a
host access can change while BUSY (R25, R26, R27). All else of S0 is the state itself (log 2). -/
structure Snapshot where
  /-- CTRL.IRQ_EN in S0. -/
  irqEn : Bool
  /-- STATUS.OVR in S0. -/
  ovr   : Bool
deriving DecidableEq, Repr

/-- The command engine (R22): IDLE, or BUSY(w, S0), its word w being CMD (R27, log 2). -/
inductive Engine where
  | idle
  | busy (s0 : Snapshot)
deriving DecidableEq, Repr

/-! ### The host -/

/-- One host access on the bus (R48): block offset, bus_size, bus_write, bus_wdata. -/
structure Access where
  addr  : BitVec 24
  size  : BitVec 2
  write : Bool
  wdata : Word
deriving DecidableEq, Repr

/-- One access as the host puts it on the platform: `addr` is a platform address, BASE plus an offset where
it is meant for the block (R50). -/
structure PlatformAccess where
  addr  : Nat
  size  : BitVec 2
  write : Bool
  wdata : Word
deriving DecidableEq, Repr

/-- The byte windows that `wrb` names (R74). -/
inductive ByteWin where
  | name | content | bitbuf
deriving DecidableEq, Repr

/-- The word windows that `wrw` names (R74). -/
inductive WordWin where
  | zin | huf
deriving DecidableEq, Repr

/-- One line of a host program (R74, R76), its labels resolved to line numbers (log 11). -/
inductive HostOp where
  /-- MemRead or MemWrite of R16: any bus access, at a block offset. -/
  | access (a : Access)
  /-- An access at a platform address, the block standing at BASE (R50). -/
  | platform (p : PlatformAccess)
  /-- `<mnemonic> [operand]`: `wr CMD, Encode(mnemonic, operand)`. -/
  | issue (i : Instr)
  | wr (reg : Csr) (imm : Word)
  | wrb (win : ByteWin) (i : Nat) (bs : List Byte)
  | wrw (win : WordWin) (i : Nat) (ws : List Word)
  | rd (reg : Csr)
  | blt (reg1 reg2 : Csr) (target : Nat)
  | berr (target : Nat)
  /-- `wait` of R76: read STATUS again while STATUS.BUSY = 1. -/
  | wait
  | halt
deriving DecidableEq, Repr

/-- The host agent (R19). -/
structure HostAgent where
  /-- The program it runs (R74). -/
  prog    : List HostOp
  /-- The line it is at. -/
  pc      : Nat
  /-- How many bus accesses of that line it has made. -/
  sub     : Nat
  /-- The value its last read returned (R74 `rd`; bus_rdata of R48). -/
  operand : Word
  /-- The first value of a `blt` under way. -/
  held    : Word
  /-- The ERRCODE values it has read, oldest first (R160). -/
  errSeen : List Word
deriving DecidableEq, Repr

/-- Who moves: the host, the engine, or the reset pin (R48, R149). -/
inductive Turn where
  | host
  | engine
  | rstAssert
  | rstRelease
deriving DecidableEq, Repr

/-! ### State -/

/-- Everything the spec gives the block, the host that drives it, and the model's own `draws` and
`turns` (INVENTORY.md, ## State). -/
structure State where
  /-- The parameters, fixed for the machine (R7, R30). -/
  cfg    : Config
  /-- The level of rst_n (R48, R149). -/
  rstN   : Bool
  engine : Engine
  regs   : Regs
  mems   : Mems
  /-- The decode trie; present exactly while DEC_VALID = 1 (R37, R44). -/
  trie   : Option Trie
  /-- The number of the next unused draw of UNSPECIFIED values (log 5). -/
  draws  : Nat
  host   : HostAgent
  /-- Which agent moves next (log 4). Empty: the engine if it is BUSY, else the host. -/
  turns  : List Turn
deriving DecidableEq, Repr

/-- Reasons to stop with a fault: none. "The engine never traps ... and never halts" (60_exceptions.md);
every error is a command outcome reported through STATUS and ERRCODE (R136, R144), that is a next
state. No definition of the model raises a fault, so the type has no constructor (safe: nothing is
cut short). -/
inductive Fault
deriving DecidableEq, Repr

/-- Reasons to refuse. -/
inductive Refusal where
  /-- Raised only by an arm of `exec` whose instruction has no meaning yet; no arm is left that raises
  it. Safe. -/
  | notModelled (mnemonic : String)
deriving DecidableEq, Repr

/-! ### Reset -/

/-- A memory all of whose entries are UNSPECIFIED, drawn by event `e`. -/
def Mem.unspecified (w e : Nat) : Mem w := ⟨.drawn e, []⟩

/-- A memory all of whose entries are 0. -/
def Mem.zeros (w : Nat) : Mem w := ⟨.zero, []⟩

/-- The reset values of R150. -/
def Regs.reset (c : Config) : Regs where
  irqEn := false
  done := false
  err := false
  ovr := false
  cmd := 0
  errCode := 0
  windowSize := BitVec.ofNat 32 c.wReset
  lookaheadSize := BitVec.ofNat 32 c.lReset
  nlen := 0
  clen := 0
  pos := 0
  bvLen := 0
  bvRptr := 0
  zlen := 0
  triOffset := 0
  triLength := 0
  triSymbol := 0
  arg := 0
  result := 0
  resultBits := 0
  hufD := 0

/-- Memory contents after a hardware reset (R151), the draws numbered from `e`. -/
def Mems.reset (e : Nat) : Mems where
  name := .unspecified 8 e
  content := .unspecified 8 (e + 1)
  bitbuf := .unspecified 1 (e + 2)
  zin := .unspecified 16 (e + 3)
  zout := .unspecified 32 (e + 4)
  hufCtl := .zeros 9
  hufCode := .unspecified 32 (e + 5)

/-- How many draws `Mems.reset` uses. -/
def resetDraws : Nat := 6

/-- A host with nothing to do. [DESIGN CHOICE, log 11] -/
def HostAgent.none : HostAgent := ⟨[], 0, 0, 0, 0, []⟩

/-- The block of configuration `c` right after hardware reset (R149 to R151). -/
def State.powerOn (c : Config) : State where
  cfg := c
  rstN := true
  engine := .idle
  regs := .reset c
  mems := .reset 0
  trie := .none
  draws := resetDraws
  host := .none
  turns := []

/-- The reference configuration right after hardware reset. -/
def State.reset : State := .powerOn .default

end Sys2Proof.Machine
end

