-- ==== Sys2Proof/Machine/Flags.lean ====
section
/-! DEFINITION. The block's only flags: STATUS and ERRCODE, with the interrupt they drive
(10_state.md R26, R28; 60_exceptions.md R136, R143). -/

namespace Sys2Proof.Machine

/-- The number ERRCODE.CODE reports (R136); 0x00 is NONE. -/
def ErrCode.code : ErrCode → Byte
  | .illegalCmd => 0x01#8
  | .param => 0x02#8
  | .emptyInput => 0x03#8
  | .assert => 0x04#8
  | .hufDecode => 0x05#8
  | .truncated => 0x06#8
  | .badTable => 0x07#8
  | .badStream => 0x08#8
  | .overflow => 0x09#8
  | .bufFull => 0x0A#8
  | .noCode => 0x0B#8
  | .range => 0x0C#8

/-- STATUS.BUSY (R26): set by acceptance, cleared by commit and reset, that is the engine's state. -/
def State.busy (s : State) : Bool :=
  match s.engine with
  | .idle => false
  | .busy _ => true

/-- The layout of STATUS (R26): BUSY in bit 0, DONE in bit 1, ERR in bit 2, OVR in bit 3, the rest reads
0. -/
def packStatus (ovr err done busy : Bool) : Word :=
  (BitVec.ofBool ovr ++ BitVec.ofBool err ++ BitVec.ofBool done ++ BitVec.ofBool busy).setWidth 32

/-- The layout of CTRL (R25): IRQ_EN in bit 1; SRST and the reserved bits read 0. -/
def packCtrl (irqEn : Bool) : Word := (BitVec.ofBool irqEn ++ 0#1).setWidth 32

/-- STATUS as it stands (R26). -/
def State.statusWord (s : State) : Word := packStatus s.regs.ovr s.regs.err s.regs.done s.busy

/-- A write of `v` to STATUS (R26): a 1 clears DONE, ERR or OVR; a 0 has no effect; BUSY is RO. -/
def Regs.writeStatus (r : Regs) (v : Word) : Regs :=
  { r with done := r.done && !v.getLsbD 1
           err := r.err && !v.getLsbD 2
           ovr := r.ovr && !v.getLsbD 3 }

/-- The irq output: IRQ_EN ∧ (DONE ∨ ERR) (R143), and 0 while rst_n is asserted (R149). -/
def State.irq (s : State) : Bool := s.rstN && s.regs.irqEn && (s.regs.done || s.regs.err)

end Sys2Proof.Machine
end

