-- ==== Sys2Proof/Machine/Ops.lean ====
section
/-! DEFINITION. The named operations over memories and the command protocol (10_state.md R22, R38 to
R41; 60_exceptions.md R138 to R140). -/

namespace Sys2Proof.Machine

/-! ### One memory -/

/-- What an unlisted entry `i` reads as: 0, or the free draw of the event that left the memory
UNSPECIFIED (R16, R151). -/
def Fill.value (w : Nat) : Fill → Nat → BitVec w
  | .zero, _ => 0
  | .drawn e, i => Config.draw w e i

/-- The listed value of entry `i`. -/
def lookupCell {w : Nat} : List (Nat × BitVec w) → Nat → Option (BitVec w)
  | [], _ => none
  | c :: cs, i => if i = c.1 then some c.2 else lookupCell cs i

/-- List `v` at entry `i`, keeping the indices rising. -/
def insertCell {w : Nat} (i : Nat) (v : BitVec w) : List (Nat × BitVec w) → List (Nat × BitVec w)
  | [] => [(i, v)]
  | c :: cs =>
    if i < c.1 then (i, v) :: c :: cs
    else if i = c.1 then (i, v) :: cs
    else c :: insertCell i v cs

/-- Drop entry `i` from the list. -/
def eraseCell {w : Nat} (i : Nat) : List (Nat × BitVec w) → List (Nat × BitVec w)
  | [] => []
  | c :: cs => if i = c.1 then cs else c :: eraseCell i cs

/-- Entry `i` of a memory. -/
def Mem.read {w : Nat} (m : Mem w) (i : Nat) : BitVec w := (lookupCell m.cells i).getD (m.fill.value w i)

/-- Entry `i` ← `v`, keeping the canonical form: a 0 is not listed where an unlisted entry reads 0. -/
def Mem.write {w : Nat} (m : Mem w) (i : Nat) (v : BitVec w) : Mem w :=
  match m.fill with
  | .zero => { m with cells := if v = 0 then eraseCell i m.cells else insertCell i v m.cells }
  | .drawn _ => { m with cells := insertCell i v m.cells }

/-- Entries `i`, `i+1`, … ← the values of a list. -/
def Mem.writeList {w : Nat} (m : Mem w) (i : Nat) : List (BitVec w) → Mem w
  | [] => m
  | v :: vs => (m.write i v).writeList (i + 1) vs

/-- Entries `i`, …, `i + n - 1`. -/
def Mem.slice {w : Nat} (m : Mem w) (i n : Nat) : List (BitVec w) := (List.range n).map fun k => m.read (i + k)

/-- The canonical form of a memory: indices strictly rising, and no entry listed with the value an
unlisted entry is known to read (0 under `zero`; a draw is no known value). -/
abbrev Mem.wf {w : Nat} (m : Mem w) : Prop :=
  m.cells.Pairwise (fun a b => a.1 < b.1) ∧ (m.fill = .zero → ∀ c ∈ m.cells, c.2 ≠ 0)

/-- No entry at or beyond the capacity is listed (R61). -/
abbrev Mem.within {w : Nat} (m : Mem w) (cap : Nat) : Prop := ∀ c ∈ m.cells, c.1 < cap

/-! ### The memories of the block -/

/-- Entry `i` of the memory named, zero-extended to 32 bits. -/
def Mems.entry (ms : Mems) : MemName → Nat → Word
  | .name, i => (ms.name.read i).setWidth 32
  | .content, i => (ms.content.read i).setWidth 32
  | .bitbuf, i => (ms.bitbuf.read i).setWidth 32
  | .zin, i => (ms.zin.read i).setWidth 32
  | .zout, i => ms.zout.read i
  | .hufCtl, i => (ms.hufCtl.read i).setWidth 32
  | .hufCode, i => ms.hufCode.read i

/-- Every entry of the memory named becomes UNSPECIFIED, drawn by event `e`. -/
def Mems.redraw (ms : Mems) (e : Nat) : MemName → Mems
  | .name => { ms with name := .unspecified 8 e }
  | .content => { ms with content := .unspecified 8 e }
  | .bitbuf => { ms with bitbuf := .unspecified 1 e }
  | .zin => { ms with zin := .unspecified 16 e }
  | .zout => { ms with zout := .unspecified 32 e }
  | .hufCtl => { ms with hufCtl := .unspecified 9 e }
  | .hufCode => { ms with hufCode := .unspecified 32 e }

/-- The memory named becomes UNSPECIFIED: "a free draw for each word, made once" (R140). -/
def State.redraw (s : State) (m : MemName) : State :=
  { s with mems := s.mems.redraw s.draws m, draws := s.draws + 1 }

/-- Each memory of a list becomes UNSPECIFIED, each by a draw of its own. -/
def State.redrawAll (s : State) (ms : List MemName) : State := ms.foldl State.redraw s

/-! ### The command protocol (R138) -/

/-- Acceptance of the word `w` by an IDLE engine: CMD ← w, BUSY ← 1, DONE ← 0, ERR ← 0, ERRCODE ← 0;
OVR is unchanged (R138). The snapshot S0 is the state after these updates (R22, log 3). -/
def State.accept (s : State) (w : Word) : State :=
  { s with engine := .busy ⟨s.regs.irqEn, s.regs.ovr⟩
           regs := { s.regs with cmd := w, done := false, err := false, errCode := 0 } }

/-- The commit of Ok, its updates applied: DONE ← 1, BUSY ← 0 (R138). -/
def State.commitOk (s : State) : State :=
  { s with engine := .idle, regs := { s.regs with done := true } }

/-- RAISING AN ERROR, the block's one exception mechanism (R138, R144): the commit of Err(c), any
updates-on-error applied. ERRCODE ← c, ERR ← 1, BUSY ← 0; nothing is saved and no control is
transferred. There is no return (R145): the host clears ERR or writes the next command. -/
def State.commitErr (s : State) (c : ErrCode) : State :=
  { s with engine := .idle, regs := { s.regs with errCode := c.code, err := true } }

/-- The commit of an all-or-nothing command that ran in `s` (R139): on Err nothing but STATUS and
ERRCODE changes. -/
def State.commit (s : State) : Except ErrCode State → State
  | .ok t => t.commitOk
  | .error c => s.commitErr c

/-- A check of a command: raise `c` unless `p` holds. -/
def require (p : Prop) [Decidable p] (c : ErrCode) : Except ErrCode Unit :=
  if p then .ok () else .error c

end Sys2Proof.Machine
end

