-- ==== Sys2Proof/Machine/Operands.lean ====
section
/-! DEFINITION. The operand forms: bit sequences and their integers (00_scope.md R12, R13), the bit
vector's Append and Take (45_bitvector.md R121 to R124), HUF_TABLE entries (10_state.md R40), content
and name bytes, and the two parameter checks that several commands share. -/

namespace Sys2Proof.Machine

/-! ### Integers and bit sequences -/

/-- bin_n(v): v in exactly n bits, most significant bit first (R13). -/
def binFixed (n v : Nat) : Bits := (List.range n).map fun i => v.testBit (n - 1 - i)

/-- bin(N) for N ≥ 1: the binary representation without leading zeros (R13). -/
def bin (n : Nat) : Bits := binFixed (n.log2 + 1) n

/-- val(s): the integer a bit sequence denotes, first bit most significant (R13). -/
def val (bs : Bits) : Nat := bs.foldl (fun a b => 2 * a + b.toNat) 0

/-- The least multiple of 8 that is ≥ n: 8·ceil(n/8) (R130). -/
def byteRound (n : Nat) : Nat := (n + 7) / 8 * 8

/-! ### The bit vector -/

/-- BIT[i] (R16, R55). -/
def State.bit (s : State) (i : Nat) : Bool := (s.mems.bitbuf.read i).getLsbD 0

/-- The bits BIT[r .. BV_LEN) that a decoding command may read from position r (R33, R123): none where
r ≥ BV_LEN. -/
def State.bitsFrom (s : State) (r : Nat) : Bits :=
  (List.range (s.regs.bvLen.toNat - r)).map fun i => s.bit (r + i)

/-- A decoder: from the bits still unread it returns a value and the rest, or raises an error. -/
abbrev Reader (α : Type) := Bits → Except ErrCode (α × Bits)

/-- Take(n) (R123): the next n bits, or TRUNCATED where fewer are left. -/
def take (n : Nat) : Reader Bits := fun bs =>
  if n ≤ bs.length then .ok (bs.take n, bs.drop n) else .error .truncated

/-- BIT[i + k] ← bs[k] for each k. -/
def State.writeBits (s : State) (i : Nat) (bs : Bits) : State :=
  { s with mems := { s.mems with bitbuf := s.mems.bitbuf.writeList i (bs.map BitVec.ofBool) } }

/-- Append(bs) (R122). -/
def State.append (s : State) (bs : Bits) : State :=
  let t := s.writeBits s.regs.bvLen.toNat bs
  { t with regs := { t.regs with bvLen := BitVec.ofNat 32 (s.regs.bvLen.toNat + bs.length) } }

/-- The end of an appending command: BUF_FULL where the bits do not fit, else Append and
RESULT_BITS ← |bits| (R122; the last lines of R100, R113, R119, R126). -/
def State.appendChecked (s : State) (bs : Bits) : Except ErrCode State := do
  require (s.regs.bvLen.toNat + bs.length ≤ s.cfg.bitbufCap) .bufFull
  let t := s.append bs
  .ok { t with regs := { t.regs with resultBits := BitVec.ofNat 32 bs.length } }

/-- "Every command that reads BV_LEN requires BV_LEN ≤ BITBUF_CAP, else PARAM." (R33) -/
def State.checkBvLen (s : State) : Except ErrCode Unit :=
  require (s.regs.bvLen.toNat ≤ s.cfg.bitbufCap) .param

/-- A decoding command's read at BV_RPTR: the value, and the number k of bits consumed (R118, R123). -/
def State.readStream {α : Type} (s : State) (r : Reader α) : Except ErrCode (α × Nat) := do
  let bs := s.bitsFrom s.regs.bvRptr.toNat
  let (v, rest) ← r bs
  .ok (v, bs.length - rest.length)

/-- BV_RPTR advances by the k bits consumed, and RESULT_BITS ← k (R123; R101, R115, R120, R127). -/
def State.consume (s : State) (k : Nat) : State :=
  { s with regs := { s.regs with bvRptr := BitVec.ofNat 32 (s.regs.bvRptr.toNat + k)
                                 resultBits := BitVec.ofNat 32 k } }

/-- RESULT ← v (R36). -/
def State.setResult (s : State) (v : Nat) : State :=
  { s with regs := { s.regs with result := BitVec.ofNat 32 v } }

/-! ### HUF_TABLE entries (R40) -/

/-- HT[sym].VALID. -/
def State.hufValid (s : State) (sym : Nat) : Bool := (s.mems.hufCtl.read sym).getLsbD 8

/-- HT[sym].LEN. -/
def State.hufLen (s : State) (sym : Nat) : Nat := ((s.mems.hufCtl.read sym).extractLsb' 0 8).toNat

/-- Code bit j of symbol sym: bit 31 − (j mod 32) of word CODE(j div 32). -/
def State.hufCodeBit (s : State) (sym j : Nat) : Bool :=
  (s.mems.hufCode.read (8 * sym + j / 32)).getLsbD (31 - j % 32)

/-- HT[sym].code: the first LEN code bits. -/
def State.hufBits (s : State) (sym : Nat) : Bits :=
  (List.range (s.hufLen sym)).map fun j => s.hufCodeBit sym j

/-- The checks that HUF_ENC and TRI_PUT make of HT[sym]: NO_CODE, then BAD_TABLE (R100, R113). -/
def State.checkCode (s : State) (sym : Nat) : Except ErrCode Unit := do
  require (s.hufValid sym = true) .noCode
  require (s.hufLen sym ≠ 0) .badTable

/-- The decode trie, or NO_CODE where DEC_VALID = 0 (R37; R101, R115). -/
def State.needTrie (s : State) : Except ErrCode Trie :=
  match s.trie with
  | some t => .ok t
  | none => .error .noCode

/-! ### Content and name -/

/-- The content x[0 .. CLEN) (R31). -/
def State.contentList (s : State) : List Byte := s.mems.content.slice 0 s.regs.clen.toNat

/-- The filename NAME[0 .. NLEN) (R31). -/
def State.nameList (s : State) : List Byte := s.mems.name.slice 0 s.regs.nlen.toNat

/-- The triple in the TRI registers: offset, length, next symbol (R35, R93). -/
def State.triple (s : State) : Nat × Nat × Byte :=
  (s.regs.triOffset.toNat, s.regs.triLength.toNat, s.regs.triSymbol)

/-- TRI_OFFSET ← o, TRI_LENGTH ← l, TRI_SYMBOL ← c (R35). -/
def State.setTriple (s : State) (t : Nat × Nat × Byte) : State :=
  { s with regs := { s.regs with triOffset := BitVec.ofNat 32 t.1
                                 triLength := BitVec.ofNat 32 t.2.1
                                 triSymbol := t.2.2 } }

/-- LZ_CHECK (R83): L, then W, then CLEN, each raising PARAM. -/
def State.lzCheck (s : State) : Except ErrCode Unit := do
  require (s.regs.lookaheadSize.toNat ≠ 0 ∧ s.regs.lookaheadSize.toNat ≤ s.cfg.lmax) .param
  require (s.regs.windowSize.toNat ≤ s.cfg.wmax) .param
  require (s.regs.clen.toNat ≤ s.cfg.contentCap) .param

end Sys2Proof.Machine
end

