-- ==== Sys2Proof/Machine/BitVector.lean ====
section
/-! DEFINITION. The bit vector buffer's commands (45_bitvector.md R125 to R127). -/

namespace Sys2Proof.Machine

/-- BV_CLEAR (R125): BV_LEN ← 0, BV_RPTR ← 0; BITBUF is not changed. -/
def bvClear (s : State) : State := { s with regs := { s.regs with bvLen := 0, bvRptr := 0 } }

/-- BV_PUT n (R126). -/
def bvPut (n : Nat) (s : State) : Except ErrCode State := do
  s.checkBvLen
  require (s.regs.arg.toNat < 2 ^ n) .range
  s.appendChecked (binFixed n s.regs.arg.toNat)

/-- BV_GET n (R127). -/
def bvGet (n : Nat) (s : State) : Except ErrCode State := do
  s.checkBvLen
  let (bs, k) ← s.readStream (take n)
  .ok ((s.setResult (val bs)).consume k)

/-- The commit of BV_CLEAR (R125, R139). -/
def execBvClear (s : State) : Host.Outcome State Fault Refusal := .next (s.commit (.ok (bvClear s)))

/-- The commit of BV_PUT (R126, R139). -/
def execBvPut (nbits : BitVec 6) (s : State) : Host.Outcome State Fault Refusal :=
  .next (s.commit (bvPut nbits.toNat s))

/-- The commit of BV_GET (R127, R139). -/
def execBvGet (nbits : BitVec 6) (s : State) : Host.Outcome State Fault Refusal :=
  .next (s.commit (bvGet nbits.toNat s))

end Sys2Proof.Machine
end

