-- ==== Sys2Proof/Machine/Elias.lean ====
section
/-! DEFINITION. The Elias-omega integer coder (44_elias.md). -/

namespace Sys2Proof.Machine

/-- The loop of OMEGA (R116): while the current component `c` is longer than 1, prepend the binary of
its length less 1 with the leading bit forced to 0. Each component is shorter than the one it
precedes, so a fuel of |c| never runs out. -/
def omegaLoop : Nat → Bits → Bits → Bits
  | 0, _, out => out
  | fuel + 1, c, out =>
    if c.length ≤ 1 then out
    else
      let c' := bin (c.length - 1)
      omegaLoop fuel c' ((false :: c'.tail) ++ out)

/-- OMEGA(N), N ≥ 1 (R116). -/
def omega (n : Nat) : Bits := omegaLoop (bin n).length (bin n) (bin n)

/-- EO1(v) = OMEGA(v + 1) (R117). -/
def eo1 (v : Nat) : Bits := omega (v + 1)

/-- The loop of EO_READ (R118): read a component of `ell` bits; one that leads with 1 is the payload,
any other gives the length of the next. Lengths grow strictly up to 33, so a fuel of 34 never runs
out. -/
def eoReadLoop (off : Nat) : Nat → Nat → Reader Nat
  | 0, _ => fun _ => .error .overflow
  | fuel + 1, ell => fun bs => do
    let (comp, rest) ← take ell bs
    match comp with
    | true :: _ => do
      require (val comp - off ≤ 2 ^ 32 - 1) .overflow
      .ok (val comp - off, rest)
    | _ => do
      let next := val (true :: comp.tail) + 1
      require (next ≤ 33) .overflow
      eoReadLoop off fuel next rest

/-- EO_READ(off) (R118). -/
def eoRead (off : Nat) : Reader Nat := eoReadLoop off 34 1

/-- EO_ENC gen (R119): ARG + GEN is computed without wrap. -/
def eoEnc (gen : Nat) (s : State) : Except ErrCode State := do
  s.checkBvLen
  require (s.regs.arg.toNat + gen ≠ 0) .range
  s.appendChecked (omega (s.regs.arg.toNat + gen))

/-- EO_DEC gen (R120). -/
def eoDec (gen : Nat) (s : State) : Except ErrCode State := do
  s.checkBvLen
  let (v, k) ← s.readStream (eoRead gen)
  .ok ((s.setResult v).consume k)

/-- The commit of EO_ENC (R119, R139). -/
def execEoEnc (gen : BitVec 1) (s : State) : Host.Outcome State Fault Refusal :=
  .next (s.commit (eoEnc gen.toNat s))

/-- The commit of EO_DEC (R120, R139). -/
def execEoDec (gen : BitVec 1) (s : State) : Host.Outcome State Fault Refusal :=
  .next (s.commit (eoDec gen.toNat s))

end Sys2Proof.Machine
end

