-- ==== Sys2Proof/Machine/Huffman.lean ====
section
/-! DEFINITION. The Huffman tree builder, encoder and decoder (43_huffman.md). -/

namespace Sys2Proof.Machine

/-! ### Building the code -/

/-- A Huffman tree vertex (R104): a leaf has a symbol, an internal vertex two children. -/
inductive HTree where
  | leaf (sym : Byte)
  | node (child0 child1 : HTree)
deriving DecidableEq, Repr

/-- A queue entry: a vertex with its weight and its creation number (R103). -/
structure QItem where
  weight : Nat
  seq    : Nat
  tree   : HTree
deriving DecidableEq, Repr

/-- The queue's order: (weight, seq), lexicographic (R103, log 18). -/
def QItem.before (a b : QItem) : Bool := a.weight < b.weight || (a.weight == b.weight && a.seq < b.seq)

/-- The priority queue, as a list with the smallest entry first: insert. -/
def qInsert (a : QItem) : List QItem → List QItem
  | [] => [a]
  | b :: q => if a.before b then a :: b :: q else b :: qInsert a q

/-- The loop of HUF_TREE (R104): merge the two smallest until one vertex is left. Each round makes the
queue one shorter, so a fuel of its length never runs out. -/
def hufMerge : Nat → Nat → List QItem → List QItem
  | fuel + 1, next, a :: b :: q =>
    hufMerge fuel (next + 1) (qInsert ⟨a.weight + b.weight, next, .node a.tree b.tree⟩ q)
  | _, _, q => q

/-- freq[s] (R102). -/
def freq (x : List Byte) (sym : Byte) : Nat := x.count sym

/-- The 256 symbols in ascending order (R9). -/
def symbols : List Byte := (List.range 256).map (BitVec.ofNat 8)

/-- The alphabet A, ascending (R102). -/
def alphabet (x : List Byte) : List Byte := symbols.filter fun sym => 0 < freq x sym

/-- The leaves of HUF_TREE: ascending symbols with seq 0 .. D − 1 (R103, R104). -/
def hufLeaves (x : List Byte) : List QItem :=
  (alphabet x).zipIdx.map fun (sym, i) => ⟨freq x sym, i, .leaf sym⟩

/-- HUF_TREE: what is left in the queue (one vertex, for D ≥ 1). -/
def hufTree (x : List Byte) : List QItem :=
  let leaves := hufLeaves x
  hufMerge leaves.length leaves.length (leaves.foldl (fun q a => qInsert a q) [])

/-- The code of a symbol: the edge labels on the path from the root to its leaf; the edge to child b
is labelled b (R105). -/
def HTree.path? (sym : Byte) : HTree → Option Bits
  | .leaf t => if t = sym then some [] else none
  | .node c0 c1 =>
    match c0.path? sym with
    | some bs => some (false :: bs)
    | none => (c1.path? sym).map (true :: ·)

/-- A code map: the pairs (symbol, code), ascending by symbol (R107, R109). -/
abbrev CodeMap := List (Byte × Bits)

/-- HUF_CODES (R107): for one symbol the code "0" (R106), else the paths of the tree (R105). -/
def hufCodes (x : List Byte) : CodeMap :=
  match alphabet x, hufTree x with
  | [sym], _ => [(sym, [false])]
  | syms, root :: _ => syms.map fun sym => (sym, (root.tree.path? sym).getD [])
  | _, [] => []

/-- code(sym), for a symbol of the map. -/
def CodeMap.code (codes : CodeMap) (sym : Byte) : Bits := (codes.lookup sym).getD []

/-! ### HUF_TABLE -/

/-- CODEk of a code: bits 32k .. 32k + 31, first bit most significant, 0 past the end (R40, R108). -/
def packCode (bs : Bits) (k : Nat) : Word :=
  BitVec.ofNat 32 (val ((List.range 32).map fun j => bs.getD (32 * k + j) false))

/-- CTL of an entry: VALID and LEN (R40). -/
def packCtl (valid : Bool) (len : Byte) : BitVec 9 := BitVec.ofBool valid ++ len

/-- WRITE_TABLE(codes) (R108): the entries of the map, every other entry 0. -/
def State.writeTable (s : State) (codes : CodeMap) : State :=
  let ctl := codes.foldl
    (fun m e => m.write e.1.toNat (packCtl true (BitVec.ofNat 8 e.2.length))) (Mem.zeros 9)
  let code := codes.foldl
    (fun m e => m.writeList (8 * e.1.toNat) ((List.range 8).map (packCode e.2))) (Mem.zeros 32)
  { s with mems := { s.mems with hufCtl := ctl, hufCode := code } }

/-- The valid HUF_TABLE entries as pairs, ascending (R109). -/
def State.tablePairs (s : State) : CodeMap :=
  (symbols.filter fun sym => s.hufValid sym.toNat).map fun sym => (sym, s.hufBits sym.toNat)

/-- HUF_D ← d. -/
def State.setHufD (s : State) (d : Nat) : State := { s with regs := { s.regs with hufD := BitVec.ofNat 9 d } }

/-! ### The decoder -/

/-- Neither code is equal to or a prefix of the other. -/
def prefixFree (a b : Bits) : Bool := !a.isPrefixOf b && !b.isPrefixOf a

/-- Every code of the list is prefix-free with those after it. -/
def allPrefixFree : List Bits → Bool
  | [] => true
  | a :: as => as.all (prefixFree a) && allPrefixFree as

/-- TABLE_OK(P) (R109). -/
def tableOk (p : CodeMap) : Bool :=
  !p.isEmpty && p.all (fun e => !e.2.isEmpty) && allPrefixFree (p.map (·.2))

/-- Follow a code from a vertex, creating what is missing, and mark its end (R110). Marking is the
leaf constructor: where TABLE_OK holds, the last two cases never arise (log 16). -/
def Trie.insert (sym : Byte) : Bits → Trie → Trie
  | [], _ => .leaf sym
  | false :: bs, .node c0 c1 => .node (Trie.insert sym bs c0) c1
  | true :: bs, .node c0 c1 => .node c0 (Trie.insert sym bs c1)
  | false :: bs, _ => .node (Trie.insert sym bs .absent) .absent
  | true :: bs, _ => .node .absent (Trie.insert sym bs .absent)

/-- TRIE_BUILD(P) (R110). -/
def trieBuild (p : CodeMap) : Trie := p.foldl (fun t e => t.insert e.1 e.2) (.node .absent .absent)

/-- HUF_READ (R111), from a vertex just reached: a missing child raises HUF_DECODE, a leaf ends the
read, and an internal vertex needs one more bit, TRUNCATED where none is left. -/
def Trie.read : Trie → Reader Byte
  | .absent => fun _ => .error .hufDecode
  | .leaf sym => fun bs => .ok (sym, bs)
  | .node c0 c1 => fun bs =>
    match bs with
    | [] => .error .truncated
    | false :: rest => c0.read rest
    | true :: rest => c1.read rest

/-! ### Commands -/

/-- HUF_BUILD (R112). -/
def hufBuild (s : State) : Except ErrCode State := do
  require (s.regs.clen.toNat ≤ s.cfg.contentCap) .param
  require (s.regs.clen.toNat ≠ 0) .emptyInput
  let codes := hufCodes s.contentList
  .ok { (s.writeTable codes).setHufD codes.length with trie := none }

/-- HUF_ENC sym (R113). -/
def hufEnc (sym : Byte) (s : State) : Except ErrCode State := do
  s.checkBvLen
  s.checkCode sym.toNat
  s.appendChecked (s.hufBits sym.toNat)

/-- HUF_TRIE (R114). -/
def hufTrie (s : State) : Except ErrCode State := do
  require (tableOk s.tablePairs = true) .badTable
  .ok { s.setHufD s.tablePairs.length with trie := some (trieBuild s.tablePairs) }

/-- HUF_DEC (R115). -/
def hufDec (s : State) : Except ErrCode State := do
  s.checkBvLen
  let root ← s.needTrie
  let (sym, k) ← s.readStream root.read
  .ok ((s.setResult sym.toNat).consume k)

/-- The commit of HUF_BUILD (R112, R139). -/
def execHufBuild (s : State) : Host.Outcome State Fault Refusal := .next (s.commit (hufBuild s))

/-- The commit of HUF_ENC (R113, R139). -/
def execHufEnc (sym : Byte) (s : State) : Host.Outcome State Fault Refusal := .next (s.commit (hufEnc sym s))

/-- The commit of HUF_TRIE (R114, R139). -/
def execHufTrie (s : State) : Host.Outcome State Fault Refusal := .next (s.commit (hufTrie s))

/-- The commit of HUF_DEC (R115, R139). -/
def execHufDec (s : State) : Host.Outcome State Fault Refusal := .next (s.commit (hufDec s))

end Sys2Proof.Machine
end

