-- ==== Sys2Proof/Machine/Matcher.lean ====
section
/-! DEFINITION. The prefix matcher and the LZ77 match search (41_matcher.md). -/

namespace Sys2Proof.Machine

/-! ### The Z function -/

/-- The length of the longest common prefix of two sequences. -/
def lcp {α : Type} [DecidableEq α] : List α → List α → Nat
  | a :: as, b :: bs => if a = b then lcp as bs + 1 else 0
  | _, _ => 0

/-- z[i] for i ≥ 1, by the contract of R78: the length of the longest common prefix of `pat` and its
suffix at i. The result of Z_FUNC "is normative only through the contract" (R80, log 17). -/
def zAt {α : Type} [DecidableEq α] (pat : List α) (i : Nat) : Nat := lcp pat (pat.drop i)

/-- The state of the Z-box algorithm (R80): the inclusive box [l, r], r = 0 for none, and z[1 .. k). -/
structure ZBox where
  l  : Nat
  r  : Nat
  zs : List Nat
deriving DecidableEq, Repr

/-- "while k + m < n and pat[m] == pat[k + m]: m ← m + 1" (R80). -/
def zExtend {α : Type} [DecidableEq α] (pat : List α) (k m : Nat) : Nat :=
  m + lcp (pat.drop m) (pat.drop (k + m))

/-- One round of the Z-box algorithm (R80). -/
def zBoxStep {α : Type} [DecidableEq α] (pat : List α) (b : ZBox) (k : Nat) : ZBox :=
  if b.r < k then
    let m := zExtend pat k 0
    if 0 < m then ⟨k, k + m - 1, b.zs ++ [m]⟩ else ⟨b.l, b.r, b.zs ++ [m]⟩
  else
    let zkp := b.zs.getD (k - b.l - 1) 0
    let beta := b.r - k + 1
    if zkp < beta then ⟨b.l, b.r, b.zs ++ [zkp]⟩
    else if beta < zkp then ⟨b.l, b.r, b.zs ++ [beta]⟩
    else
      let m := zExtend pat k beta
      ⟨k, k + m - 1, b.zs ++ [m]⟩

/-- The mechanism of R80: z[1 .. n) by the Z-box algorithm. No command calls it; it is stated equal to
the contract. -/
def zBoxArray {α : Type} [DecidableEq α] (pat : List α) : List Nat :=
  ((List.range' 1 (pat.length - 1)).foldl (zBoxStep pat) ⟨0, 0, []⟩).zs

/-- The self-check of R81 at index k for the value z. -/
def zCheck {α : Type} [DecidableEq α] (pat : List α) (k z : Nat) : Bool :=
  k + z == pat.length || (pat[z]? != pat[k + z]?)

/-! ### ZARRAY -/

/-- ZARRAY (R82): ZOUT[1 .. n) ← z, and ZOUT[0] ← UNSPECIFIED, a free draw (R79, log 9). -/
def zarray (s : State) : Except ErrCode State := do
  let n := s.regs.zlen.toNat
  require (n ≤ s.cfg.zcap) .param
  let pat := s.mems.zin.slice 0 n
  if n = 0 then .ok s
  else
    let zs := (List.range (n - 1)).map fun i => BitVec.ofNat 32 (zAt pat (i + 1))
    .ok { s with
      mems := { s.mems with zout := (s.mems.zout.write 0 (Config.draw 32 s.draws 0)).writeList 1 zs }
      draws := s.draws + 1 }

/-! ### Match search -/

/-- SENT = 0x100 (R86). -/
def sentinel : BitVec 9 := 0x100#9

/-- seq = lookahead ++ [SENT] ++ window ++ lookahead, as 9-bit values (R84, R86): window
x[p − W' .. p), lookahead x[p .. p + L'). -/
def matchSeq (x : List Byte) (p wp lp : Nat) : List (BitVec 9) :=
  let ahead := ((x.drop p).take lp).map (BitVec.setWidth 9)
  let window := ((x.drop (p - wp)).take wp).map (BitVec.setWidth 9)
  ahead ++ [sentinel] ++ window ++ ahead

/-- The scan of R90 over the candidate lengths, from the window start: the first maximum is kept. -/
def firstMax (len : Nat → Nat) (n : Nat) : Nat × Nat :=
  (List.range n).foldl (fun b j => if b.1 < len j then (len j, j) else b) (0, 0)

/-- The end-of-content shrink (R89). -/
def shrink (n p len : Nat) : Nat := if p + len = n then len - 1 else len

/-- MATCH(x, |x|, p, W, L) of R90, for p < |x| and L ≥ 1: offset, length, next symbol. -/
def findMatch (x : List Byte) (p w l : Nat) : Nat × Nat × Byte :=
  let wp := min p w
  let lp := min (x.length - p) l
  if wp = 0 then (0, 0, x.getD p 0)
  else
    let seq := matchSeq x p wp lp
    let (best, j) := firstMax (fun j => zAt seq (lp + 1 + j)) wp
    if best = 0 then (0, 0, x.getD p 0)
    else
      let len := shrink x.length p best
      (wp - j, len, x.getD (p + len) 0)

/-- The match at POS (R92, R98). -/
def State.matchAtPos (s : State) : Nat × Nat × Byte :=
  findMatch s.contentList s.regs.pos.toNat s.regs.windowSize.toNat s.regs.lookaheadSize.toNat

/-- LZ_MATCH (R92). -/
def lzMatch (s : State) : Except ErrCode State := do
  s.lzCheck
  require (s.regs.pos.toNat < s.regs.clen.toNat) .param
  .ok (s.setTriple s.matchAtPos)

/-- The commit of ZARRAY (R82, R139). -/
def execZarray (s : State) : Host.Outcome State Fault Refusal := .next (s.commit (zarray s))

/-- The commit of LZ_MATCH (R92, R139). -/
def execLzMatch (s : State) : Host.Outcome State Fault Refusal := .next (s.commit (lzMatch s))

end Sys2Proof.Machine
end

