-- ==== Sys2Proof/Machine/Lz77.lean ====
section
/-! DEFINITION. LZ77 triples: parse, reconstruct, serialise (42_lz77.md). -/

namespace Sys2Proof.Machine

/-- A triple (offset, length, next symbol) (R93). -/
abbrev Triple := Nat × Nat × Byte

/-! ### Functions -/

/-- The loop of PARSE (R94) from position p. Each triple advances p by at least 1, so a fuel of
|x| − p never runs out. -/
def parseFrom (x : List Byte) (w l : Nat) : Nat → Nat → List Triple
  | 0, _ => []
  | fuel + 1, p =>
    if p < x.length then
      let t := findMatch x p w l
      t :: parseFrom x w l fuel (p + t.2.1 + 1)
    else []

/-- PARSE(x, |x|, W, L) (R94). -/
def parse (x : List Byte) (w l : Nat) : List Triple := parseFrom x w l x.length 0

/-- The three checks of RECON_ONE (R95), in their order, for an output of length m. -/
def reconCheck (m : Nat) (t : Triple) (limit : Nat) (overrun : ErrCode) : Except ErrCode Unit := do
  require (¬ (t.1 = 0 ∧ 0 < t.2.1)) .badStream
  require (t.1 ≤ m) .badStream
  require (m + t.2.1 + 1 ≤ limit) overrun

/-- What RECON_ONE appends to an output of length m (R95): the o-symbol source at m − o tiled
cyclically to l symbols, then c. -/
def reconSymbols (out : Nat → Byte) (m : Nat) (t : Triple) : List Byte :=
  (List.range t.2.1).map (fun i => out (m - t.1 + i % t.1)) ++ [t.2.2]

/-- RECON_ONE on an output held as a list (R95). -/
def reconOne (out : List Byte) (t : Triple) (limit : Nat) (overrun : ErrCode) : Except ErrCode (List Byte) := do
  reconCheck out.length t limit overrun
  .ok (out ++ reconSymbols (fun i => out.getD i 0) out.length t)

/-- TRIPLE_BITS(o, l, c) (R96), the code of c given. -/
def tripleBits (o l : Nat) (code : Bits) : Bits := eo1 o ++ eo1 l ++ code

/-- TRIPLE_READ (R97), with the decode trie given. -/
def tripleRead (root : Trie) : Reader Triple := fun bs => do
  let (o, bs) ← eoRead 1 bs
  let (l, bs) ← eoRead 1 bs
  let (c, bs) ← root.read bs
  .ok ((o, l, c), bs)

/-! ### Commands -/

/-- LZ_STEP (R98): as LZ_MATCH, then POS ← POS + l + 1. -/
def lzStep (s : State) : Except ErrCode State := do
  s.lzCheck
  require (s.regs.pos.toNat < s.regs.clen.toNat) .param
  let t := s.matchAtPos
  let u := s.setTriple t
  .ok { u with regs := { u.regs with pos := BitVec.ofNat 32 (s.regs.pos.toNat + t.2.1 + 1) } }

/-- LZ_RECON (R99). -/
def lzRecon (s : State) : Except ErrCode State := do
  let m := s.regs.clen.toNat
  require (m ≤ s.cfg.contentCap) .param
  reconCheck m s.triple s.cfg.contentCap .bufFull
  let new := reconSymbols s.mems.content.read m s.triple
  .ok { s with mems := { s.mems with content := s.mems.content.writeList m new }
               regs := { s.regs with clen := BitVec.ofNat 32 (m + new.length) } }

/-- TRI_PUT (R100). -/
def triPut (s : State) : Except ErrCode State := do
  s.checkBvLen
  s.checkCode s.regs.triSymbol.toNat
  s.appendChecked
    (tripleBits s.regs.triOffset.toNat s.regs.triLength.toNat (s.hufBits s.regs.triSymbol.toNat))

/-- TRI_GET (R101). -/
def triGet (s : State) : Except ErrCode State := do
  s.checkBvLen
  let root ← s.needTrie
  let (t, k) ← s.readStream (tripleRead root)
  .ok ((s.setTriple t).consume k)

/-- The commit of LZ_STEP (R98, R139). -/
def execLzStep (s : State) : Host.Outcome State Fault Refusal := .next (s.commit (lzStep s))

/-- The commit of LZ_RECON (R99, R139). -/
def execLzRecon (s : State) : Host.Outcome State Fault Refusal := .next (s.commit (lzRecon s))

/-- The commit of TRI_PUT (R100, R139). -/
def execTriPut (s : State) : Host.Outcome State Fault Refusal := .next (s.commit (triPut s))

/-- The commit of TRI_GET (R101, R139). -/
def execTriGet (s : State) : Host.Outcome State Fault Refusal := .next (s.commit (triGet s))

end Sys2Proof.Machine
end

