-- ==== Sys2Proof/Machine/Container.lean ====
section
/-! DEFINITION. The container format framer (46_container.md), with the state after an execution-stage
error (60_exceptions.md R140). -/

namespace Sys2Proof.Machine

/-! ### Functions -/

/-- One entry of the metadata table, field 5 of R128: s; |code(s)|; code(s). -/
def entryBits (e : Byte × Bits) : Bits := binFixed 8 e.1.toNat ++ eo1 e.2.length ++ e.2

/-- FRAME_BITS (R128, R131): the container of a name and a content. -/
def frameBits (name x : List Byte) (w l : Nat) : Bits :=
  let codes := hufCodes x
  eo1 name.length
    ++ name.flatMap (fun b => binFixed 8 b.toNat)
    ++ eo1 x.length
    ++ eo1 codes.length
    ++ codes.flatMap entryBits
    ++ (parse x w l).flatMap (fun t => tripleBits t.1 t.2.1 (codes.code t.2.2))

/-- val(Take(8)) as a symbol (R132). -/
def readByte : Reader Byte := fun bs => do
  let (b, bs) ← take 8 bs
  .ok (BitVec.ofNat 8 (val b), bs)

/-- NL filename bytes (R132). -/
def readBytes : Nat → Reader (List Byte)
  | 0 => fun bs => .ok ([], bs)
  | n + 1 => fun bs => do
    let (b, bs) ← readByte bs
    let (rest, bs) ← readBytes n bs
    .ok (b :: rest, bs)

/-- D entries of the metadata table (R132). `prev` is the symbol before, plus 1 (0 for none): symbols
must be strictly ascending. -/
def readEntries : Nat → Nat → Reader CodeMap
  | 0, _ => fun bs => .ok ([], bs)
  | n + 1, prev => fun bs => do
    let (sym, bs) ← readByte bs
    let (len, bs) ← eoRead 1 bs
    require (len ≠ 0 ∧ len ≤ 255) .badTable
    require (prev ≤ sym.toNat) .badTable
    let (code, bs) ← take len bs
    let (rest, bs) ← readEntries n (sym.toNat + 1) bs
    .ok ((sym, code) :: rest, bs)

/-- The triple loop of FRAME_PARSE (R132): until |out| = N. Each triple adds at least one symbol, so a
fuel of N never runs out. -/
def readContent (root : Trie) (n : Nat) : Nat → List Byte → Reader (List Byte)
  | 0, out => fun bs => .ok (out, bs)
  | fuel + 1, out => fun bs =>
    if out.length < n then do
      let (t, bs) ← tripleRead root bs
      let out ← reconOne out t n .badStream
      readContent root n fuel out bs
    else .ok (out, bs)

/-- What FRAME_PARSE returns (R132). -/
structure Frame where
  name    : List Byte
  content : List Byte
  codes   : CodeMap
deriving DecidableEq, Repr

/-- FRAME_PARSE (R132): the container's fields, or the first error met in stream order. -/
def frameParse (cfg : Config) : Reader Frame := fun bs => do
  let (nl, bs) ← eoRead 1 bs
  require (nl ≤ cfg.nameCap) .bufFull
  let (name, bs) ← readBytes nl bs
  let (n, bs) ← eoRead 1 bs
  require (n ≠ 0) .badStream
  require (n ≤ cfg.contentCap) .bufFull
  let (d, bs) ← eoRead 1 bs
  require (d ≠ 0 ∧ d ≤ 256) .badTable
  let (codes, bs) ← readEntries d 0 bs
  require (tableOk codes = true) .badTable
  let (content, bs) ← readContent (trieBuild codes) n n [] bs
  .ok (⟨name, content, codes⟩, bs)

/-! ### FRAME_C -/

/-- The check stage of FRAME_C (R134). -/
def State.frameCCheck (s : State) : Except ErrCode Unit := do
  s.lzCheck
  require (s.regs.nlen.toNat ≤ s.cfg.nameCap) .param
  require (s.regs.clen.toNat ≠ 0) .emptyInput

/-- The container of the name and content that the registers select (R134). -/
def State.frameBits (s : State) : Bits :=
  Machine.frameBits s.nameList s.contentList s.regs.windowSize.toNat s.regs.lookaheadSize.toNat

/-- The updates of FRAME_C's Ok (R134): the container from bit 0, zero pad bits up to the next multiple
of 8 (R130), the registers, HUF_TABLE, and DEC_VALID ← 0. -/
def State.frameCOk (s : State) : State :=
  let bits := s.frameBits
  let codes := hufCodes s.contentList
  let t := s.writeBits 0 (bits ++ List.replicate (byteRound bits.length - bits.length) false)
  let u := (t.writeTable codes).setHufD codes.length
  { u with trie := none
           regs := { u.regs with bvLen := BitVec.ofNat 32 bits.length
                                 bvRptr := 0
                                 resultBits := BitVec.ofNat 32 bits.length } }

/-- HUF_TABLE and HUF_D become UNSPECIFIED and DEC_VALID ← 0, after an execution-stage error (R140).
HUF_D is a free draw of its 9 bits (log 8). -/
def State.loseTable (s : State) : State :=
  let t := s.redrawAll [.hufCtl, .hufCode]
  { t with trie := none
           regs := { t.regs with hufD := Config.draw 9 t.draws 0 }
           draws := t.draws + 1 }

/-- FRAME_C's updates on an execution-stage error (R140). -/
def State.frameCLost (s : State) : State :=
  let t := (s.redraw .bitbuf).loseTable
  { t with regs := { t.regs with bvLen := 0, bvRptr := 0 } }

/-- FRAME_C (R134). -/
def execFrameC (s : State) : Host.Outcome State Fault Refusal :=
  match s.frameCCheck with
  | .error c => .next (s.commitErr c)
  | .ok () =>
    if s.frameBits.length ≤ s.cfg.bitbufCap then .next s.frameCOk.commitOk
    else .next (s.frameCLost.commitErr .bufFull)

/-! ### FRAME_D -/

/-- The updates of FRAME_D's Ok (R135), k bits consumed. -/
def State.frameDOk (s : State) (f : Frame) (k : Nat) : State :=
  let t := { s with mems := { s.mems with name := s.mems.name.writeList 0 f.name
                                          content := s.mems.content.writeList 0 f.content } }
  let u := (t.writeTable f.codes).setHufD f.codes.length
  { u with trie := some (trieBuild f.codes)
           regs := { u.regs with nlen := BitVec.ofNat 32 f.name.length
                                 clen := BitVec.ofNat 32 f.content.length
                                 bvRptr := BitVec.ofNat 32 k
                                 resultBits := BitVec.ofNat 32 k } }

/-- FRAME_D's updates on an execution-stage error (R140). -/
def State.frameDLost (s : State) : State :=
  let t := (s.redrawAll [.name, .content]).loseTable
  { t with regs := { t.regs with nlen := 0, clen := 0 } }

/-- FRAME_D's read: FRAME_PARSE from bit 0, whatever BV_RPTR holds (R132, R135), with the number of bits
consumed. -/
def State.frameRead (s : State) : Except ErrCode (Frame × Nat) := do
  let bs := s.bitsFrom 0
  let (f, rest) ← frameParse s.cfg bs
  .ok (f, bs.length - rest.length)

/-- FRAME_D (R135). -/
def execFrameD (s : State) : Host.Outcome State Fault Refusal :=
  match s.checkBvLen with
  | .error c => .next (s.commitErr c)
  | .ok () =>
    match s.frameRead with
    | .ok (f, k) => .next (s.frameDOk f k).commitOk
    | .error c => .next (s.frameDLost.commitErr c)

end Sys2Proof.Machine
end

