-- ==== Sys2Proof/Machine/Control.lean ====
section
/-! DEFINITION. The control command (40_control.md). -/

namespace Sys2Proof.Machine

/-- NOP (R77): `return Ok({})`; the protocol still commits. -/
def execNop (s : State) : Host.Outcome State Fault Refusal := .next (s.commit (.ok s))

end Sys2Proof.Machine
end

