-- ==== Sys2Proof/Machine/Dispatch.lean ====
section
/-! DEFINITION. `exec i s`: the commit of the command `i` that the engine runs in `s` (10_state.md R22:
Exec(w, S0) with the commit that applies it). -/

namespace Sys2Proof.Machine

def exec (i : Instr) (s : State) : Host.Outcome State Fault Refusal :=
  match i with
  | .nop => Sys2Proof.Machine.execNop s
  | .zarray => Sys2Proof.Machine.execZarray s
  | .lzMatch => Sys2Proof.Machine.execLzMatch s
  | .lzStep => Sys2Proof.Machine.execLzStep s
  | .lzRecon => Sys2Proof.Machine.execLzRecon s
  | .triPut => Sys2Proof.Machine.execTriPut s
  | .triGet => Sys2Proof.Machine.execTriGet s
  | .hufBuild => Sys2Proof.Machine.execHufBuild s
  | .hufEnc sym => Sys2Proof.Machine.execHufEnc sym s
  | .hufTrie => Sys2Proof.Machine.execHufTrie s
  | .hufDec => Sys2Proof.Machine.execHufDec s
  | .eoEnc gen => Sys2Proof.Machine.execEoEnc gen s
  | .eoDec gen => Sys2Proof.Machine.execEoDec gen s
  | .bvClear => Sys2Proof.Machine.execBvClear s
  | .bvPut nbits => Sys2Proof.Machine.execBvPut nbits s
  | .bvGet nbits => Sys2Proof.Machine.execBvGet nbits s
  | .frameC => Sys2Proof.Machine.execFrameC s
  | .frameD => Sys2Proof.Machine.execFrameD s

end Sys2Proof.Machine
end

