-- ==== Sys2Proof/WellFormed.lean ====
section
/-! DEFINITION. Which operand values a command admits (30_encoding.md R70). -/

namespace Sys2Proof

/-- R70: "Legal values are 1..32" for NBITS. -/
abbrev nbitsLegal (n : BitVec 6) : Prop := 1 ≤ n.toNat ∧ n.toNat ≤ 32

/-- The operand checks of R70. GEN and SYM admit every value of their fields. -/
def Instr.wellFormed : Instr → Bool
  | .nop => true
  | .zarray => true
  | .lzMatch => true
  | .lzStep => true
  | .lzRecon => true
  | .triPut => true
  | .triGet => true
  | .hufBuild => true
  | .hufEnc _ => true
  | .hufTrie => true
  | .hufDec => true
  | .eoEnc _ => true
  | .eoDec _ => true
  | .bvClear => true
  | .bvPut n => decide (nbitsLegal n)
  | .bvGet n => decide (nbitsLegal n)
  | .frameC => true
  | .frameD => true

end Sys2Proof
end

