-- ==== Sys2Proof/Decode.lean ====
section
/-! DEFINITION. The opcode map, the decode function, total on every 32-bit word, and the encoder
(30_encoding.md R69 to R73). -/

namespace Sys2Proof

/-- Why a word is ILLEGAL (R73); all three commit Err(ILLEGAL_CMD). -/
inductive Illegal where
  /-- "the OPC is not in the map" -/
  | unassignedOpcode
  /-- "a must-be-zero bit of its format is 1" -/
  | reservedBit
  /-- "NBITS is 0 or greater than 32" -/
  | nbitsOutOfRange
deriving DecidableEq, Repr

/-- The four formats of R69. -/
inductive Format where
  | z | g | n | s
deriving DecidableEq, Repr

/-- The bits [23:0] that a format leaves to its operand field (R69); all others must be zero. -/
def Format.fieldMask : Format → Word
  | .z => 0x00000000#32
  | .g => 0x00000001#32
  | .n => 0x0000003F#32
  | .s => 0x000000FF#32

/-- The mnemonics of the opcode map (R71). -/
inductive Mnemonic where
  | nop | zarray | lzMatch | lzStep | lzRecon | triPut | triGet | hufBuild | hufEnc | hufTrie | hufDec
  | eoEnc | eoDec | bvClear | bvPut | bvGet | frameC | frameD
deriving DecidableEq, Repr

/-- One row of the opcode map (R71). -/
structure OpRow where
  opc      : Byte
  mnemonic : Mnemonic
  format   : Format
  base     : Word
  mask     : Word
deriving DecidableEq, Repr

/-- The opcode map of R71, row by row: OPC, mnemonic, format, match, mask. -/
def opcodeMap : List OpRow := [
  ⟨0x00#8, .nop,      .z, 0x00000000#32, 0xFFFFFFFF#32⟩,
  ⟨0x10#8, .zarray,   .z, 0x10000000#32, 0xFFFFFFFF#32⟩,
  ⟨0x11#8, .lzMatch,  .z, 0x11000000#32, 0xFFFFFFFF#32⟩,
  ⟨0x20#8, .lzStep,   .z, 0x20000000#32, 0xFFFFFFFF#32⟩,
  ⟨0x21#8, .lzRecon,  .z, 0x21000000#32, 0xFFFFFFFF#32⟩,
  ⟨0x22#8, .triPut,   .z, 0x22000000#32, 0xFFFFFFFF#32⟩,
  ⟨0x23#8, .triGet,   .z, 0x23000000#32, 0xFFFFFFFF#32⟩,
  ⟨0x30#8, .hufBuild, .z, 0x30000000#32, 0xFFFFFFFF#32⟩,
  ⟨0x31#8, .hufEnc,   .s, 0x31000000#32, 0xFFFFFF00#32⟩,
  ⟨0x32#8, .hufTrie,  .z, 0x32000000#32, 0xFFFFFFFF#32⟩,
  ⟨0x33#8, .hufDec,   .z, 0x33000000#32, 0xFFFFFFFF#32⟩,
  ⟨0x40#8, .eoEnc,    .g, 0x40000000#32, 0xFFFFFFFE#32⟩,
  ⟨0x41#8, .eoDec,    .g, 0x41000000#32, 0xFFFFFFFE#32⟩,
  ⟨0x50#8, .bvClear,  .z, 0x50000000#32, 0xFFFFFFFF#32⟩,
  ⟨0x51#8, .bvPut,    .n, 0x51000000#32, 0xFFFFFFC0#32⟩,
  ⟨0x52#8, .bvGet,    .n, 0x52000000#32, 0xFFFFFFC0#32⟩,
  ⟨0x60#8, .frameC,   .z, 0x60000000#32, 0xFFFFFFFF#32⟩,
  ⟨0x61#8, .frameD,   .z, 0x61000000#32, 0xFFFFFFFF#32⟩]

/-- OPC = w[31:24] (R69). -/
def opcOf (w : Word) : Byte := w.extractLsb' 24 8

/-- GEN = w[0] (R69, R70). -/
def genOf (w : Word) : BitVec 1 := w.extractLsb' 0 1

/-- NBITS = w[5:0] (R69, R70). -/
def nbitsOf (w : Word) : BitVec 6 := w.extractLsb' 0 6

/-- SYM = w[7:0] (R69, R70). -/
def symOf (w : Word) : Byte := w.extractLsb' 0 8

/-- The command of a mnemonic, with the fields of the word its format gives meaning to (R72). -/
def Mnemonic.instr (w : Word) : Mnemonic → Instr
  | .nop => .nop
  | .zarray => .zarray
  | .lzMatch => .lzMatch
  | .lzStep => .lzStep
  | .lzRecon => .lzRecon
  | .triPut => .triPut
  | .triGet => .triGet
  | .hufBuild => .hufBuild
  | .hufEnc => .hufEnc (symOf w)
  | .hufTrie => .hufTrie
  | .hufDec => .hufDec
  | .eoEnc => .eoEnc (genOf w)
  | .eoDec => .eoDec (genOf w)
  | .bvClear => .bvClear
  | .bvPut => .bvPut (nbitsOf w)
  | .bvGet => .bvGet (nbitsOf w)
  | .frameC => .frameC
  | .frameD => .frameD

/-- "A word w selects a row when (w & mask) == match. For BV_PUT and BV_GET it must also satisfy
1 ≤ w[5:0] ≤ 32." (R71) -/
def OpRow.selects (r : OpRow) (w : Word) : Bool :=
  w &&& r.mask == r.base && (r.format != .n || decide (nbitsLegal (nbitsOf w)))

/-- Decode(w) of R72. -/
def decode (w : Word) : Except Illegal Instr :=
  match opcodeMap.find? (fun r => r.opc == opcOf w) with
  | none => .error .unassignedOpcode
  | some r =>
    if w &&& r.mask != r.base then .error .reservedBit
    else if r.format == .n && !decide (nbitsLegal (nbitsOf w)) then .error .nbitsOutOfRange
    else .ok (r.mnemonic.instr w)

/-- The word of a command: its opcode in bits [31:24], its operand field in the low bits, zero
elsewhere (R69, R75). -/
def encode : Instr → Word
  | .nop => 0x00000000#32
  | .zarray => 0x10000000#32
  | .lzMatch => 0x11000000#32
  | .lzStep => 0x20000000#32
  | .lzRecon => 0x21000000#32
  | .triPut => 0x22000000#32
  | .triGet => 0x23000000#32
  | .hufBuild => 0x30000000#32
  | .hufEnc sym => 0x31000000#32 ||| sym.setWidth 32
  | .hufTrie => 0x32000000#32
  | .hufDec => 0x33000000#32
  | .eoEnc gen => 0x40000000#32 ||| gen.setWidth 32
  | .eoDec gen => 0x41000000#32 ||| gen.setWidth 32
  | .bvClear => 0x50000000#32
  | .bvPut n => 0x51000000#32 ||| n.setWidth 32
  | .bvGet n => 0x52000000#32 ||| n.setWidth 32
  | .frameC => 0x60000000#32
  | .frameD => 0x61000000#32

/-- The 32-bit word of a table row's `nbits` bits; every bit above them is 0. -/
def tableWord (nbits w : Nat) : Word := BitVec.ofNat 32 (w % 2 ^ nbits)

/-- What this decoder reads from an instruction whose bits are `w`, numbered as
spec/opcode_table.json numbers them (one 32-bit word, R68); none where it refuses. -/
def decodeTableWord (nbits w : Nat) : Option Instr := (decode (tableWord nbits w)).toOption

end Sys2Proof
end

