-- ==== Sys2Proof/Machine/Reset.lean ====
section
/-! DEFINITION. Hardware reset and soft reset (70_reset_and_hazards.md R149 to R152). -/

namespace Sys2Proof.Machine

/-- The memories that a command may write: its "Written" list in files 40 to 46 (R38, R152). -/
def writtenMems : Instr → List MemName
  | .nop => []
  | .zarray => [.zout]
  | .lzMatch => []
  | .lzStep => []
  | .lzRecon => [.content]
  | .triPut => [.bitbuf]
  | .triGet => []
  | .hufBuild => [.hufCtl, .hufCode]
  | .hufEnc _ => [.bitbuf]
  | .hufTrie => []
  | .hufDec => []
  | .eoEnc _ => [.bitbuf]
  | .eoDec _ => []
  | .bvClear => []
  | .bvPut _ => [.bitbuf]
  | .bvGet _ => []
  | .frameC => [.bitbuf, .hufCtl, .hufCode]
  | .frameD => [.name, .content, .hufCtl, .hufCode]

/-- The memories that the command in flight may write; an illegal word writes none (R73, log 14). -/
def State.inFlightMems (s : State) : List MemName :=
  match s.engine with
  | .idle => []
  | .busy _ =>
    match decode s.regs.cmd with
    | .ok i => writtenMems i
    | .error _ => []

/-- Soft reset (R152): the command in flight is dropped without a commit, the memories it may write
become UNSPECIFIED, every CSR takes its reset value, every CTL word ← 0, DEC_VALID ← 0, and the engine
is IDLE. Every other memory keeps its contents. -/
def State.softReset (s : State) : State :=
  let t := s.redrawAll s.inFlightMems
  { t with engine := .idle
           regs := .reset s.cfg
           mems := { t.mems with hufCtl := .zeros 9 }
           trie := none }

/-- rst_n falls (R149): the command in flight is dropped without a commit. The reset values are applied
when it rises; until then no access can see them (log 13). -/
def State.assertReset (s : State) : State := { s with rstN := false, engine := .idle }

/-- rst_n rises (R149 to R151): the reset state, its UNSPECIFIED entries drawn anew. Where rst_n was
not low nothing happens. -/
def State.releaseReset (s : State) : State :=
  if s.rstN then s
  else { s with rstN := true
                engine := .idle
                regs := .reset s.cfg
                mems := .reset s.draws
                trie := none
                draws := s.draws + resetDraws }

end Sys2Proof.Machine
end

