-- ==== Sys2Proof/Machine/Bus.lean ====
section
/-! DEFINITION. The host bus: the CSRs (10_state.md section 4), the address map, access widths and byte
lanes (20_memory.md R50 to R58), and accesses while a command runs (R59, R60). -/

namespace Sys2Proof.Machine

/-! ### CSRs -/

/-- The offsets of the CSR summary. -/
def Csr.offset : Csr → Nat
  | .id => 0x000
  | .version => 0x004
  | .ctrl => 0x008
  | .status => 0x00C
  | .cmd => 0x010
  | .errcode => 0x014
  | .windowSize => 0x018
  | .lookaheadSize => 0x01C
  | .nlen => 0x020
  | .clen => 0x024
  | .pos => 0x028
  | .bvLen => 0x02C
  | .bvRptr => 0x030
  | .zlen => 0x034
  | .triOffset => 0x038
  | .triLength => 0x03C
  | .triSymbol => 0x040
  | .arg => 0x044
  | .result => 0x048
  | .resultBits => 0x04C
  | .hufD => 0x050
  | .hufState => 0x054
  | .capContent => 0x058
  | .capName => 0x05C
  | .capBitbuf => 0x060
  | .capZ => 0x064
  | .capWmax => 0x068
  | .capLmax => 0x06C

/-- Every CSR, in the order of the CSR summary. -/
def Csr.all : List Csr := [
  .id, .version, .ctrl, .status, .cmd, .errcode, .windowSize, .lookaheadSize, .nlen, .clen, .pos,
  .bvLen, .bvRptr, .zlen, .triOffset, .triLength, .triSymbol, .arg, .result, .resultBits, .hufD,
  .hufState, .capContent, .capName, .capBitbuf, .capZ, .capWmax, .capLmax]

/-- The CSR at an offset; none at the reserved offsets 0x070 to 0x0FF (R23). -/
def csrAt (off : Nat) : Option Csr := Csr.all.find? fun r => r.offset == off

/-- The value a CSR holds (R24 to R37); its reserved bits are 0 (R23). -/
def State.csr (s : State) : Csr → Word
  | .id => 0x4C5A3737#32
  | .version => 0x00000001#32
  | .ctrl => packCtrl s.regs.irqEn
  | .status => s.statusWord
  | .cmd => s.regs.cmd
  | .errcode => s.regs.errCode.setWidth 32
  | .windowSize => s.regs.windowSize
  | .lookaheadSize => s.regs.lookaheadSize
  | .nlen => s.regs.nlen
  | .clen => s.regs.clen
  | .pos => s.regs.pos
  | .bvLen => s.regs.bvLen
  | .bvRptr => s.regs.bvRptr
  | .zlen => s.regs.zlen
  | .triOffset => s.regs.triOffset
  | .triLength => s.regs.triLength
  | .triSymbol => s.regs.triSymbol.setWidth 32
  | .arg => s.regs.arg
  | .result => s.regs.result
  | .resultBits => s.regs.resultBits
  | .hufD => s.regs.hufD.setWidth 32
  | .hufState => (BitVec.ofBool s.trie.isSome).setWidth 32
  | .capContent => BitVec.ofNat 32 s.cfg.contentCap
  | .capName => BitVec.ofNat 32 s.cfg.nameCap
  | .capBitbuf => BitVec.ofNat 32 s.cfg.bitbufCap
  | .capZ => BitVec.ofNat 32 s.cfg.zcap
  | .capWmax => BitVec.ofNat 32 s.cfg.wmax
  | .capLmax => BitVec.ofNat 32 s.cfg.lmax

/-- The value a CSR has in the snapshot S0 of the command in flight, STATUS.BUSY shown as 1 (R22). DONE
and ERR are 0 in S0, acceptance having cleared them (R138). -/
def State.snapCsr (s : State) (s0 : Snapshot) : Csr → Word
  | .ctrl => packCtrl s0.irqEn
  | .status => packStatus s0.ovr false false true
  | r => s.csr r

/-- What a host read of a CSR returns: while IDLE the value it holds; while BUSY its value in S0, but that
STATUS.BUSY reads 1 (R22, R60). -/
def State.readCsr (s : State) (r : Csr) : Word :=
  match s.engine with
  | .idle => s.csr r
  | .busy s0 => s.snapCsr s0 r

/-- A write of CTRL (R25): SRST = 1 performs the soft reset, whatever IRQ_EN holds; else IRQ_EN ← v[1].
It is accepted while BUSY too. -/
def State.writeCtrl (s : State) (v : Word) : State :=
  if v.getLsbD 0 then s.softReset else { s with regs := { s.regs with irqEn := v.getLsbD 1 } }

/-- A host write of a CSR while the engine is IDLE: operand registers store any value, apart from
reserved bits; a write to CMD is accepted; writes to RO registers are ignored (R23, R27). -/
def State.writeCsrIdle (s : State) (v : Word) : Csr → State
  | .ctrl => s.writeCtrl v
  | .status => { s with regs := s.regs.writeStatus v }
  | .cmd => s.accept v
  | .windowSize => { s with regs := { s.regs with windowSize := v } }
  | .lookaheadSize => { s with regs := { s.regs with lookaheadSize := v } }
  | .nlen => { s with regs := { s.regs with nlen := v } }
  | .clen => { s with regs := { s.regs with clen := v } }
  | .pos => { s with regs := { s.regs with pos := v } }
  | .bvLen => { s with regs := { s.regs with bvLen := v } }
  | .bvRptr => { s with regs := { s.regs with bvRptr := v } }
  | .zlen => { s with regs := { s.regs with zlen := v } }
  | .triOffset => { s with regs := { s.regs with triOffset := v } }
  | .triLength => { s with regs := { s.regs with triLength := v } }
  | .triSymbol => { s with regs := { s.regs with triSymbol := v.extractLsb' 0 8 } }
  | .arg => { s with regs := { s.regs with arg := v } }
  | .id => s
  | .version => s
  | .errcode => s
  | .result => s
  | .resultBits => s
  | .hufD => s
  | .hufState => s
  | .capContent => s
  | .capName => s
  | .capBitbuf => s
  | .capZ => s
  | .capWmax => s
  | .capLmax => s

/-- A host write of a CSR while BUSY (R23, R27, R59): CTRL and STATUS as ever; a CMD write only sets
OVR; every other write is ignored. -/
def State.writeCsrBusy (s : State) (v : Word) : Csr → State
  | .ctrl => s.writeCtrl v
  | .status => { s with regs := s.regs.writeStatus v }
  | .cmd => { s with regs := { s.regs with ovr := true } }
  | _ => s

/-! ### The address map -/

/-- Where an access lands (R51); `bytes w i n` is n bytes of the byte window w from byte i. -/
inductive Loc where
  | unmapped
  | csr (off : Nat)
  | huf (word : Nat)
  | bytes (win : ByteWin) (i n : Nat)
  | zin (i : Nat)
  | zout (i : Nat)
deriving DecidableEq, Repr

/-- bus_size: 0, 1, 2 are 1, 2, 4 bytes; 3 is reserved (R48). -/
def Access.bytes? (a : Access) : Option Nat :=
  if a.size = 0#2 then some 1 else if a.size = 1#2 then some 2 else if a.size = 2#2 then some 4 else none

/-- The number of bytes of a byte window (R51). -/
def winCap (c : Config) : ByteWin → Nat
  | .name => c.nameCap
  | .content => c.contentCap
  | .bitbuf => c.bitbufCap / 8

/-- The first offset of a byte window (R51). -/
def ByteWin.base : ByteWin → Nat
  | .name => 0x008000
  | .content => 0x400000
  | .bitbuf => 0x800000

/-- The first offset of a word window (R51). -/
def WordWin.base : WordWin → Nat
  | .zin => 0x100000
  | .huf => 0x004000

/-- n bytes at offset o of a byte window: aligned to their size and inside the capacity, else unmapped
(R53). -/
def byteLoc (c : Config) (w : ByteWin) (o n : Nat) : Loc :=
  let i := o - w.base
  if o % n = 0 ∧ i + n ≤ winCap c w then .bytes w i n else .unmapped

/-- The address map (R51) with the width and alignment rules (R52 to R54). -/
def locate (c : Config) (a : Access) : Loc :=
  match a.bytes? with
  | none => .unmapped
  | some n =>
    let o := a.addr.toNat
    let word := n = 4 ∧ o % 4 = 0
    if o < 0x000100 then if word then .csr o else .unmapped
    else if o < 0x004000 then .unmapped
    else if o < 0x008000 then if word then .huf ((o - 0x004000) / 4) else .unmapped
    else if o < 0x009000 then byteLoc c .name o n
    else if o < 0x100000 then .unmapped
    else if o < 0x200000 then
      if word ∧ (o - 0x100000) / 4 < c.zcap then .zin ((o - 0x100000) / 4) else .unmapped
    else if o < 0x300000 then
      if word ∧ (o - 0x200000) / 4 < c.zcap then .zout ((o - 0x200000) / 4) else .unmapped
    else if o < 0x400000 then .unmapped
    else if o < 0x800000 then byteLoc c .content o n
    else byteLoc c .bitbuf o n

/-- The block offset of a platform address: the block's 24-bit space stands at BASE (R50), and bus_addr is
the offset from it (R48); none where the address is outside that space. -/
def blockOffset (c : Config) (addr : Nat) : Option (BitVec 24) :=
  if c.base ≤ addr ∧ addr < c.base + 2 ^ 24 then some (BitVec.ofNat 24 (addr - c.base)) else none

/-! ### Bytes and words -/

/-- Byte lanes (R53): the first byte on data bits [7:0], the next on [15:8], and so on; 0 above. -/
def leWord : List Byte → Word
  | [] => 0
  | b :: bs => (leWord bs).shiftLeft 8 ||| b.setWidth 32

/-- The n bytes that a write carries on its lanes (R53). -/
def leBytes (n : Nat) (v : Word) : List Byte := (List.range n).map fun k => v.extractLsb' (8 * k) 8

/-- Byte i of a byte window; a BITBUF byte holds bits 8i .. 8i + 7, the first in bit 7 (R55). -/
def State.byteAt (s : State) : ByteWin → Nat → Byte
  | .name, i => s.mems.name.read i
  | .content, i => s.mems.content.read i
  | .bitbuf, i => BitVec.ofNat 8 (val ((List.range 8).map fun k => s.bit (8 * i + k)))

/-- Bytes i, i + 1, … of a byte window ← a list. -/
def State.writeBytes (s : State) (i : Nat) (bs : List Byte) : ByteWin → State
  | .name => { s with mems := { s.mems with name := s.mems.name.writeList i bs } }
  | .content => { s with mems := { s.mems with content := s.mems.content.writeList i bs } }
  | .bitbuf => s.writeBits (8 * i) (bs.flatMap fun b => binFixed 8 b.toNat)

/-- Word `k` of the HUF_TABLE window (R40): 16 words an entry, CTL, CODE0 .. CODE7, then reserved. -/
def State.readHuf (s : State) (k : Nat) : Word :=
  let sym := k / 16
  if k % 16 = 0 then BitVec.ofBool (s.hufValid sym) ++ 0#23 ++ (s.mems.hufCtl.read sym).extractLsb' 0 8
  else if k % 16 ≤ 8 then s.mems.hufCode.read (8 * sym + (k % 16 - 1))
  else 0

/-- A host write of a HUF_TABLE word (R40): reserved bits and words are ignored, and DEC_VALID is
cleared whatever is written. -/
def State.writeHuf (s : State) (k : Nat) (v : Word) : State :=
  let sym := k / 16
  let mems :=
    if k % 16 = 0 then
      { s.mems with hufCtl := s.mems.hufCtl.write sym (packCtl (v.getLsbD 31) (v.extractLsb' 0 8)) }
    else if k % 16 ≤ 8 then
      { s.mems with hufCode := s.mems.hufCode.write (8 * sym + (k % 16 - 1)) v }
    else s.mems
  { s with mems := mems, trie := none }

/-! ### Accesses -/

/-- A read of a memory window while BUSY: an UNSPECIFIED value, a free draw per read (R60). A narrow
read returns 0 above its width (R53, log 7). -/
def State.drawRead (s : State) (n : Nat) : State × Word :=
  ({ s with draws := s.draws + 1 }, (Config.draw (8 * n) s.draws 0).setWidth 32)

/-- A host read (R52 to R60): the state after it, and bus_rdata. -/
def State.busRead (s : State) : Loc → State × Word
  | .unmapped => (s, 0)
  | .csr off =>
    match csrAt off with
    | some r => (s, s.readCsr r)
    | none => (s, 0)
  | .huf k => if s.busy then s.drawRead 4 else (s, s.readHuf k)
  | .bytes w i n => if s.busy then s.drawRead n else (s, leWord ((List.range n).map fun k => s.byteAt w (i + k)))
  | .zin i => if s.busy then s.drawRead 4 else (s, (s.mems.zin.read i).setWidth 32)
  | .zout i => if s.busy then s.drawRead 4 else (s, s.mems.zout.read i)

/-- A host write (R52 to R59). ZOUT is read-only; while BUSY only CTRL and STATUS are written, and a
CMD write sets OVR. -/
def State.busWrite (s : State) (v : Word) : Loc → State
  | .unmapped => s
  | .csr off =>
    match csrAt off with
    | some r => if s.busy then s.writeCsrBusy v r else s.writeCsrIdle v r
    | none => s
  | .huf k => if s.busy then s else s.writeHuf k v
  | .bytes w i n => if s.busy then s else s.writeBytes i (leBytes n v) w
  | .zin i =>
    if s.busy then s
    else { s with mems := { s.mems with zin := s.mems.zin.write i (v.extractLsb' 0 16) } }
  | .zout _ => s

/-- One host access, one atomic step (R48, R49): the state after it and bus_rdata (0 for a write).
While rst_n is asserted reads return 0 and writes have no effect (R149). -/
def State.access (s : State) (a : Access) : State × Word :=
  if s.rstN then
    if a.write then (s.busWrite a.wdata (locate s.cfg a), 0) else s.busRead (locate s.cfg a)
  else (s, 0)

end Sys2Proof.Machine
end

