-- ==== Sys2Proof/Machine/HostProgram.lean ====
section
/-! DEFINITION. The host agent: what each line of a host program does (30_encoding.md R74 to R76), one
bus access a step (20_memory.md R48), and the end of a run (70_reset_and_hazards.md R160). -/

namespace Sys2Proof.Machine

/-- The host goes on to the next line. -/
def State.nextLine (s : State) : State := { s with host := { s.host with pc := s.host.pc + 1, sub := 0 } }

/-- The host goes to a line. -/
def State.goto (s : State) (n : Nat) : State := { s with host := { s.host with pc := n, sub := 0 } }

/-- The host has made one more access of a line of `n` accesses. -/
def State.nextAccess (s : State) (n : Nat) : State :=
  if s.host.sub + 1 < n then { s with host := { s.host with sub := s.host.sub + 1 } } else s.nextLine

/-- MemWrite(addr, n, v) (R16), at the platform address BASE + addr (R50); past the block's 24-bit space
the write reaches nothing of it (log 12). -/
def State.memWrite (s : State) (addr : Nat) (size : BitVec 2) (v : Word) : State :=
  match blockOffset s.cfg (s.cfg.base + addr) with
  | some o => (s.access ⟨o, size, true, v⟩).1
  | none => s

/-- A write of a CSR: `wr REG, imm` (R74). -/
def State.hostWr (s : State) (r : Csr) (v : Word) : State := s.memWrite r.offset 2#2 v

/-- An access reads ERRCODE. -/
def State.readsErrCode (s : State) (a : Access) : Bool :=
  !a.write && locate s.cfg a == .csr Csr.errcode.offset

/-- One access by the host. A read is kept as its operand; a read of ERRCODE is also recorded, as part
of the run's observation (R160). -/
def State.hostAccess (s : State) (a : Access) : State :=
  let (t, v) := s.access a
  if a.write then t
  else
    { t with host := { t.host with
        operand := v
        errSeen := if s.readsErrCode a then t.host.errSeen ++ [v] else t.host.errSeen } }

/-- An access outside the block's space: it does not reach the block, and what a read of it returns is the
platform's, a free draw. [DESIGN CHOICE, log 20: safe.] -/
def State.hostElsewhere (s : State) (write : Bool) : State :=
  if write then s
  else { s with draws := s.draws + 1, host := { s.host with operand := Config.draw 32 s.draws 0 } }

/-- One access by the host at a platform address: the access of the block at the offset from BASE, where
there is one (R50). -/
def State.hostPlatform (s : State) (p : PlatformAccess) : State :=
  match blockOffset s.cfg p.addr with
  | some o => s.hostAccess ⟨o, p.size, p.write, p.wdata⟩
  | none => s.hostElsewhere p.write

/-- `rd REG` (R74): MemRead(offset(REG), 4). -/
def State.hostRd (s : State) (r : Csr) : State := s.hostAccess ⟨BitVec.ofNat 24 r.offset, 2#2, false, 0⟩

/-- One step of the host at a line (R74, R76). -/
def hostOp (s : State) : HostOp → State
  | .access a => (s.hostAccess a).nextLine
  | .platform p => (s.hostPlatform p).nextLine
  | .issue i => (s.hostWr .cmd (encode i)).nextLine
  | .wr r imm => (s.hostWr r imm).nextLine
  | .wrb w i bs =>
    match bs[s.host.sub]? with
    | some b => (s.memWrite (w.base + i + s.host.sub) 0#2 (b.setWidth 32)).nextAccess bs.length
    | none => s.nextLine
  | .wrw w i ws =>
    match ws[s.host.sub]? with
    | some v => (s.memWrite (w.base + 4 * (i + s.host.sub)) 2#2 v).nextAccess ws.length
    | none => s.nextLine
  | .rd r => (s.hostRd r).nextLine
  | .blt r1 r2 target =>
    if s.host.sub = 0 then
      let t := s.hostRd r1
      { t with host := { t.host with held := t.host.operand, sub := 1 } }
    else
      let t := s.hostRd r2
      if t.host.held.toNat < t.host.operand.toNat then t.goto target else t.nextLine
  | .berr target =>
    let t := s.hostRd .status
    if t.host.operand.getLsbD 2 then t.goto target else t.nextLine
  | .wait =>
    let t := s.hostRd .status
    if t.host.operand.getLsbD 0 then t else t.nextLine
  | .halt => s

/-- One step of the host: nothing past the end of its program (log 11). -/
def State.hostStep (s : State) : State :=
  match s.host.prog[s.host.pc]? with
  | some op => hostOp s op
  | none => s

/-- The host has come to the end of its program: it is at `halt` (R160), or past its last line. The spec does
not say what becomes of a program that runs past its last line with no `halt`; the model counts it as at its
end. [DESIGN CHOICE, log 22: unsafe.] -/
def State.hostHalted (s : State) : Bool :=
  match s.host.prog[s.host.pc]? with
  | some op => op == .halt
  | none => true

/-- The end of a run (R160): `halt` with the engine IDLE. The spec does not say whether a run at `halt` while
rst_n is low is over; the model counts it over, the engine being IDLE from the fall of rst_n (log 13), and
the CSRs and memories of its end are those from before the reset. [DESIGN CHOICE, log 22: unsafe.] -/
def State.runOver (s : State) : Bool := s.hostHalted && !s.busy

end Sys2Proof.Machine
end

