-- ==== Sys2Proof/Machine/Engine.lean ====
section
/-! DEFINITION. The engine's step (10_state.md R22, 70_reset_and_hazards.md R154), and which agent moves
(log 4). -/

namespace Sys2Proof.Machine

/-- The engine's commit: enabled while it is BUSY and rst_n is high. The word in CMD is decoded; an
illegal word commits Err(ILLEGAL_CMD) and changes nothing but STATUS and ERRCODE (R73). -/
def engineStep (s : State) : Host.Outcome State Fault Refusal :=
  if s.busy && s.rstN then
    match decode s.regs.cmd with
    | .ok i => exec i s
    | .error _ => .next (s.commitErr .illegalCmd)
  else .next s

/-- Whose turn it is: as `turns` says; once it is used up, the engine's while it is BUSY, else the
host's. So every command commits after finitely many steps (R154, weak fairness). -/
def State.turn (s : State) : Turn :=
  match s.turns with
  | t :: _ => t
  | [] => if s.busy then .engine else .host

/-- The turn is used up. -/
def State.takeTurn (s : State) : State := { s with turns := s.turns.tail }

/-- One step of the agent whose turn it is. -/
def agentStep (s : State) : Turn → Host.Outcome State Fault Refusal
  | .host => .next s.hostStep
  | .engine => engineStep s
  | .rstAssert => .next s.assertReset
  | .rstRelease => .next s.releaseReset

/-- The acceptance of the word `w`, the engine's turn next, rst_n high. -/
def State.load (s : State) (w : Word) : State :=
  { s.accept w with rstN := true, turns := .engine :: s.turns }

end Sys2Proof.Machine
end

