-- ==== Sys2Proof/Machine/Step.lean ====
section
/-! DEFINITION. One step of the machine: the agent whose turn it is moves (10_state.md R19, R22). -/

namespace Sys2Proof.Machine

/-- One step: a host access, a commit, or an edge of rst_n. -/
def step (s : State) : Host.Outcome State Fault Refusal := agentStep s.takeTurn s.turn

/-- `s` with the word of `nbits` bits `w` accepted by the engine (a completed write of CMD), its commit
being the very next step (log 10). -/
def State.withFetchWord (s : State) (nbits w : Nat) : State := s.load (tableWord nbits w)

end Sys2Proof.Machine
end

