-- ==== Sys2Proof/Safety.lean ====
section
/-! DEFINITION. What counts as a well-kept state, and the terms that claims use for what a command may
change. -/

namespace Sys2Proof.Machine

/-! ### Invariants -/

/-- An unlisted entry's draw is one that has been made. -/
def Fill.madeBy : Fill → Nat → Prop
  | .zero, _ => True
  | .drawn e, n => e < n

/-- A memory in canonical form, listing entries below `cap` only (R61), its draw one of the first `n`. -/
def Mem.ok {w : Nat} (m : Mem w) (cap n : Nat) : Prop := m.wf ∧ m.within cap ∧ m.fill.madeBy n

/-- Every local memory is well kept, at the capacity R38 gives it. -/
structure State.MemsOk (s : State) : Prop where
  name    : s.mems.name.ok s.cfg.nameCap s.draws
  content : s.mems.content.ok s.cfg.contentCap s.draws
  bitbuf  : s.mems.bitbuf.ok s.cfg.bitbufCap s.draws
  zin     : s.mems.zin.ok s.cfg.zcap s.draws
  zout    : s.mems.zout.ok s.cfg.zcap s.draws
  hufCtl  : s.mems.hufCtl.ok 256 s.draws
  hufCode : s.mems.hufCode.ok 2048 s.draws

/-- R26, R138: DONE and ERR are never both 1, and both are 0 while BUSY. R149: while rst_n is low no
command is in flight. -/
structure State.StatusOk (s : State) : Prop where
  notBoth   : ¬ (s.regs.done = true ∧ s.regs.err = true)
  busyClear : s.busy = true → s.regs.done = false ∧ s.regs.err = false
  resetIdle : s.rstN = false → s.engine = .idle

/-- R44: "While DEC_VALID = 1, the trie is exactly the trie of the valid HUF_TABLE entries", for which
TABLE_OK holds (R114, R135). -/
def State.TrieOk (s : State) : Prop :=
  ∀ t, s.trie = some t → tableOk s.tablePairs = true ∧ t = trieBuild s.tablePairs

/-- R136: ERRCODE.CODE is NONE or one of the codes but ASSERT, which a conforming block never raises
(R81). -/
def State.ErrCodeOk (s : State) : Prop :=
  s.regs.errCode = 0 ∨ ∃ c : ErrCode, c ≠ .assert ∧ s.regs.errCode = c.code

/-! ### Frames -/

/-- Every CSR outside the list holds the value it held. -/
def SameCsrs (except : List Csr) (s t : State) : Prop := ∀ r, r ∉ except → t.csr r = s.csr r

/-- Every entry of every memory reads as before, but for those that `stored` names. -/
def SameEntries (stored : MemName → Nat → Prop) (s t : State) : Prop :=
  ∀ m k, ¬ stored m k → t.mems.entry m k = s.mems.entry m k

/-- No entry. -/
def noEntry : MemName → Nat → Prop := fun _ _ => False

/-- Entries a, a + 1, …, a + n − 1 of one memory. -/
def entries (m : MemName) (a n : Nat) : MemName → Nat → Prop := fun m' k => m' = m ∧ a ≤ k ∧ k < a + n

/-- All of HUF_TABLE. -/
def wholeTable : MemName → Nat → Prop := fun m _ => m = .hufCtl ∨ m = .hufCode

/-- What no command writes: the parameters, the reset pin, the host and the schedule; and the engine is
IDLE after a commit, OVR and IRQ_EN as before (R138). -/
structure CommitFrame (s t : State) : Prop where
  cfg    : t.cfg = s.cfg
  rstN   : t.rstN = s.rstN
  host   : t.host = s.host
  turns  : t.turns = s.turns
  engine : t.engine = .idle
  ovr    : t.regs.ovr = s.regs.ovr
  irqEn  : t.regs.irqEn = s.regs.irqEn

/-- The commit of Ok (R138): DONE is 1, ERR and ERRCODE are as acceptance left them. -/
structure OkCommit (s t : State) : Prop where
  frame   : CommitFrame s t
  done    : t.regs.done = true
  err     : t.regs.err = s.regs.err
  errCode : t.regs.errCode = s.regs.errCode

/-! ### The match of R91 -/

/-- "x[p − o + t] = x[p + t] for all t < k", with k ≤ L' (R91). -/
def Agrees (x : List Byte) (p l o k : Nat) : Prop :=
  k ≤ min (x.length - p) l ∧ ∀ t, t < k → x[p - o + t]? = x[p + t]?

/-- The match at p by the direct definition of R91, with the tie-break of R88 and the shrink of R89:
offset, length, next symbol. -/
inductive IsMatch (x : List Byte) (p w l : Nat) : Nat → Nat → Byte → Prop where
  /-- No offset of the window gives a match of one symbol (R85, R88). -/
  | none (c : Byte) (next : x[p]? = some c)
      (no : ∀ o k, 1 ≤ o → o ≤ min p w → Agrees x p l o k → k = 0) : IsMatch x p w l 0 0 c
  /-- The longest agreement, at the largest offset that reaches it (R88, R91), shrunk by one where it
  would run to the end of content (R89). -/
  | found (o best len : Nat) (c : Byte) (pos : 0 < best) (lower : 1 ≤ o) (upper : o ≤ min p w)
      (agrees : Agrees x p l o best)
      (longest : ∀ o' k, 1 ≤ o' → o' ≤ min p w → Agrees x p l o' k → k ≤ best)
      (largest : ∀ o', 1 ≤ o' → o' ≤ min p w → Agrees x p l o' best → o' ≤ o)
      (shrunk : len = if p + best = x.length then best - 1 else best)
      (next : x[p + len]? = some c) : IsMatch x p w l o len c

/-! ### HUF_TABLE and the tree -/

/-- WRITE_TABLE's result (R40, R108): HUF_TABLE holds the map and nothing else. -/
structure State.HoldsTable (s : State) (p : CodeMap) : Prop where
  /-- The valid entries, with their lengths and code bits. -/
  pairs  : s.tablePairs = p
  /-- "the remaining code bits ← 0". -/
  zeros  : ∀ e ∈ p, ∀ j, e.2.length ≤ j → j < 256 → s.hufCodeBit e.1.toNat j = false
  /-- Any other symbol: "the CTL word ← 0 and every CODE word ← 0". -/
  others : ∀ sym : Byte, sym ∉ p.map (·.1) → ∀ k, k ≤ 8 → s.readHuf (16 * sym.toNat + k) = 0

/-- The queue removes `a` before `b`: the smaller (weight, seq) (R103). -/
def QItem.Smaller (a b : QItem) : Prop := a.weight < b.weight ∨ (a.weight = b.weight ∧ a.seq < b.seq)

/-- `Merges next q root`: the loop of R104 on the vertices `q`, the next creation number being `next`,
leaves the tree `root`. Each round takes out the two smallest, `a` before `b`, and puts in their parent,
`a` its child 0, its weight their sum. -/
inductive Merges : Nat → List QItem → HTree → Prop where
  | done (next : Nat) (a : QItem) : Merges next [a] a.tree
  | round (next : Nat) (q rest : List QItem) (a b : QItem) (root : HTree)
      (taken : q.Perm (a :: b :: rest)) (first : ∀ c ∈ b :: rest, a.Smaller c) (second : ∀ c ∈ rest, b.Smaller c)
      (more : Merges (next + 1) (⟨a.weight + b.weight, next, .node a.tree b.tree⟩ :: rest) root) : Merges next q root

/-- The edge labels on a path from the root to the leaf of a symbol (R105). -/
inductive LeafPath (sym : Byte) : HTree → Bits → Prop where
  | here : LeafPath sym (.leaf sym) []
  | child0 (c0 c1 : HTree) (bs : Bits) (below : LeafPath sym c0 bs) : LeafPath sym (.node c0 c1) (false :: bs)
  | child1 (c0 c1 : HTree) (bs : Bits) (below : LeafPath sym c1 bs) : LeafPath sym (.node c0 c1) (true :: bs)

/-! ### Which error a reader raises -/

/-- EO_READ(off), about to read a component of `ell` bits, raises an error (R118). -/
inductive EoFails (off : Nat) : Nat → Bits → ErrCode → Prop where
  /-- Fewer bits are left than the component has. -/
  | cut (ell : Nat) (bs : Bits) (short : bs.length < ell) : EoFails off ell bs .truncated
  /-- The component gives a next length above 33. -/
  | long (ell : Nat) (comp rest : Bits) (size : comp.length + 1 = ell) (above : 33 < val (true :: comp) + 1) :
      EoFails off ell (false :: comp ++ rest) .overflow
  /-- The payload's value less off exceeds 2^32 − 1. -/
  | big (ell : Nat) (comp rest : Bits) (size : comp.length + 1 = ell) (above : 2 ^ 32 - 1 < val (true :: comp) - off) :
      EoFails off ell (true :: comp ++ rest) .overflow
  /-- The component gives the length of a next one, and that raises the error. -/
  | next (ell : Nat) (comp rest : Bits) (c : ErrCode) (size : comp.length + 1 = ell)
      (fits : val (true :: comp) + 1 ≤ 33) (fails : EoFails off (val (true :: comp) + 1) rest c) :
      EoFails off ell (false :: comp ++ rest) c

/-- HUF_READ in the trie of the pairs `p` raises an error (R111). -/
inductive HufFails (p : CodeMap) (bs : Bits) : ErrCode → Prop where
  /-- The bits end inside a code. -/
  | cut (e : Byte × Bits) (mem : e ∈ p) (inside : bs <+: e.2) (short : bs.length < e.2.length) : HufFails p bs .truncated
  /-- The bits leave every code: a child is missing. -/
  | missing (noCode : ∀ e ∈ p, ¬ e.2 <+: bs) (outside : ∀ e ∈ p, ¬ bs <+: e.2) : HufFails p bs .hufDecode

/-- TRIPLE_READ raises the first error of its three reads (R97). -/
inductive TripleFails (p : CodeMap) : Bits → ErrCode → Prop where
  | offset (bs : Bits) (c : ErrCode) (fails : EoFails 1 1 bs c) : TripleFails p bs c
  | length (o : Nat) (bs : Bits) (c : ErrCode) (ho : o < 2 ^ 32) (fails : EoFails 1 1 bs c) : TripleFails p (eo1 o ++ bs) c
  | symbol (o l : Nat) (bs : Bits) (c : ErrCode) (ho : o < 2 ^ 32) (hl : l < 2 ^ 32) (fails : HufFails p bs c) :
      TripleFails p (eo1 o ++ eo1 l ++ bs) c

/-- The triples of a container of content length `n` raise an error, `out` already reconstructed (R95,
R132). -/
inductive TriplesFail (p : CodeMap) (n : Nat) : List Byte → Bits → ErrCode → Prop where
  | read (out : List Byte) (bs : Bits) (c : ErrCode) (more : out.length < n) (fails : TripleFails p bs c) :
      TriplesFail p n out bs c
  /-- A copy with no source, a source before the start, or a result past the content length. -/
  | replay (out : List Byte) (o l : Nat) (e : Byte × Bits) (bs : Bits) (more : out.length < n) (mem : e ∈ p)
      (ho : o < 2 ^ 32) (hl : l < 2 ^ 32) (bad : (o = 0 ∧ 0 < l) ∨ out.length < o ∨ n < out.length + l + 1) :
      TriplesFail p n out (tripleBits o l e.2 ++ bs) .badStream
  | next (out out' : List Byte) (o l : Nat) (e : Byte × Bits) (bs : Bits) (c : ErrCode) (more : out.length < n)
      (mem : e ∈ p) (ho : o < 2 ^ 32) (hl : l < 2 ^ 32) (good : reconOne out (o, l, e.1) n .badStream = .ok out')
      (fails : TriplesFail p n out' bs c) : TriplesFail p n out (tripleBits o l e.2 ++ bs) c

/-- The next `n` entries of a container's table raise an error, their symbols to be `least` or more
(R132). -/
inductive EntriesFail : Nat → Nat → Bits → ErrCode → Prop where
  | symbol (n least : Nat) (bs : Bits) (short : bs.length < 8) : EntriesFail (n + 1) least bs .truncated
  | length (n least : Nat) (sym : Byte) (bs : Bits) (c : ErrCode) (fails : EoFails 1 1 bs c) :
      EntriesFail (n + 1) least (binFixed 8 sym.toNat ++ bs) c
  | badLength (n least : Nat) (sym : Byte) (len : Nat) (bs : Bits) (hl : len < 2 ^ 32) (bad : len = 0 ∨ 255 < len) :
      EntriesFail (n + 1) least (binFixed 8 sym.toNat ++ eo1 len ++ bs) .badTable
  /-- The symbols are not strictly ascending. -/
  | order (n least : Nat) (sym : Byte) (len : Nat) (bs : Bits) (pos : 1 ≤ len) (top : len ≤ 255)
      (bad : sym.toNat < least) : EntriesFail (n + 1) least (binFixed 8 sym.toNat ++ eo1 len ++ bs) .badTable
  | code (n least : Nat) (sym : Byte) (len : Nat) (bs : Bits) (pos : 1 ≤ len) (top : len ≤ 255)
      (ok : least ≤ sym.toNat) (short : bs.length < len) :
      EntriesFail (n + 1) least (binFixed 8 sym.toNat ++ eo1 len ++ bs) .truncated
  | next (n least : Nat) (e : Byte × Bits) (bs : Bits) (c : ErrCode) (pos : 1 ≤ e.2.length) (top : e.2.length ≤ 255)
      (ok : least ≤ e.1.toNat) (fails : EntriesFail n (e.1.toNat + 1) bs c) :
      EntriesFail (n + 1) least (entryBits e ++ bs) c

/-- A table as a container holds it: 1 to 256 entries, strictly ascending, lengths 1 to 255 (R128,
R132). -/
structure CodeMap.Listed (p : CodeMap) : Prop where
  count  : 1 ≤ p.length ∧ p.length ≤ 256
  sorted : p.Pairwise fun a b => a.1.toNat < b.1.toNat
  sizes  : ∀ e ∈ p, 1 ≤ e.2.length ∧ e.2.length ≤ 255

/-- A container from its table size on raises an error, its content length being `n` (R109, R132). -/
inductive TableFails (n : Nat) : Bits → ErrCode → Prop where
  | size (bs : Bits) (c : ErrCode) (fails : EoFails 1 1 bs c) : TableFails n bs c
  | badSize (d : Nat) (bs : Bits) (hd : d < 2 ^ 32) (bad : d = 0 ∨ 256 < d) : TableFails n (eo1 d ++ bs) .badTable
  | entries (d : Nat) (bs : Bits) (c : ErrCode) (pos : 1 ≤ d) (top : d ≤ 256) (fails : EntriesFail d 0 bs c) :
      TableFails n (eo1 d ++ bs) c
  | notOk (p : CodeMap) (bs : Bits) (listed : p.Listed) (bad : tableOk p = false) :
      TableFails n (eo1 p.length ++ p.flatMap entryBits ++ bs) .badTable
  | triples (p : CodeMap) (bs : Bits) (c : ErrCode) (listed : p.Listed) (ok : tableOk p = true)
      (fails : TriplesFail p n [] bs c) : TableFails n (eo1 p.length ++ p.flatMap entryBits ++ bs) c

/-- FRAME_PARSE of a stream raises an error: the first one met, field by field (R132). -/
inductive FrameFails (cfg : Config) : Bits → ErrCode → Prop where
  | nameLength (bs : Bits) (c : ErrCode) (fails : EoFails 1 1 bs c) : FrameFails cfg bs c
  | nameTooLong (nl : Nat) (bs : Bits) (hn : nl < 2 ^ 32) (above : cfg.nameCap < nl) : FrameFails cfg (eo1 nl ++ bs) .bufFull
  | name (nl : Nat) (bs : Bits) (hn : nl < 2 ^ 32) (fits : nl ≤ cfg.nameCap) (short : bs.length < 8 * nl) :
      FrameFails cfg (eo1 nl ++ bs) .truncated
  | contentLength (name : List Byte) (bs : Bits) (c : ErrCode) (hn : name.length < 2 ^ 32)
      (fits : name.length ≤ cfg.nameCap) (fails : EoFails 1 1 bs c) :
      FrameFails cfg (eo1 name.length ++ name.flatMap (fun b => binFixed 8 b.toNat) ++ bs) c
  | contentEmpty (name : List Byte) (bs : Bits) (hn : name.length < 2 ^ 32) (fits : name.length ≤ cfg.nameCap) :
      FrameFails cfg (eo1 name.length ++ name.flatMap (fun b => binFixed 8 b.toNat) ++ eo1 0 ++ bs) .badStream
  | contentTooLong (name : List Byte) (n : Nat) (bs : Bits) (hn : name.length < 2 ^ 32)
      (fits : name.length ≤ cfg.nameCap) (hc : n < 2 ^ 32) (above : cfg.contentCap < n) :
      FrameFails cfg (eo1 name.length ++ name.flatMap (fun b => binFixed 8 b.toNat) ++ eo1 n ++ bs) .bufFull
  | table (name : List Byte) (n : Nat) (bs : Bits) (c : ErrCode) (hn : name.length < 2 ^ 32)
      (fits : name.length ≤ cfg.nameCap) (pos : 1 ≤ n) (hc : n < 2 ^ 32) (room : n ≤ cfg.contentCap)
      (fails : TableFails n bs c) :
      FrameFails cfg (eo1 name.length ++ name.flatMap (fun b => binFixed 8 b.toNat) ++ eo1 n ++ bs) c

/-- The container of any table and triples, FRAME_C's own or another encoder's (R128): the triples replay
to the content. -/
structure IsContainer (cfg : Config) (f : Frame) (triples : List Triple) (bs : Bits) : Prop where
  name    : f.name.length ≤ cfg.nameCap
  content : 1 ≤ f.content.length ∧ f.content.length ≤ cfg.contentCap
  listed  : f.codes.Listed
  ok      : tableOk f.codes = true
  fields  : ∀ t ∈ triples, t.1 < 2 ^ 32 ∧ t.2.1 < 2 ^ 32 ∧ t.2.2 ∈ f.codes.map (·.1)
  replay  : triples.foldlM (fun out t => reconOne out t f.content.length .badStream) [] = .ok f.content
  bits    : bs = eo1 f.name.length ++ f.name.flatMap (fun b => binFixed 8 b.toNat) ++ eo1 f.content.length ++
    eo1 f.codes.length ++ f.codes.flatMap entryBits ++
    triples.flatMap (fun t => tripleBits t.1 t.2.1 (f.codes.code t.2.2))

end Sys2Proof.Machine
end

