-- ==== Sys2Proof/Certificates/Slice0/Obligations.lean ====
section
/-! DEFINITION. The statements for the provers, from the spec's numbered rules. Where a statement holds a
command's rule whole it says: the word, each check in its order with the error it raises (`commitErr`
changes STATUS and ERRCODE only, see CommandProtocol), and the Ok commit with everything it leaves
unchanged. -/

open Sys2Proof Sys2Proof.Machine

/-! ### Encoding -/

/-- Words written out from the spec's encoding (30_encoding.md R69, R71, R73; vectors V7). -/
def Obligations.SampleWordsDecode : Prop :=
  decode 0x00000000#32 = .ok .nop ∧ decode 0x10000000#32 = .ok .zarray ∧
  decode 0x21000000#32 = .ok .lzRecon ∧ decode 0x31000063#32 = .ok (.hufEnc 0x63#8) ∧
  decode 0x40000001#32 = .ok (.eoEnc 1#1) ∧ decode 0x41000000#32 = .ok (.eoDec 0#1) ∧
  decode 0x51000020#32 = .ok (.bvPut 32#6) ∧ decode 0x52000008#32 = .ok (.bvGet 8#6) ∧
  decode 0x60000000#32 = .ok .frameC ∧
  decode 0x12000000#32 = .error .unassignedOpcode ∧ decode 0x40000002#32 = .error .reservedBit ∧
  decode 0x51000000#32 = .error .nbitsOutOfRange ∧ decode 0x51000021#32 = .error .nbitsOutOfRange

/-- R69 to R72: decoding the word of a well-formed command gives the command back. -/
def Obligations.DecodeInvertsEncode : Prop :=
  ∀ i : Instr, i.wellFormed = true → decode (encode i) = .ok i

/-- R69 to R72: a word that decodes is the word of the command it decodes to, which is well formed. So
each command has one word. -/
def Obligations.EveryDecodedWordIsItsEncoding : Prop :=
  ∀ (w : Word) (i : Instr), decode w = .ok i → i.wellFormed = true ∧ encode i = w

/-- R71: a word decodes exactly when a row selects it, and no two rows select one word. -/
def Obligations.DecodeAcceptsExactlySelectedWords : Prop :=
  (∀ w : Word, (∃ i, decode w = .ok i) ↔ ∃ r ∈ opcodeMap, r.selects w = true) ∧
  (∀ (w : Word) (r r' : OpRow), r ∈ opcodeMap → r' ∈ opcodeMap → r.selects w = true → r'.selects w = true → r = r')

/-! ### The command protocol -/

/-- R19, R22, R149, R154: a step at the turn of each agent; around the agent's move it only uses up the
turn. The engine, BUSY and out of reset, commits the command that CMD decodes to; while it is IDLE or in
reset its turn executes nothing. The host moves at the line it is at, and past its program does nothing
(log 11). The pin falls or rises, and rising where it was high changes nothing (log 13). Whose turn it is,
is the model's schedule (log 4). -/
def Obligations.StepRunsDecodedCommand : Prop :=
  (∀ (s : State) (i : Instr), s.turn = .engine → s.busy = true → s.rstN = true →
    decode s.regs.cmd = .ok i → step s = exec i s.takeTurn) ∧
  (∀ s : State, s.turn = .engine → s.engine = .idle ∨ s.rstN = false → step s = .next s.takeTurn) ∧
  (∀ (s : State) (op : HostOp), s.turn = .host → s.host.prog[s.host.pc]? = some op →
    step s = .next (hostOp s.takeTurn op)) ∧
  (∀ s : State, s.turn = .host → s.host.prog.length ≤ s.host.pc → step s = .next s.takeTurn) ∧
  (∀ s : State, s.turn = .rstAssert → step s = .next s.takeTurn.assertReset) ∧
  (∀ s : State, s.turn = .rstRelease → step s = .next s.takeTurn.releaseReset) ∧
  (∀ s : State, s.rstN = true → s.releaseReset = s) ∧
  (∀ (s : State) (u : Turn) (us : List Turn), s.turns = u :: us →
    s.turn = u ∧ s.takeTurn = { s with turns := us }) ∧
  (∀ s : State, s.turns = [] → s.turn = (if s.busy then .engine else .host) ∧ s.takeTurn = s)

/-- R73: which words are illegal; an illegal word is accepted like any other, and commits
Err(ILLEGAL_CMD), changing nothing but STATUS and ERRCODE. -/
def Obligations.IllegalWordCommitsIllegalCmd : Prop :=
  (∀ (w : Word) (o : Nat), o = (opcOf w).toNat →
    ((∃ e, decode w = .error e) ↔
      ((0x01 ≤ o ∧ o ≤ 0x0F) ∨ (0x12 ≤ o ∧ o ≤ 0x1F) ∨ (0x24 ≤ o ∧ o ≤ 0x2F) ∨ (0x34 ≤ o ∧ o ≤ 0x3F) ∨
        (0x42 ≤ o ∧ o ≤ 0x4F) ∨ (0x53 ≤ o ∧ o ≤ 0x5F) ∨ (0x62 ≤ o ∧ o ≤ 0xFF)) ∨
      (∃ r ∈ opcodeMap, r.opc = opcOf w ∧
        (w.extractLsb' 0 24 &&& ~~~(r.format.fieldMask.extractLsb' 0 24) ≠ 0 ∨
          (r.format = .n ∧ ((nbitsOf w).toNat = 0 ∨ 32 < (nbitsOf w).toNat)))))) ∧
  (∀ (s : State) (w : Word), s.rstN = true → s.engine = .idle → (s.access ⟨0x010#24, 2#2, true, w⟩).1 = s.accept w) ∧
  (∀ (s : State) (e : Illegal), s.turn = .engine → s.busy = true → s.rstN = true →
    decode s.regs.cmd = .error e →
    ∃ t, step s = .next t ∧ t.regs.errCode = 0x01#8 ∧ t.regs.err = true ∧ t.regs.done = s.regs.done ∧
      t.engine = .idle ∧ SameCsrs [.status, .errcode] s t ∧ t.mems = s.mems ∧ t.trie = s.trie ∧
      t.regs.ovr = s.regs.ovr ∧ t.draws = s.draws ∧ t.host = s.host ∧ t.cfg = s.cfg ∧ t.rstN = s.rstN)

/-- R27: a CMD write while IDLE is accepted, whatever the word; while BUSY it only sets OVR; a read
returns the last accepted word; it resets to 0, which is NOP's word and is not executed; an illegal word
completes with ILLEGAL_CMD. -/
def Obligations.CmdWriteIssuesOrOverruns : Prop :=
  State.reset.regs.cmd = 0 ∧ State.reset.engine = .idle ∧ encode .nop = 0 ∧
  ∀ (s : State) (w : Word), s.rstN = true →
    (s.engine = .idle →
      (s.access ⟨0x010#24, 2#2, true, w⟩).1 = s.accept w ∧ (s.accept w).busy = true ∧ (s.accept w).regs.cmd = w ∧
      (s.accept w).access ⟨0x010#24, 2#2, false, 0⟩ = (s.accept w, w)) ∧
    (s.busy = true →
      (s.access ⟨0x010#24, 2#2, true, w⟩).1 = { s with regs := { s.regs with ovr := true } }) ∧
    s.access ⟨0x010#24, 2#2, false, 0⟩ = (s, s.regs.cmd) ∧
    (∀ e, decode w = .error e → engineStep (s.accept w) = .next ((s.accept w).commitErr .illegalCmd))

/-- R138: acceptance, the commit of Ok, the commit of Err, and that exactly one of DONE and ERR is 1
after every commit of a command that was accepted. -/
def Obligations.CommandProtocol : Prop :=
  (∀ (s : State) (w : Word),
    (s.accept w).regs.cmd = w ∧ (s.accept w).busy = true ∧ (s.accept w).regs.done = false ∧
    (s.accept w).regs.err = false ∧ (s.accept w).regs.errCode = 0 ∧ (s.accept w).regs.ovr = s.regs.ovr ∧
    SameCsrs [.cmd, .status, .errcode] s (s.accept w) ∧ (s.accept w).mems = s.mems ∧ (s.accept w).trie = s.trie) ∧
  (∀ s : State, OkCommit s s.commitOk ∧ SameCsrs [.status] s s.commitOk ∧ s.commitOk.mems = s.mems ∧
    s.commitOk.trie = s.trie ∧ s.commitOk.draws = s.draws) ∧
  (∀ (s : State) (c : ErrCode),
    (s.commitErr c).regs.errCode = c.code ∧ (s.commitErr c).regs.err = true ∧
    (s.commitErr c).regs.done = s.regs.done ∧ CommitFrame s (s.commitErr c) ∧
    SameCsrs [.status, .errcode] s (s.commitErr c) ∧ (s.commitErr c).mems = s.mems ∧
    (s.commitErr c).trie = s.trie ∧ (s.commitErr c).draws = s.draws) ∧
  (∀ (i : Instr) (s t : State), s.StatusOk → s.busy = true → exec i s = .next t →
    CommitFrame s t ∧
    ((t.regs.done = true ∧ t.regs.err = false ∧ t.regs.errCode = s.regs.errCode) ∨
     (t.regs.done = false ∧ t.regs.err = true ∧ ∃ c : ErrCode, t.regs.errCode = c.code)))

/-- R139: every command other than FRAME_C and FRAME_D is all-or-nothing. -/
def Obligations.NonFrameCommandsAreAllOrNothing : Prop :=
  ∀ (i : Instr) (s t : State), i ≠ .frameC → i ≠ .frameD → exec i s = .next t →
    OkCommit s t ∨
    ((∃ c, t = s.commitErr c) ∧ CommitFrame s t ∧ SameCsrs [.status, .errcode] s t ∧ t.mems = s.mems ∧
      t.trie = s.trie ∧ t.regs.bvRptr = s.regs.bvRptr ∧ t.regs.bvLen = s.regs.bvLen)

/-- R136: no command ever raises ASSERT, and every error that one commits is a code of R136. -/
def Obligations.AssertIsNeverRaised : Prop :=
  ∀ (i : Instr) (s t : State), exec i s = .next t →
    t.regs.errCode = s.regs.errCode ∨ ∃ c : ErrCode, c ≠ .assert ∧ t.regs.errCode = c.code

/-- R26 (with R22, R60): the bits that STATUS holds. A read changes nothing; while IDLE it returns them,
while BUSY the value in S0 with BUSY = 1. A write clears the W1C bits that it holds a 1 for and nothing
else, at once, also while BUSY; that such a write shows in a read only after the commit is how the model
reads R60 beside R26 (log 3). -/
def Obligations.StatusReadsAndClears : Prop :=
  ∀ (s : State) (v : Word), s.rstN = true →
    (∀ i : Nat, (s.csr .status).getLsbD i =
      (i == 0 && s.busy || i == 1 && s.regs.done || i == 2 && s.regs.err || i == 3 && s.regs.ovr)) ∧
    s.access ⟨0x00C#24, 2#2, false, 0⟩ = (s, s.readCsr .status) ∧
    (s.engine = .idle → s.readCsr .status = s.csr .status) ∧
    (∀ s0 (i : Nat), s.engine = .busy s0 → (s.readCsr .status).getLsbD i = (i == 0 || i == 3 && s0.ovr)) ∧
    (∃ t, s.access ⟨0x00C#24, 2#2, true, v⟩ = (t, 0) ∧
      t.csr .status = s.csr .status &&& ~~~(v &&& 0x0000000E#32) ∧
      SameCsrs [.status] s t ∧ t.engine = s.engine ∧ t.mems = s.mems ∧ t.trie = s.trie ∧ t.draws = s.draws ∧
      t.host = s.host ∧ t.turns = s.turns ∧ t.cfg = s.cfg ∧ t.rstN = s.rstN)

/-- R143: the interrupt output out of reset, and each thing that clears it: a W1C write of the bits of
DONE and ERR that are set (one of them, in every state a run reaches), clearing IRQ_EN, acceptance, and
either reset. -/
def Obligations.InterruptFollowsCompletion : Prop :=
  ∀ s : State, s.rstN = true →
    s.irq = (s.regs.irqEn && (s.regs.done || s.regs.err)) ∧
    (∀ w, (s.accept w).irq = false) ∧
    (∀ v : Word, (s.regs.done = true → v.getLsbD 1 = true) → (s.regs.err = true → v.getLsbD 2 = true) →
      (s.access ⟨0x00C#24, 2#2, true, v⟩).1.irq = false) ∧
    (∀ v : Word, v.getLsbD 0 = false → v.getLsbD 1 = false → (s.access ⟨0x008#24, 2#2, true, v⟩).1.irq = false) ∧
    (∀ v : Word, v.getLsbD 0 = false → v.getLsbD 1 = true →
      (s.access ⟨0x008#24, 2#2, true, v⟩).1.irq = (s.regs.done || s.regs.err)) ∧
    (∀ v : Word, v.getLsbD 0 = true → (s.access ⟨0x008#24, 2#2, true, v⟩).1.irq = false) ∧
    s.assertReset.irq = false

/-! ### The bus -/

/-- R59: a write while BUSY to any place but CTRL and STATUS changes nothing, but that one to CMD sets
OVR. -/
def Obligations.BusyWritesAreIgnored : Prop :=
  ∀ (s : State) (a : Access), s.rstN = true → s.busy = true → a.write = true →
    locate s.cfg a ≠ .csr 0x008 → locate s.cfg a ≠ .csr 0x00C →
    (locate s.cfg a ≠ .csr 0x010 → s.access a = (s, 0)) ∧
    (locate s.cfg a = .csr 0x010 → s.access a = ({ s with regs := { s.regs with ovr := true } }, 0))

/-- R22, R59, R60: S0 is the state that acceptance leaves (log 3). While BUSY a host read of a CSR returns
its value in S0, STATUS.BUSY reading 1, and no host access changes that, or anything else that the command
in flight reads, unless it performs a soft reset (so State holds no second copy of S0, log 2). A read of a
memory window is a fresh draw of the access's width and changes nothing else (log 5, log 7). -/
def Obligations.SnapshotIsFrozenWhileBusy : Prop :=
  (∀ (s : State) (w : Word) (r : Csr), (s.accept w).readCsr r = (s.accept w).csr r) ∧
  (∀ (s : State) (r : Csr) (v : Word), s.rstN = true →
    s.access ⟨BitVec.ofNat 24 r.offset, 2#2, false, v⟩ = (s, s.readCsr r)) ∧
  (∀ (s : State) (r : Csr), r ≠ .ctrl → r ≠ .status → s.readCsr r = s.csr r) ∧
  (∀ (s t : State) (a : Access) (v : Word), s.busy = true → s.access a = (t, v) →
    ¬ (a.write = true ∧ locate s.cfg a = .csr 0x008 ∧ a.wdata.getLsbD 0 = true) →
    t.engine = s.engine ∧ t.mems = s.mems ∧ t.trie = s.trie ∧ t.cfg = s.cfg ∧ (∀ r, t.readCsr r = s.readCsr r) ∧
    SameCsrs [.ctrl, .status] s t ∧ t.regs.done = (s.regs.done && t.regs.done) ∧ t.regs.err = (s.regs.err && t.regs.err)) ∧
  (∀ (s : State) (a : Access) (n : Nat), s.busy = true → s.rstN = true → a.write = false → a.bytes? = some n →
    locate s.cfg a ≠ .unmapped → (∀ o, locate s.cfg a ≠ .csr o) →
    s.access a = ({ s with draws := s.draws + 1 }, (Config.draw (8 * n) s.draws 0).setWidth 32))

/-- R54: which accesses are unmapped, in plain offsets; each reads 0 and changes nothing. -/
def Obligations.UnmappedAccessesDoNothing : Prop :=
  ∀ (s : State) (a : Access) (o n : Nat), o = a.addr.toNat →
    (n = if a.size = 0#2 then 1 else if a.size = 1#2 then 2 else 4) →
    (a.size = 3#2 ∨
     (0x000100 ≤ o ∧ o < 0x004000) ∨ (0x009000 ≤ o ∧ o < 0x100000) ∨ (0x300000 ≤ o ∧ o < 0x400000) ∨
     ((o < 0x000100 ∨ (0x004000 ≤ o ∧ o < 0x008000) ∨ (0x100000 ≤ o ∧ o < 0x300000)) ∧ (n ≠ 4 ∨ o % 4 ≠ 0)) ∨
     (0x100000 ≤ o ∧ o < 0x200000 ∧ 0x100000 + 4 * s.cfg.zcap ≤ o) ∨
     (0x200000 ≤ o ∧ o < 0x300000 ∧ 0x200000 + 4 * s.cfg.zcap ≤ o) ∨
     (0x008000 ≤ o ∧ o < 0x009000 ∧ (o % n ≠ 0 ∨ 0x008000 + s.cfg.nameCap < o + n)) ∨
     (0x400000 ≤ o ∧ o < 0x800000 ∧ (o % n ≠ 0 ∨ 0x400000 + s.cfg.contentCap < o + n)) ∨
     (0x800000 ≤ o ∧ (o % n ≠ 0 ∨ 0x800000 + s.cfg.bitbufCap / 8 < o + n))) →
    s.access a = (s, 0)

/-- R53: an aligned write of n bytes inside a byte window puts the byte of each lane at its offset, reads
back zero-extended, and changes no other byte and no CSR. -/
def Obligations.ByteLanesAreLittleEndian : Prop :=
  ∀ (s : State) (win : ByteWin) (sz : BitVec 2) (i n : Nat) (v : Word), s.rstN = true → s.engine = .idle →
    s.cfg.Legal → s.MemsOk → Access.bytes? ⟨0, sz, true, v⟩ = some n →
    i % n = 0 → i + n ≤ winCap s.cfg win →
    ∃ t, s.access ⟨BitVec.ofNat 24 (win.base + i), sz, true, v⟩ = (t, 0) ∧
      (∀ k, k < n → t.byteAt win (i + k) = v.extractLsb' (8 * k) 8) ∧
      t.access ⟨BitVec.ofNat 24 (win.base + i), sz, false, 0⟩ = (t, v &&& BitVec.ofNat 32 (2 ^ (8 * n) - 1)) ∧
      (∀ win' k, win' ≠ win ∨ k < i ∨ i + n ≤ k → t.byteAt win' k = s.byteAt win' k) ∧
      (∀ m k, m = .zin ∨ m = .zout ∨ m = .hufCtl ∨ m = .hufCode → t.mems.entry m k = s.mems.entry m k) ∧
      SameCsrs [] s t ∧ t.trie = s.trie

/-- R55: bit index i of the bit vector is bit 7 − (i mod 8) of BITBUF byte i div 8, as the model holds the
byte and as a host read of it returns it. -/
def Obligations.BitIndexIsPackedMsbFirst : Prop :=
  ∀ (s : State) (i : Nat), (s.byteAt .bitbuf (i / 8)).getLsbD (7 - i % 8) = s.bit i ∧
    (s.rstN = true → s.engine = .idle → s.cfg.Legal → i < s.cfg.bitbufCap →
      (s.access ⟨BitVec.ofNat 24 (0x800000 + i / 8), 0#2, false, 0⟩).2.getLsbD (7 - i % 8) = s.bit i)

/-- R40: a host write of a HUF_TABLE word clears DEC_VALID whatever it writes, stores CTL's VALID and LEN
or a CODE word, and changes no other word; reserved bits and words read 0. -/
def Obligations.TableWriteClearsDecValid : Prop :=
  ∀ (s : State) (k : Nat) (v : Word), s.rstN = true → s.engine = .idle → s.mems.hufCtl.wf → s.mems.hufCode.wf →
    k < 4096 →
    ∃ t, s.access ⟨BitVec.ofNat 24 (0x004000 + 4 * k), 2#2, true, v⟩ = (t, 0) ∧ t.trie = none ∧
      t.access ⟨BitVec.ofNat 24 (0x004000 + 4 * k), 2#2, false, 0⟩ =
        (t, if k % 16 = 0 then v &&& 0x800000FF#32 else if k % 16 ≤ 8 then v else 0) ∧
      (k % 16 = 0 → t.hufValid (k / 16) = v.getLsbD 31 ∧ t.hufLen (k / 16) = (v.extractLsb' 0 8).toNat) ∧
      (∀ j, 32 * (k % 16 - 1) ≤ j → j < 32 * (k % 16) → 1 ≤ k % 16 → k % 16 ≤ 8 →
        t.hufCodeBit (k / 16) j = v.getLsbD (31 - j % 32)) ∧
      (∀ k', k' ≠ k → k' < 4096 → t.readHuf k' = s.readHuf k') ∧
      SameEntries wholeTable s t ∧ SameCsrs [.hufState] s t

/-- R41: ZIN keeps bits [15:0] of a word; ZOUT is read-only to the host. -/
def Obligations.ZinKeepsLowHalfAndZoutIsReadOnly : Prop :=
  ∀ (s : State) (i : Nat) (v : Word), s.rstN = true → s.engine = .idle → s.cfg.Legal → s.mems.zin.wf →
    i < s.cfg.zcap →
    (∃ t, s.access ⟨BitVec.ofNat 24 (0x100000 + 4 * i), 2#2, true, v⟩ = (t, 0) ∧
      t.access ⟨BitVec.ofNat 24 (0x100000 + 4 * i), 2#2, false, 0⟩ = (t, v &&& 0x0000FFFF#32) ∧
      t.mems.zin.read i = v.extractLsb' 0 16 ∧
      SameEntries (entries .zin i 1) s t ∧ SameCsrs [] s t ∧ t.trie = s.trie) ∧
    s.access ⟨BitVec.ofNat 24 (0x200000 + 4 * i), 2#2, true, v⟩ = (s, 0) ∧
    s.access ⟨BitVec.ofNat 24 (0x200000 + 4 * i), 2#2, false, 0⟩ = (s, s.mems.zout.read i)

/-- R23, R25, R28 to R37: the register that each CSR shows, zero-extended where it is narrower (so reserved
bits read 0), HUF_STATE showing that there is a decode trie; and that a host read returns it, while BUSY
too (R60, what a CSR holds being then its value in S0, log 2), CTRL and STATUS apart. While IDLE, an operand
CSR stores any 32-bit value (TRI_SYMBOL its low byte) in that register, and nothing else of the machine
changes; a write to a read-only CSR and to the reserved offsets 0x070 to 0x0FF is ignored, and the reserved
offsets read 0. CTRL holds IRQ_EN in bit 1 and 0 elsewhere; a read of it returns that while IDLE,
and S0's IRQ_EN while BUSY (log 3); a write of it with SRST = 0 stores IRQ_EN and changes nothing else, IDLE
or BUSY. -/
def Obligations.OperandCsrsStoreAnyValue : Prop :=
  (∀ s : State,
    s.csr .windowSize = s.regs.windowSize ∧ s.csr .lookaheadSize = s.regs.lookaheadSize ∧
    s.csr .nlen = s.regs.nlen ∧ s.csr .clen = s.regs.clen ∧ s.csr .pos = s.regs.pos ∧
    s.csr .bvLen = s.regs.bvLen ∧ s.csr .bvRptr = s.regs.bvRptr ∧ s.csr .zlen = s.regs.zlen ∧
    s.csr .triOffset = s.regs.triOffset ∧ s.csr .triLength = s.regs.triLength ∧
    (s.csr .triSymbol).toNat = s.regs.triSymbol.toNat ∧ s.csr .arg = s.regs.arg ∧
    (s.csr .errcode).toNat = s.regs.errCode.toNat ∧ s.csr .result = s.regs.result ∧
    s.csr .resultBits = s.regs.resultBits ∧ (s.csr .hufD).toNat = s.regs.hufD.toNat ∧
    (∀ i : Nat, (s.csr .hufState).getLsbD i = (i == 0 && s.trie.isSome)) ∧
    (∀ r, s.engine = .idle → s.readCsr r = s.csr r) ∧
    (∀ r, r ≠ .ctrl → r ≠ .status → s.readCsr r = s.csr r) ∧
    (∀ (r : Csr) (v : Word), s.rstN = true →
      s.access ⟨BitVec.ofNat 24 r.offset, 2#2, false, v⟩ = (s, s.readCsr r))) ∧
  (∀ (s : State) (v : Word), s.rstN = true →
    (∀ i : Nat, (s.csr .ctrl).getLsbD i = (i == 1 && s.regs.irqEn)) ∧
    s.access ⟨0x008#24, 2#2, false, 0⟩ = (s, s.readCsr .ctrl) ∧
    (∀ s0 (i : Nat), s.engine = .busy s0 → (s.readCsr .ctrl).getLsbD i = (i == 1 && s0.irqEn)) ∧
    (v.getLsbD 0 = false →
      s.access ⟨0x008#24, 2#2, true, v⟩ = ({ s with regs := { s.regs with irqEn := v.getLsbD 1 } }, 0))) ∧
  ∀ (s : State) (v : Word), s.rstN = true → s.engine = .idle →
    (∀ p ∈ ([(.windowSize, { s.regs with windowSize := v }), (.lookaheadSize, { s.regs with lookaheadSize := v }),
        (.nlen, { s.regs with nlen := v }), (.clen, { s.regs with clen := v }), (.pos, { s.regs with pos := v }),
        (.bvLen, { s.regs with bvLen := v }), (.bvRptr, { s.regs with bvRptr := v }),
        (.zlen, { s.regs with zlen := v }), (.triOffset, { s.regs with triOffset := v }),
        (.triLength, { s.regs with triLength := v }),
        (.triSymbol, { s.regs with triSymbol := v.extractLsb' 0 8 }), (.arg, { s.regs with arg := v })] :
          List (Csr × Regs)),
      s.access ⟨BitVec.ofNat 24 p.1.offset, 2#2, true, v⟩ = ({ s with regs := p.2 }, 0)) ∧
    (∀ r ∈ [Csr.windowSize, .lookaheadSize, .nlen, .clen, .pos, .bvLen, .bvRptr, .zlen, .triOffset, .triLength,
        .triSymbol, .arg],
      ∃ t, s.access ⟨BitVec.ofNat 24 r.offset, 2#2, true, v⟩ = (t, 0) ∧
        t.access ⟨BitVec.ofNat 24 r.offset, 2#2, false, 0⟩ = (t, if r = .triSymbol then v &&& 0x000000FF#32 else v) ∧
        SameCsrs [r] s t ∧ t.mems = s.mems ∧ t.trie = s.trie ∧ t.engine = .idle) ∧
    (∀ r ∈ [Csr.id, .version, .errcode, .result, .resultBits, .hufD, .hufState, .capContent, .capName, .capBitbuf,
        .capZ, .capWmax, .capLmax],
      s.access ⟨BitVec.ofNat 24 r.offset, 2#2, true, v⟩ = (s, 0)) ∧
    (∀ (o : Nat) (b : Bool), 0x070 ≤ o → o < 0x100 → s.access ⟨BitVec.ofNat 24 o, 2#2, b, v⟩ = (s, 0))

/-! ### Reset -/

/-- R150: every CSR's value after a hardware reset of the reference configuration, the engine IDLE, irq 0
and no decode trie. -/
def Obligations.ResetValues : Prop :=
  (∀ r : Csr, State.reset.readCsr r =
    match r with
    | .id => 0x4C5A3737#32
    | .version => 0x00000001#32
    | .windowSize => 1000#32
    | .lookaheadSize => 300#32
    | .capContent => 1048576#32
    | .capName => 255#32
    | .capBitbuf => 33554432#32
    | .capZ => 6145#32
    | .capWmax => 4096#32
    | .capLmax => 1024#32
    | _ => 0) ∧
  State.reset.engine = .idle ∧ State.reset.irq = false ∧ State.reset.trie = none

/-- R149, R151: while rst_n is low, reads return 0, writes do nothing, irq is 0 and the engine does not
move; when it rises, the engine is IDLE, every CSR has its reset value, every CTL word is 0, DEC_VALID is
0 and every other memory is UNSPECIFIED by a draw not made before (draws are the model's form of
UNSPECIFIED, log 5). That the engine is IDLE, its command dropped, as soon as rst_n falls is the model's
choice of the moment (log 13, DEDUCED): R149 has it so on the first clock edge with rst_n = 1, where R149's
other reset values are applied here too. -/
def Obligations.HardwareResetRestoresTheResetState : Prop :=
  (∀ (s : State) (a : Access),
    s.assertReset.access a = (s.assertReset, 0) ∧ s.assertReset.irq = false ∧
    engineStep s.assertReset = .next s.assertReset ∧ s.assertReset.engine = .idle ∧
    s.assertReset.rstN = false ∧ s.assertReset.host = s.host ∧ s.assertReset.cfg = s.cfg) ∧
  (∀ s : State, s.rstN = false →
    s.releaseReset.engine = .idle ∧ s.releaseReset.rstN = true ∧
    (∀ r, s.releaseReset.readCsr r = (State.powerOn s.cfg).readCsr r) ∧
    (∀ k, s.releaseReset.mems.entry .hufCtl k = 0) ∧ s.releaseReset.trie = none ∧
    (∀ m, m ≠ .hufCtl → ∃ e, s.draws ≤ e ∧ e < s.releaseReset.draws ∧
      s.releaseReset.mems.redraw e m = s.releaseReset.mems) ∧
    s.releaseReset.host = s.host ∧ s.releaseReset.cfg = s.cfg)

/-- R152: a write of CTRL with SRST = 1, IDLE or BUSY, whatever its other bits: the engine is IDLE, every
CSR has its reset value, every CTL word is 0 and DEC_VALID is 0. A memory that the aborted command may
write is UNSPECIFIED by a draw not made before; every other memory but CTL keeps its contents. Which memories those
are, command by command, R152's lists for the frame commands among them; that an illegal word in flight
may write none is the model's reading (log 14). -/
def Obligations.SoftResetAbortsAndRestores : Prop :=
  (∀ (i : Instr) (m : MemName), m ≠ .hufCtl → (m ∈ writtenMems i ↔
    match i with
    | .zarray => m = .zout
    | .lzRecon => m = .content
    | .triPut | .hufEnc _ | .eoEnc _ | .bvPut _ => m = .bitbuf
    | .hufBuild => m = .hufCode
    | .frameC => m = .bitbuf ∨ m = .hufCode
    | .frameD => m = .name ∨ m = .content ∨ m = .hufCode
    | .nop | .lzMatch | .lzStep | .triGet | .hufTrie | .hufDec | .eoDec _ | .bvClear | .bvGet _ => False)) ∧
  ∀ (s : State) (v : Word), s.rstN = true → v.getLsbD 0 = true →
    ∃ t, s.access ⟨0x008#24, 2#2, true, v⟩ = (t, 0) ∧ t.engine = .idle ∧
      (∀ r, t.readCsr r = (State.powerOn s.cfg).readCsr r) ∧
      (∀ k, t.mems.entry .hufCtl k = 0) ∧ t.trie = none ∧
      (∀ m, m ≠ .hufCtl → m ∉ s.inFlightMems → ∀ k, t.mems.entry m k = s.mems.entry m k) ∧
      (∀ m, m ≠ .hufCtl → m ∈ s.inFlightMems →
        ∃ e, s.draws ≤ e ∧ e < t.draws ∧ t.mems.redraw e m = t.mems) ∧
      (s.engine = .idle → s.inFlightMems = []) ∧
      (∀ i, s.busy = true → decode s.regs.cmd = .ok i → s.inFlightMems = writtenMems i) ∧
      (∀ e, decode s.regs.cmd = .error e → s.inFlightMems = []) ∧
      t.host = s.host ∧ t.cfg = s.cfg ∧ t.rstN = s.rstN ∧ t.turns = s.turns

/-! ### The host program -/

/-- R50, R74, R76: what each line of a host program does, one bus access a step (log 11). An access at the
platform address BASE + o, o in the block's 24-bit space, is the access at the offset o, whatever BASE is;
one at any other address does not reach the block (R50; what it reads is log 20). `wrb` and `wrw` make
one write for each byte or word, at window_base + i + k and window_base + 4·(i + k), inside the block's
24-bit space (beyond it, log 12). Reads of CTRL and STATUS while BUSY return S0 (log 3). -/
def Obligations.HostLinesDoTheirAccesses : Prop :=
  ∀ s : State, s.rstN = true →
    (∀ i, hostOp s (.issue i) = (s.hostWr .cmd (encode i)).nextLine) ∧
    (∀ r v, s.hostWr r v = (s.access ⟨BitVec.ofNat 24 r.offset, 2#2, true, v⟩).1) ∧
    (∀ r, (s.hostRd r).host.operand = s.readCsr r ∧ (s.hostRd r).mems = s.mems ∧ (s.hostRd r).regs = s.regs ∧
      (s.hostRd r).host.errSeen = if r = .errcode then s.host.errSeen ++ [s.readCsr .errcode] else s.host.errSeen) ∧
    (∀ r v, hostOp s (.wr r v) = (s.hostWr r v).nextLine) ∧
    (∀ r, hostOp s (.rd r) = (s.hostRd r).nextLine) ∧
    (∀ a, a.write = true → hostOp s (.access a) = (s.access a).1.nextLine) ∧
    (∀ a, a.write = false → (hostOp s (.access a)).host.operand = (s.access a).2 ∧
      (hostOp s (.access a)).mems = s.mems ∧ (hostOp s (.access a)).regs = s.regs ∧
      (hostOp s (.access a)).host.pc = s.host.pc + 1) ∧
    (∀ (p : PlatformAccess) (o : Nat), o < 2 ^ 24 → p.addr = s.cfg.base + o →
      hostOp s (.platform p) = hostOp s (.access ⟨BitVec.ofNat 24 o, p.size, p.write, p.wdata⟩)) ∧
    (∀ p : PlatformAccess, p.addr < s.cfg.base ∨ s.cfg.base + 2 ^ 24 ≤ p.addr →
      ∃ t, hostOp s (.platform p) = t ∧ t.cfg = s.cfg ∧ t.rstN = s.rstN ∧ t.engine = s.engine ∧ t.regs = s.regs ∧
        t.mems = s.mems ∧ t.trie = s.trie ∧ t.turns = s.turns ∧ t.host.pc = s.host.pc + 1 ∧
        t.host.errSeen = s.host.errSeen) ∧
    (∀ (w : ByteWin) (i : Nat) (bs : List Byte), s.host.sub = 0 → bs ≠ [] → w.base + i + bs.length ≤ 2 ^ 24 →
      (fun u => hostOp u (.wrb w i bs))^[bs.length] s =
        (bs.zipIdx.foldl
          (fun u b => (u.access ⟨BitVec.ofNat 24 (w.base + i + b.2), 0#2, true, b.1.setWidth 32⟩).1) s).nextLine) ∧
    (∀ (w : WordWin) (i : Nat) (ws : List Word), s.host.sub = 0 → ws ≠ [] → w.base + 4 * (i + ws.length) ≤ 2 ^ 24 →
      (fun u => hostOp u (.wrw w i ws))^[ws.length] s =
        (ws.zipIdx.foldl
          (fun u v => (u.access ⟨BitVec.ofNat 24 (w.base + 4 * (i + v.2)), 2#2, true, v.1⟩).1) s).nextLine) ∧
    (∀ n, (hostOp s (.berr n)).host.pc = if (s.readCsr .status).getLsbD 2 then n else s.host.pc + 1) ∧
    ((hostOp s .wait).host.pc = if s.busy then s.host.pc else s.host.pc + 1) ∧
    (∀ r1 r2 n, s.host.sub = 0 →
      (hostOp (hostOp s (.blt r1 r2 n)) (.blt r1 r2 n)).host.pc =
        if (s.readCsr r1).toNat < (s.readCsr r2).toNat then n else s.host.pc + 1) ∧
    hostOp s .halt = s

/-! ### The commands -/

/-- R77: NOP commits Ok and changes no CSR but STATUS and no memory; from its acceptance it commits with
DONE = 1, ERR = 0 and ERRCODE = 0. CMD resets to NOP's word, and reset does not execute it. -/
def Obligations.NopOnlyCommits : Prop :=
  ∀ s : State, (∀ w, decode w = .ok .nop ↔ w = 0x00000000#32) ∧
    (∃ t, exec .nop s = .next t ∧ OkCommit s t ∧ SameCsrs [.status] s t ∧ SameEntries noEntry s t ∧
      t.trie = s.trie ∧ t.draws = s.draws) ∧
    (∃ t, exec .nop (s.accept 0x00000000#32) = .next t ∧ t.regs.done = true ∧ t.regs.err = false ∧
      t.regs.errCode = 0 ∧ t.engine = .idle) ∧
    State.reset.regs.cmd = 0x00000000#32 ∧ State.reset.engine = .idle

/-- R82, with the contract of R78: ZARRAY writes each z[i], i ≥ 1, to ZOUT[i]; nothing is said of ZOUT[0],
which is a free draw. -/
def Obligations.ZarrayWritesPrefixLengths : Prop :=
  ∀ s : State, (∀ w, decode w = .ok .zarray ↔ w = 0x10000000#32) ∧
    (s.cfg.zcap < s.regs.zlen.toNat → exec .zarray s = .next (s.commitErr .param)) ∧
    (s.regs.zlen.toNat ≤ s.cfg.zcap → s.cfg.Legal → s.mems.zout.wf →
      ∃ t, exec .zarray s = .next t ∧ OkCommit s t ∧ SameCsrs [.status] s t ∧
        (∀ i z, 1 ≤ i → i < s.regs.zlen.toNat → z = (t.mems.zout.read i).toNat →
          i + z ≤ s.regs.zlen.toNat ∧ (∀ k, k < z → s.mems.zin.read k = s.mems.zin.read (i + k)) ∧
          (i + z = s.regs.zlen.toNat ∨ s.mems.zin.read z ≠ s.mems.zin.read (i + z))) ∧
        SameEntries (entries .zout 0 s.regs.zlen.toNat) s t ∧ t.trie = s.trie ∧
        (s.regs.zlen.toNat = 0 → t.draws = s.draws))

/-- R92 (with R83, R88, R89, R91): LZ_MATCH writes the match at POS to the TRI registers. -/
def Obligations.LzMatchFindsTheMatch : Prop :=
  ∀ s : State, (∀ w, decode w = .ok .lzMatch ↔ w = 0x11000000#32) ∧
    ((s.regs.lookaheadSize.toNat = 0 ∨ s.cfg.lmax < s.regs.lookaheadSize.toNat ∨
      s.cfg.wmax < s.regs.windowSize.toNat ∨ s.cfg.contentCap < s.regs.clen.toNat ∨
      s.regs.clen.toNat ≤ s.regs.pos.toNat) → exec .lzMatch s = .next (s.commitErr .param)) ∧
    (1 ≤ s.regs.lookaheadSize.toNat → s.regs.lookaheadSize.toNat ≤ s.cfg.lmax →
      s.regs.windowSize.toNat ≤ s.cfg.wmax → s.regs.clen.toNat ≤ s.cfg.contentCap →
      s.regs.pos.toNat < s.regs.clen.toNat →
      ∃ t, exec .lzMatch s = .next t ∧ OkCommit s t ∧
        IsMatch s.contentList s.regs.pos.toNat s.regs.windowSize.toNat s.regs.lookaheadSize.toNat
          t.regs.triOffset.toNat t.regs.triLength.toNat t.regs.triSymbol ∧
        SameCsrs [.status, .triOffset, .triLength, .triSymbol] s t ∧ SameEntries noEntry s t ∧
        t.trie = s.trie ∧ t.draws = s.draws)

/-- R98: LZ_STEP does as LZ_MATCH and advances POS by the length plus 1, never past CLEN. -/
def Obligations.LzStepMatchesAndAdvances : Prop :=
  ∀ s : State, (∀ w, decode w = .ok .lzStep ↔ w = 0x20000000#32) ∧
    ((s.regs.lookaheadSize.toNat = 0 ∨ s.cfg.lmax < s.regs.lookaheadSize.toNat ∨
      s.cfg.wmax < s.regs.windowSize.toNat ∨ s.cfg.contentCap < s.regs.clen.toNat ∨
      s.regs.clen.toNat ≤ s.regs.pos.toNat) → exec .lzStep s = .next (s.commitErr .param)) ∧
    (1 ≤ s.regs.lookaheadSize.toNat → s.regs.lookaheadSize.toNat ≤ s.cfg.lmax →
      s.regs.windowSize.toNat ≤ s.cfg.wmax → s.regs.clen.toNat ≤ s.cfg.contentCap →
      s.regs.pos.toNat < s.regs.clen.toNat →
      ∃ t, exec .lzStep s = .next t ∧ OkCommit s t ∧
        IsMatch s.contentList s.regs.pos.toNat s.regs.windowSize.toNat s.regs.lookaheadSize.toNat
          t.regs.triOffset.toNat t.regs.triLength.toNat t.regs.triSymbol ∧
        t.regs.pos.toNat = s.regs.pos.toNat + t.regs.triLength.toNat + 1 ∧ t.regs.pos.toNat ≤ s.regs.clen.toNat ∧
        SameCsrs [.status, .triOffset, .triLength, .triSymbol, .pos] s t ∧ SameEntries noEntry s t ∧
        t.trie = s.trie ∧ t.draws = s.draws)

/-- R99 (with R95): LZ_RECON appends the tiled source and the next symbol to CONTENT. -/
def Obligations.LzReconReplaysTheTriple : Prop :=
  ∀ (s : State) (o l m : Nat), o = s.regs.triOffset.toNat → l = s.regs.triLength.toNat → m = s.regs.clen.toNat →
    (∀ w, decode w = .ok .lzRecon ↔ w = 0x21000000#32) ∧
    (s.cfg.contentCap < m → exec .lzRecon s = .next (s.commitErr .param)) ∧
    (m ≤ s.cfg.contentCap → (o = 0 ∧ 0 < l) ∨ m < o → exec .lzRecon s = .next (s.commitErr .badStream)) ∧
    (m ≤ s.cfg.contentCap → ¬ (o = 0 ∧ 0 < l) → o ≤ m → s.cfg.contentCap < m + l + 1 →
      exec .lzRecon s = .next (s.commitErr .bufFull)) ∧
    (¬ (o = 0 ∧ 0 < l) → o ≤ m → m + l + 1 ≤ s.cfg.contentCap → s.cfg.Legal → s.mems.content.wf →
      ∃ t, exec .lzRecon s = .next t ∧ OkCommit s t ∧
        (∀ i, i < l → t.mems.content.read (m + i) = s.mems.content.read (m - o + i % o)) ∧
        t.mems.content.read (m + l) = s.regs.triSymbol ∧ t.regs.clen.toNat = m + l + 1 ∧
        SameCsrs [.status, .clen] s t ∧ SameEntries (entries .content m (l + 1)) s t ∧
        t.trie = s.trie ∧ t.draws = s.draws)

/-- R100 (with R96): TRI_PUT appends EO1(offset), EO1(length) and the code of the symbol. -/
def Obligations.TriPutAppendsTheTriple : Prop :=
  ∀ (s : State) (c : Nat) (bits : Bits), c = s.regs.triSymbol.toNat →
    bits = eo1 s.regs.triOffset.toNat ++ eo1 s.regs.triLength.toNat ++ s.hufBits c →
    (∀ w, decode w = .ok .triPut ↔ w = 0x22000000#32) ∧
    (s.cfg.bitbufCap < s.regs.bvLen.toNat → exec .triPut s = .next (s.commitErr .param)) ∧
    (s.regs.bvLen.toNat ≤ s.cfg.bitbufCap → s.hufValid c = false → exec .triPut s = .next (s.commitErr .noCode)) ∧
    (s.regs.bvLen.toNat ≤ s.cfg.bitbufCap → s.hufValid c = true → s.hufLen c = 0 →
      exec .triPut s = .next (s.commitErr .badTable)) ∧
    (s.regs.bvLen.toNat ≤ s.cfg.bitbufCap → s.hufValid c = true → s.hufLen c ≠ 0 →
      s.cfg.bitbufCap < s.regs.bvLen.toNat + bits.length → exec .triPut s = .next (s.commitErr .bufFull)) ∧
    (s.hufValid c = true → s.hufLen c ≠ 0 → s.regs.bvLen.toNat + bits.length ≤ s.cfg.bitbufCap → s.cfg.Legal →
      s.mems.bitbuf.wf →
      ∃ t, exec .triPut s = .next t ∧ OkCommit s t ∧
        (∀ k (h : k < bits.length), t.bit (s.regs.bvLen.toNat + k) = bits[k]) ∧
        t.regs.bvLen.toNat = s.regs.bvLen.toNat + bits.length ∧ t.regs.resultBits.toNat = bits.length ∧
        SameCsrs [.status, .bvLen, .resultBits] s t ∧
        SameEntries (entries .bitbuf s.regs.bvLen.toNat bits.length) s t ∧ t.trie = s.trie ∧ t.draws = s.draws)

/-- R101 (with R97): TRI_GET reads back a triple whose container form lies at BV_RPTR, and raises the
first error of its stream otherwise: which one, for a table for which TABLE_OK holds, TripleFails says. The
premise TrieOk is the invariant DecodeTrieMatchesTable. -/
def Obligations.TriGetReadsTheTriple : Prop :=
  ∀ s : State, (∀ w, decode w = .ok .triGet ↔ w = 0x23000000#32) ∧
    (s.cfg.bitbufCap < s.regs.bvLen.toNat → exec .triGet s = .next (s.commitErr .param)) ∧
    (s.regs.bvLen.toNat ≤ s.cfg.bitbufCap → s.trie = none → exec .triGet s = .next (s.commitErr .noCode)) ∧
    (∀ root c, s.regs.bvLen.toNat ≤ s.cfg.bitbufCap → s.trie = some root →
      tripleRead root (s.bitsFrom s.regs.bvRptr.toNat) = .error c → exec .triGet s = .next (s.commitErr c)) ∧
    (∀ (p : CodeMap) (bs : Bits) (c : ErrCode), tableOk p = true →
      (tripleRead (trieBuild p) bs = .error c ↔ TripleFails p bs c)) ∧
    (∀ (o l : Nat) (c : Byte) (bits rest : Bits), s.regs.bvLen.toNat ≤ s.cfg.bitbufCap → s.trie.isSome = true →
      s.TrieOk → o < 2 ^ 32 → l < 2 ^ 32 → s.hufValid c.toNat = true →
      bits = eo1 o ++ eo1 l ++ s.hufBits c.toNat → s.bitsFrom s.regs.bvRptr.toNat = bits ++ rest →
      ∃ t, exec .triGet s = .next t ∧ OkCommit s t ∧
        t.regs.triOffset.toNat = o ∧ t.regs.triLength.toNat = l ∧ t.regs.triSymbol = c ∧
        t.regs.bvRptr.toNat = s.regs.bvRptr.toNat + bits.length ∧ t.regs.resultBits.toNat = bits.length ∧
        SameCsrs [.status, .triOffset, .triLength, .triSymbol, .bvRptr, .resultBits] s t ∧
        SameEntries noEntry s t ∧ t.trie = s.trie ∧ t.draws = s.draws)

/-- R112 (with R102, R108): HUF_BUILD fills HUF_TABLE with the code of CONTENT. -/
def Obligations.HufBuildFillsTheTable : Prop :=
  ∀ s : State, (∀ w, decode w = .ok .hufBuild ↔ w = 0x30000000#32) ∧
    (s.cfg.contentCap < s.regs.clen.toNat → exec .hufBuild s = .next (s.commitErr .param)) ∧
    (s.regs.clen.toNat ≤ s.cfg.contentCap → s.regs.clen.toNat = 0 →
      exec .hufBuild s = .next (s.commitErr .emptyInput)) ∧
    (s.regs.clen.toNat ≤ s.cfg.contentCap → s.regs.clen.toNat ≠ 0 →
      ∃ t, exec .hufBuild s = .next t ∧ OkCommit s t ∧
        (∀ sym : Byte, t.hufValid sym.toNat = decide (sym ∈ s.contentList)) ∧
        (∀ e ∈ hufCodes s.contentList, t.hufBits e.1.toNat = e.2) ∧
        (∀ (sym : Byte) (j : Nat), t.hufLen sym.toNat ≤ j → j < 256 → t.hufCodeBit sym.toNat j = false) ∧
        (∀ sym : Byte, sym ∉ s.contentList → t.hufLen sym.toNat = 0) ∧
        t.regs.hufD.toNat = (alphabet s.contentList).length ∧ t.trie = none ∧
        SameCsrs [.status, .hufD, .hufState] s t ∧ SameEntries wholeTable s t ∧ t.draws = s.draws)

/-- R113: HUF_ENC appends the code of SYM. -/
def Obligations.HufEncAppendsTheCode : Prop :=
  ∀ (s : State) (sym : Byte), (∀ w, decode w = .ok (.hufEnc sym) ↔ w = 0x31000000#32 ||| sym.setWidth 32) ∧
    (s.cfg.bitbufCap < s.regs.bvLen.toNat → exec (.hufEnc sym) s = .next (s.commitErr .param)) ∧
    (s.regs.bvLen.toNat ≤ s.cfg.bitbufCap → s.hufValid sym.toNat = false →
      exec (.hufEnc sym) s = .next (s.commitErr .noCode)) ∧
    (s.regs.bvLen.toNat ≤ s.cfg.bitbufCap → s.hufValid sym.toNat = true → s.hufLen sym.toNat = 0 →
      exec (.hufEnc sym) s = .next (s.commitErr .badTable)) ∧
    (s.regs.bvLen.toNat ≤ s.cfg.bitbufCap → s.hufValid sym.toNat = true → s.hufLen sym.toNat ≠ 0 →
      s.cfg.bitbufCap < s.regs.bvLen.toNat + s.hufLen sym.toNat → exec (.hufEnc sym) s = .next (s.commitErr .bufFull)) ∧
    (s.hufValid sym.toNat = true → s.hufLen sym.toNat ≠ 0 →
      s.regs.bvLen.toNat + s.hufLen sym.toNat ≤ s.cfg.bitbufCap → s.cfg.Legal → s.mems.bitbuf.wf →
      ∃ t, exec (.hufEnc sym) s = .next t ∧ OkCommit s t ∧
        (∀ k, k < s.hufLen sym.toNat → t.bit (s.regs.bvLen.toNat + k) = s.hufCodeBit sym.toNat k) ∧
        t.regs.bvLen.toNat = s.regs.bvLen.toNat + s.hufLen sym.toNat ∧
        t.regs.resultBits.toNat = s.hufLen sym.toNat ∧
        SameCsrs [.status, .bvLen, .resultBits] s t ∧
        SameEntries (entries .bitbuf s.regs.bvLen.toNat (s.hufLen sym.toNat)) s t ∧
        t.trie = s.trie ∧ t.draws = s.draws)

/-- R114: HUF_TRIE builds the decode trie from a table for which TABLE_OK holds, else BAD_TABLE. -/
def Obligations.HufTrieBuildsFromTheTable : Prop :=
  ∀ s : State, (∀ w, decode w = .ok .hufTrie ↔ w = 0x32000000#32) ∧
    (tableOk s.tablePairs = false → exec .hufTrie s = .next (s.commitErr .badTable)) ∧
    (tableOk s.tablePairs = true →
      ∃ t, exec .hufTrie s = .next t ∧ OkCommit s t ∧ t.trie = some (trieBuild s.tablePairs) ∧
        t.regs.hufD.toNat = s.tablePairs.length ∧
        SameCsrs [.status, .hufD, .hufState] s t ∧ SameEntries noEntry s t ∧ t.draws = s.draws)

/-- R115 (with R111): HUF_DEC reads back the symbol whose code lies at BV_RPTR, and raises HUF_READ's
error otherwise: TRUNCATED where the bits end inside a code, HUF_DECODE where they leave every code, for a
table for which TABLE_OK holds (HufFails). The premise TrieOk is the invariant DecodeTrieMatchesTable. -/
def Obligations.HufDecReadsTheSymbol : Prop :=
  ∀ s : State, (∀ w, decode w = .ok .hufDec ↔ w = 0x33000000#32) ∧
    (s.cfg.bitbufCap < s.regs.bvLen.toNat → exec .hufDec s = .next (s.commitErr .param)) ∧
    (s.regs.bvLen.toNat ≤ s.cfg.bitbufCap → s.trie = none → exec .hufDec s = .next (s.commitErr .noCode)) ∧
    (∀ root c, s.regs.bvLen.toNat ≤ s.cfg.bitbufCap → s.trie = some root →
      root.read (s.bitsFrom s.regs.bvRptr.toNat) = .error c → exec .hufDec s = .next (s.commitErr c)) ∧
    (∀ (p : CodeMap) (bs : Bits) (c : ErrCode), tableOk p = true →
      ((trieBuild p).read bs = .error c ↔ HufFails p bs c)) ∧
    (∀ (sym : Byte) (rest : Bits), s.regs.bvLen.toNat ≤ s.cfg.bitbufCap → s.trie.isSome = true → s.TrieOk →
      s.hufValid sym.toNat = true → s.bitsFrom s.regs.bvRptr.toNat = s.hufBits sym.toNat ++ rest →
      ∃ t, exec .hufDec s = .next t ∧ OkCommit s t ∧ t.regs.result = sym.setWidth 32 ∧
        t.regs.resultBits.toNat = s.hufLen sym.toNat ∧
        t.regs.bvRptr.toNat = s.regs.bvRptr.toNat + s.hufLen sym.toNat ∧
        SameCsrs [.status, .result, .resultBits, .bvRptr] s t ∧ SameEntries noEntry s t ∧
        t.trie = s.trie ∧ t.draws = s.draws)

/-- R119: EO_ENC appends OMEGA(ARG + GEN). -/
def Obligations.EoEncAppendsOmega : Prop :=
  ∀ (s : State) (g : BitVec 1) (n : Nat), n = s.regs.arg.toNat + g.toNat →
    (∀ w, decode w = .ok (.eoEnc g) ↔ w = 0x40000000#32 ||| g.setWidth 32) ∧
    (s.cfg.bitbufCap < s.regs.bvLen.toNat → exec (.eoEnc g) s = .next (s.commitErr .param)) ∧
    (s.regs.bvLen.toNat ≤ s.cfg.bitbufCap → n = 0 → exec (.eoEnc g) s = .next (s.commitErr .range)) ∧
    (s.regs.bvLen.toNat ≤ s.cfg.bitbufCap → n ≠ 0 → s.cfg.bitbufCap < s.regs.bvLen.toNat + (omega n).length →
      exec (.eoEnc g) s = .next (s.commitErr .bufFull)) ∧
    (n ≠ 0 → s.regs.bvLen.toNat + (omega n).length ≤ s.cfg.bitbufCap → s.cfg.Legal → s.mems.bitbuf.wf →
      ∃ t, exec (.eoEnc g) s = .next t ∧ OkCommit s t ∧
        (∀ k (h : k < (omega n).length), t.bit (s.regs.bvLen.toNat + k) = (omega n)[k]) ∧
        t.regs.bvLen.toNat = s.regs.bvLen.toNat + (omega n).length ∧ t.regs.resultBits.toNat = (omega n).length ∧
        SameCsrs [.status, .bvLen, .resultBits] s t ∧
        SameEntries (entries .bitbuf s.regs.bvLen.toNat (omega n).length) s t ∧
        t.trie = s.trie ∧ t.draws = s.draws)

/-- R120 (with R118): EO_DEC reads back the value whose code lies at BV_RPTR, and raises EO_READ's error
otherwise: TRUNCATED where a component runs past the end, OVERFLOW where the next length is above 33 or the
value above 2^32 − 1 (EoFails). -/
def Obligations.EoDecReadsTheValue : Prop :=
  ∀ (s : State) (g : BitVec 1), (∀ w, decode w = .ok (.eoDec g) ↔ w = 0x41000000#32 ||| g.setWidth 32) ∧
    (s.cfg.bitbufCap < s.regs.bvLen.toNat → exec (.eoDec g) s = .next (s.commitErr .param)) ∧
    (∀ c, s.regs.bvLen.toNat ≤ s.cfg.bitbufCap →
      eoRead g.toNat (s.bitsFrom s.regs.bvRptr.toNat) = .error c → exec (.eoDec g) s = .next (s.commitErr c)) ∧
    (∀ (bs : Bits) (c : ErrCode), eoRead g.toNat bs = .error c ↔ EoFails g.toNat 1 bs c) ∧
    (∀ (v : Nat) (rest : Bits), s.regs.bvLen.toNat ≤ s.cfg.bitbufCap → v < 2 ^ 32 → 1 ≤ v + g.toNat →
      s.bitsFrom s.regs.bvRptr.toNat = omega (v + g.toNat) ++ rest →
      ∃ t, exec (.eoDec g) s = .next t ∧ OkCommit s t ∧ t.regs.result.toNat = v ∧
        t.regs.resultBits.toNat = (omega (v + g.toNat)).length ∧
        t.regs.bvRptr.toNat = s.regs.bvRptr.toNat + (omega (v + g.toNat)).length ∧
        SameCsrs [.status, .result, .resultBits, .bvRptr] s t ∧ SameEntries noEntry s t ∧
        t.trie = s.trie ∧ t.draws = s.draws)

/-- R125: BV_CLEAR zeroes BV_LEN and BV_RPTR and changes no memory. -/
def Obligations.BvClearEmptiesTheVector : Prop :=
  ∀ s : State, (∀ w, decode w = .ok .bvClear ↔ w = 0x50000000#32) ∧
    ∃ t, exec .bvClear s = .next t ∧ OkCommit s t ∧ t.regs.bvLen = 0 ∧ t.regs.bvRptr = 0 ∧
      SameCsrs [.status, .bvLen, .bvRptr] s t ∧ SameEntries noEntry s t ∧ t.trie = s.trie ∧ t.draws = s.draws

/-- R126: BV_PUT appends ARG in NBITS bits, most significant first. -/
def Obligations.BvPutAppendsTheField : Prop :=
  ∀ (s : State) (nb : BitVec 6) (n : Nat), n = nb.toNat → 1 ≤ n → n ≤ 32 →
    (∀ w, decode w = .ok (.bvPut nb) ↔ w = 0x51000000#32 ||| nb.setWidth 32) ∧
    (s.cfg.bitbufCap < s.regs.bvLen.toNat → exec (.bvPut nb) s = .next (s.commitErr .param)) ∧
    (s.regs.bvLen.toNat ≤ s.cfg.bitbufCap → 2 ^ n ≤ s.regs.arg.toNat → exec (.bvPut nb) s = .next (s.commitErr .range)) ∧
    (s.regs.bvLen.toNat ≤ s.cfg.bitbufCap → s.regs.arg.toNat < 2 ^ n → s.cfg.bitbufCap < s.regs.bvLen.toNat + n →
      exec (.bvPut nb) s = .next (s.commitErr .bufFull)) ∧
    (s.regs.arg.toNat < 2 ^ n → s.regs.bvLen.toNat + n ≤ s.cfg.bitbufCap → s.cfg.Legal → s.mems.bitbuf.wf →
      ∃ t, exec (.bvPut nb) s = .next t ∧ OkCommit s t ∧
        (∀ k, k < n → t.bit (s.regs.bvLen.toNat + k) = s.regs.arg.getLsbD (n - 1 - k)) ∧
        t.regs.bvLen.toNat = s.regs.bvLen.toNat + n ∧ t.regs.resultBits.toNat = n ∧
        SameCsrs [.status, .bvLen, .resultBits] s t ∧
        SameEntries (entries .bitbuf s.regs.bvLen.toNat n) s t ∧ t.trie = s.trie ∧ t.draws = s.draws)

/-- R127: BV_GET reads NBITS bits at BV_RPTR, the first the most significant. -/
def Obligations.BvGetReadsTheField : Prop :=
  ∀ (s : State) (nb : BitVec 6) (n : Nat), n = nb.toNat → 1 ≤ n → n ≤ 32 →
    (∀ w, decode w = .ok (.bvGet nb) ↔ w = 0x52000000#32 ||| nb.setWidth 32) ∧
    (s.cfg.bitbufCap < s.regs.bvLen.toNat → exec (.bvGet nb) s = .next (s.commitErr .param)) ∧
    (s.regs.bvLen.toNat ≤ s.cfg.bitbufCap → s.regs.bvLen.toNat < s.regs.bvRptr.toNat + n →
      exec (.bvGet nb) s = .next (s.commitErr .truncated)) ∧
    (s.regs.bvLen.toNat ≤ s.cfg.bitbufCap → s.regs.bvRptr.toNat + n ≤ s.regs.bvLen.toNat →
      ∃ t, exec (.bvGet nb) s = .next t ∧ OkCommit s t ∧
        (∀ k, k < n → t.regs.result.getLsbD (n - 1 - k) = s.bit (s.regs.bvRptr.toNat + k)) ∧
        t.regs.result.toNat < 2 ^ n ∧ t.regs.resultBits.toNat = n ∧
        t.regs.bvRptr.toNat = s.regs.bvRptr.toNat + n ∧
        SameCsrs [.status, .result, .resultBits, .bvRptr] s t ∧ SameEntries noEntry s t ∧
        t.trie = s.trie ∧ t.draws = s.draws)

/-- R134 (with R83, R130, R140): FRAME_C checks, then writes the container of NAME and CONTENT from bit 0
with zero pad bits, or, where it does not fit, loses its outputs. The premise on the frame's bits is what
the check stage and the configuration leave. -/
def Obligations.FrameCWritesTheContainer : Prop :=
  ∀ (s : State) (bits : Bits),
    bits = frameBits s.nameList s.contentList s.regs.windowSize.toNat s.regs.lookaheadSize.toNat →
    (∀ w, decode w = .ok .frameC ↔ w = 0x60000000#32) ∧
    ((s.regs.lookaheadSize.toNat = 0 ∨ s.cfg.lmax < s.regs.lookaheadSize.toNat ∨
      s.cfg.wmax < s.regs.windowSize.toNat ∨ s.cfg.contentCap < s.regs.clen.toNat ∨
      s.cfg.nameCap < s.regs.nlen.toNat) → exec .frameC s = .next (s.commitErr .param)) ∧
    (1 ≤ s.regs.lookaheadSize.toNat → s.regs.lookaheadSize.toNat ≤ s.cfg.lmax →
      s.regs.windowSize.toNat ≤ s.cfg.wmax → s.regs.clen.toNat ≤ s.cfg.contentCap →
      s.regs.nlen.toNat ≤ s.cfg.nameCap →
      (s.regs.clen.toNat = 0 → exec .frameC s = .next (s.commitErr .emptyInput)) ∧
      (s.regs.clen.toNat ≠ 0 → bits.length ≤ s.cfg.bitbufCap → s.cfg.Legal → s.mems.bitbuf.wf →
        ∃ t, exec .frameC s = .next t ∧ OkCommit s t ∧
          (∀ k (h : k < bits.length), t.bit k = bits[k]) ∧
          (∀ k, bits.length ≤ k → k < 8 * ((bits.length + 7) / 8) → t.bit k = false) ∧
          t.regs.bvLen.toNat = bits.length ∧ t.regs.bvRptr = 0 ∧ t.regs.resultBits.toNat = bits.length ∧
          t.HoldsTable (hufCodes s.contentList) ∧ t.regs.hufD.toNat = (alphabet s.contentList).length ∧
          t.trie = none ∧
          SameCsrs [.status, .bvLen, .bvRptr, .resultBits, .hufD, .hufState] s t ∧
          SameEntries (fun m k => wholeTable m k ∨ entries .bitbuf 0 (8 * ((bits.length + 7) / 8)) m k) s t ∧
          t.draws = s.draws) ∧
      (s.regs.clen.toNat ≠ 0 → s.cfg.bitbufCap < bits.length →
        ∃ t, exec .frameC s = .next t ∧ CommitFrame s t ∧ t.regs.err = true ∧ t.regs.done = s.regs.done ∧
          t.regs.errCode = 0x0A#8 ∧ t.regs.bvLen = 0 ∧ t.regs.bvRptr = 0 ∧ t.trie = none ∧
          SameCsrs [.status, .errcode, .bvLen, .bvRptr, .hufD, .hufState] s t ∧
          SameEntries (fun m _ => m = .bitbuf ∨ m = .hufCtl ∨ m = .hufCode) s t ∧
          (∀ m, m = .bitbuf ∨ m = .hufCtl ∨ m = .hufCode →
            ∃ e, s.draws ≤ e ∧ e < t.draws ∧ t.mems.redraw e m = t.mems)))

/-- R135 (with R140): FRAME_D checks BV_LEN, reads a container from bit 0 whatever BV_RPTR holds, and
writes its name, content and table, or, on the first error in the stream, loses its outputs: which error,
FrameFails says, field by field. -/
def Obligations.FrameDReadsTheContainer : Prop :=
  ∀ s : State, (∀ w, decode w = .ok .frameD ↔ w = 0x61000000#32) ∧
    (s.cfg.bitbufCap < s.regs.bvLen.toNat → exec .frameD s = .next (s.commitErr .param)) ∧
    (∀ (cfg : Config) (bs : Bits) (c : ErrCode), frameParse cfg bs = .error c ↔ FrameFails cfg bs c) ∧
    (∀ c, s.regs.bvLen.toNat ≤ s.cfg.bitbufCap → frameParse s.cfg (s.bitsFrom 0) = .error c →
      ∃ t, exec .frameD s = .next t ∧ CommitFrame s t ∧ t.regs.err = true ∧ t.regs.done = s.regs.done ∧
        t.regs.errCode = c.code ∧ t.regs.nlen = 0 ∧ t.regs.clen = 0 ∧ t.trie = none ∧
        SameCsrs [.status, .errcode, .nlen, .clen, .hufD, .hufState] s t ∧
        SameEntries (fun m _ => m = .name ∨ m = .content ∨ m = .hufCtl ∨ m = .hufCode) s t ∧
        (∀ m, m = .name ∨ m = .content ∨ m = .hufCtl ∨ m = .hufCode →
          ∃ e, s.draws ≤ e ∧ e < t.draws ∧ t.mems.redraw e m = t.mems)) ∧
    (∀ f rest k, s.regs.bvLen.toNat ≤ s.cfg.bitbufCap → s.cfg.Legal → s.mems.name.wf → s.mems.content.wf →
      frameParse s.cfg (s.bitsFrom 0) = .ok (f, rest) → k = s.regs.bvLen.toNat - rest.length →
      ∃ t, exec .frameD s = .next t ∧ OkCommit s t ∧
        t.nameList = f.name ∧ t.contentList = f.content ∧ t.regs.nlen.toNat = f.name.length ∧
        t.regs.clen.toNat = f.content.length ∧ t.HoldsTable f.codes ∧ t.regs.hufD.toNat = f.codes.length ∧
        t.trie = some (trieBuild f.codes) ∧ t.regs.bvRptr.toNat = k ∧ t.regs.resultBits.toNat = k ∧
        SameCsrs [.status, .nlen, .clen, .hufD, .hufState, .bvRptr, .resultBits] s t ∧
        SameEntries (fun m k => wholeTable m k ∨ entries .name 0 f.name.length m k ∨
          entries .content 0 f.content.length m k) s t ∧
        t.draws = s.draws)

/-! ### The algorithms -/

/-- R80: the Z-box mechanism computes the z of the contract (R78). -/
def Obligations.ZBoxMeetsTheContract : Prop :=
  ∀ pat : List (BitVec 16), zBoxArray pat = (List.range' 1 (pat.length - 1)).map (zAt pat)

/-- R78, R81: zAt is the length of the longest common prefix of the sequence and its suffix, so the
self-check of R81 never fails. -/
def Obligations.ZValuesMeetTheContract : Prop :=
  ∀ (pat : List (BitVec 16)) (i : Nat), 1 ≤ i → i < pat.length →
    i + zAt pat i ≤ pat.length ∧ (∀ t, t < zAt pat i → pat[t]? = pat[i + t]?) ∧
    (∀ k, i + k ≤ pat.length → (∀ t, t < k → pat[t]? = pat[i + t]?) → k ≤ zAt pat i) ∧
    zCheck pat i (zAt pat i) = true

/-- R91: MATCH through the concatenation and its Z-array is the direct definition. -/
def Obligations.MatchMeetsTheDirectDefinition : Prop :=
  ∀ (x : List Byte) (p w l : Nat), p < x.length → 1 ≤ l →
    IsMatch x p w l (findMatch x p w l).1 (findMatch x p w l).2.1 (findMatch x p w l).2.2

/-- R94, R95: replaying the triples of PARSE gives the content back, and there are at most |x| of them. -/
def Obligations.ReconstructionInvertsParse : Prop :=
  ∀ (x : List Byte) (w l : Nat), 1 ≤ l →
    (parse x w l).foldlM (fun out t => reconOne out t x.length .badStream) [] = .ok x ∧
    (parse x w l).length ≤ x.length ∧ ((parse x w l).map (fun t => t.2.1 + 1)).sum = x.length

/-- R95: the tiled copy equals a forward symbol-by-symbol copy. -/
def Obligations.TilingIsAForwardCopy : Prop :=
  ∀ (out out' : List Byte) (o l limit : Nat) (c : Byte) (e : ErrCode), 1 ≤ o →
    reconOne out (o, l, c) limit e = .ok out' →
    out'.length = out.length + l + 1 ∧ (∀ i, i < out.length → out'[i]? = out[i]?) ∧
    (∀ i, i < l → out'[out.length + i]? = out'[out.length + i - o]?) ∧ out'[out.length + l]? = some c

/-- R116: the table of lengths of the Elias-omega code, at both ends of each of its ranges, and that the
length never decreases. -/
def Obligations.OmegaLengthsGrow : Prop :=
  (∀ a b : Nat, 1 ≤ a → a ≤ b → (omega a).length ≤ (omega b).length) ∧
  (omega 1).length = 1 ∧ (omega 2).length = 3 ∧ (omega 3).length = 3 ∧ (omega 4).length = 6 ∧
  (omega 7).length = 6 ∧ (omega 8).length = 7 ∧ (omega 15).length = 7 ∧ (omega 16).length = 11 ∧
  (omega 31).length = 11 ∧ (omega 32).length = 12 ∧ (omega 63).length = 12 ∧ (omega 64).length = 13 ∧
  (omega 127).length = 13 ∧ (omega 128).length = 14 ∧ (omega 255).length = 14 ∧
  (omega (2 ^ 32 - 1)).length = 43 ∧ (omega (2 ^ 32)).length = 45

/-- R117, R118: EO_READ of OMEGA(v + off) returns v and leaves what follows, for both offsets and every
32-bit v, and the code is at most 45 bits long; and a stream that EO_READ accepts leads with the code of the
value returned. -/
def Obligations.EliasOmegaRoundTrip : Prop :=
  (∀ (off v : Nat) (rest : Bits), off ≤ 1 → 1 ≤ v + off → v < 2 ^ 32 →
    eoRead off (omega (v + off) ++ rest) = .ok (v, rest) ∧ (omega (v + off)).length ≤ 45) ∧
  (∀ (off v : Nat) (bs rest : Bits), off ≤ 1 → eoRead off bs = .ok (v, rest) →
    1 ≤ v + off ∧ v < 2 ^ 32 ∧ bs = omega (v + off) ++ rest)

/-- R107: the code of a content has one entry for each distinct symbol, ascending, with lengths 1 to 255;
TABLE_OK holds of it; and for two symbols or more it is complete. -/
def Obligations.HuffmanCodeIsPrefixFree : Prop :=
  ∀ x : List Byte, x ≠ [] →
    (hufCodes x).map (·.1) = alphabet x ∧ tableOk (hufCodes x) = true ∧
    (∀ e ∈ hufCodes x, 1 ≤ e.2.length ∧ e.2.length ≤ 255) ∧
    (2 ≤ (alphabet x).length → ∀ bs : Bits, 255 ≤ bs.length → ∃ e ∈ hufCodes x, e.2 <+: bs)

/-- R110, R111: in the trie of a table for which TABLE_OK holds, each code reads back its symbol, and the
bits consumed on success are exactly the code of the symbol returned. -/
def Obligations.TrieReadsExactlyTheCodes : Prop :=
  ∀ p : CodeMap, tableOk p = true →
    (∀ e ∈ p, ∀ rest : Bits, (trieBuild p).read (e.2 ++ rest) = .ok (e.1, rest)) ∧
    (∀ (bs rest : Bits) (sym : Byte), (trieBuild p).read bs = .ok (sym, rest) → ∃ e ∈ p, e.1 = sym ∧ bs = e.2 ++ rest)

/-- R132, R133: FRAME_PARSE of a container, whichever encoder made it, returns its name, its content and its
table, and consumes exactly the container's bits; FRAME_BITS is such a container. -/
def Obligations.FrameRoundTrip : Prop :=
  (∀ (c : Config) (name x : List Byte) (w l : Nat) (rest : Bits), c.Legal → name.length ≤ c.nameCap →
    1 ≤ x.length → x.length ≤ c.contentCap → w ≤ c.wmax → 1 ≤ l → l ≤ c.lmax →
    frameParse c (frameBits name x w l ++ rest) = .ok (⟨name, x, hufCodes x⟩, rest)) ∧
  (∀ (c : Config) (f : Frame) (triples : List Triple) (bs rest : Bits), c.Legal → IsContainer c f triples bs →
    frameParse c (bs ++ rest) = .ok (f, rest))

/-! ### Invariants of every step -/

/-- R38, R61: every step keeps every memory in canonical form, listing entries inside its capacity only,
and its draw among those made. -/
def Obligations.StepKeepsMemoriesInCapacity : Prop :=
  ∀ s t : State, s.cfg.Legal → s.MemsOk → step s = .next t → t.cfg.Legal ∧ t.MemsOk

/-- R26, R138, R149: every step keeps DONE and ERR apart, both 0 while BUSY. That no command is in flight
while rst_n is low is the model's choice of the moment (log 13): R149 drops the command by the first clock
edge with rst_n = 1, the model when rst_n falls. -/
def Obligations.StepKeepsStatusConsistent : Prop :=
  ∀ s t : State, s.StatusOk → step s = .next t → t.StatusOk

/-- R44: every step keeps the decode trie, while DEC_VALID = 1, the trie of the valid HUF_TABLE entries. -/
def Obligations.DecodeTrieMatchesTable : Prop :=
  ∀ s t : State, s.TrieOk → step s = .next t → t.TrieOk

/-- R136, R81: every step keeps ERRCODE among the codes of R136 other than ASSERT. -/
def Obligations.StepKeepsErrCodeReported : Prop :=
  ∀ s t : State, s.ErrCodeOk → step s = .next t → t.ErrCodeOk

/-- The invariants above hold at reset. -/
def Obligations.ResetMeetsTheInvariants : Prop :=
  State.reset.cfg.Legal ∧ State.reset.MemsOk ∧ State.reset.StatusOk ∧ State.reset.TrieOk ∧ State.reset.ErrCodeOk

/-- R24, R30: what ID, VERSION and the capacity registers read, and that no step changes it, a reset
included. -/
def Obligations.StepKeepsConstantCsrs : Prop :=
  (∀ s : State, s.readCsr .id = 0x4C5A3737#32 ∧ s.readCsr .version = 0x00000001#32 ∧
    s.readCsr .capContent = BitVec.ofNat 32 s.cfg.contentCap ∧ s.readCsr .capName = BitVec.ofNat 32 s.cfg.nameCap ∧
    s.readCsr .capBitbuf = BitVec.ofNat 32 s.cfg.bitbufCap ∧ s.readCsr .capZ = BitVec.ofNat 32 s.cfg.zcap ∧
    s.readCsr .capWmax = BitVec.ofNat 32 s.cfg.wmax ∧ s.readCsr .capLmax = BitVec.ofNat 32 s.cfg.lmax) ∧
  (∀ (s : State) (r : Csr) (v : Word), s.rstN = true →
    r ∈ [Csr.id, .version, .capContent, .capName, .capBitbuf, .capZ, .capWmax, .capLmax] →
    s.access ⟨BitVec.ofNat 24 r.offset, 2#2, true, v⟩ = (s, 0)) ∧
  ∀ s t : State, step s = .next t → t.cfg = s.cfg

/-- R22, R138, R154: a BUSY engine out of reset with no turn left commits in one step: it is then IDLE, and
DONE or ERR is 1, exactly one of them from a state that meets the status invariant. So every accepted
command commits after finitely many steps, the default turn being the model's choice (log 4). -/
def Obligations.BusyEngineCommitsWhenTurnsRunOut : Prop :=
  ∀ s : State, s.busy = true → s.rstN = true → s.turns = [] →
    ∃ t, step s = .next t ∧ t.engine = .idle ∧ t.rstN = true ∧ t.host = s.host ∧
      (t.regs.done = true ∨ t.regs.err = true) ∧ (s.StatusOk → t.regs.done = !t.regs.err)

/-! ### The Huffman tree -/

/-- R102 to R106: the alphabet is the symbols of the content, ascending. For one symbol the code is "0".
For more, the queue of R104 on the leaves, with the weights of R102 and creation numbers by rank, merges
down to one tree, and each symbol's code is the path to its leaf. -/
def Obligations.HuffmanTreeMergesTheSmallest : Prop :=
  ∀ x : List Byte, x ≠ [] →
    (alphabet x).Pairwise (fun a b => a.toNat < b.toNat) ∧ (∀ sym, sym ∈ alphabet x ↔ sym ∈ x) ∧
    (∀ sym, alphabet x = [sym] → hufCodes x = [(sym, [false])]) ∧
    (2 ≤ (alphabet x).length →
      ∃ root, Merges (alphabet x).length ((alphabet x).zipIdx.map fun e => ⟨x.count e.1, e.2, .leaf e.1⟩) root ∧
        (hufCodes x).map (·.1) = alphabet x ∧ ∀ e ∈ hufCodes x, LeafPath e.1 root e.2)
end

