-- ==== Sys2Proof/Laws/Memory.lean ====
section
/-! SUPPORT. The laws of one memory: reads after writes, and that every memory operation keeps the
canonical form, the capacity and the draws. -/

namespace Sys2Proof.Machine

variable {w : Nat}

/-! ### The cell list -/

theorem lookupCell_insertCell_same (i : Nat) (v : BitVec w) (cs : List (Nat × BitVec w)) :
    lookupCell (insertCell i v cs) i = some v := by
  induction cs with
  | nil => simp [insertCell, lookupCell]
  | cons c cs ih =>
    simp only [insertCell]
    split
    · simp [lookupCell]
    · split
      · simp [lookupCell]
      · rename_i h; simp [lookupCell, h, ih]

theorem lookupCell_insertCell_ne {i j : Nat} (h : j ≠ i) (v : BitVec w) (cs : List (Nat × BitVec w)) :
    lookupCell (insertCell i v cs) j = lookupCell cs j := by
  induction cs with
  | nil => simp [insertCell, lookupCell, h]
  | cons c cs ih =>
    simp only [insertCell]
    split
    · simp [lookupCell, h]
    · split
      · rename_i h'; simp [lookupCell, h, ← h']
      · simp [lookupCell, ih]

theorem lookupCell_eraseCell_ne {i j : Nat} (h : j ≠ i) (cs : List (Nat × BitVec w)) :
    lookupCell (eraseCell i cs) j = lookupCell cs j := by
  induction cs with
  | nil => rfl
  | cons c cs ih =>
    simp only [eraseCell]
    split
    · rename_i h'; simp [lookupCell, ← h', h]
    · simp [lookupCell, ih]

theorem lookupCell_eq_none {i : Nat} {cs : List (Nat × BitVec w)} (h : ∀ c ∈ cs, i < c.1) :
    lookupCell cs i = none := by
  induction cs with
  | nil => rfl
  | cons c cs ih =>
    have := h c (by simp)
    simp [lookupCell, Nat.ne_of_lt this, ih fun d hd => h d (by simp [hd])]

theorem lookupCell_eraseCell_same {i : Nat} {cs : List (Nat × BitVec w)}
    (h : cs.Pairwise fun a b => a.1 < b.1) : lookupCell (eraseCell i cs) i = none := by
  induction cs with
  | nil => rfl
  | cons c cs ih =>
    rw [List.pairwise_cons] at h
    simp only [eraseCell]
    split
    · rename_i h'; exact lookupCell_eq_none fun d hd => h' ▸ h.1 d hd
    · rename_i h'; simp [lookupCell, h', ih h.2]

theorem mem_insertCell {i : Nat} {v : BitVec w} {cs : List (Nat × BitVec w)} {c : Nat × BitVec w}
    (h : c ∈ insertCell i v cs) : c = (i, v) ∨ c ∈ cs := by
  induction cs with
  | nil => simpa [insertCell] using h
  | cons d cs ih =>
    simp only [insertCell] at h
    split at h
    · simpa using h
    · split at h
      · rcases List.mem_cons.1 h with h | h
        · exact .inl h
        · exact .inr (by simp [h])
      · rcases List.mem_cons.1 h with h | h
        · exact .inr (by simp [h])
        · exact (ih h).imp id fun h => by simp [h]

theorem mem_eraseCell {i : Nat} {cs : List (Nat × BitVec w)} {c : Nat × BitVec w}
    (h : c ∈ eraseCell i cs) : c ∈ cs := by
  induction cs with
  | nil => exact h
  | cons d cs ih =>
    simp only [eraseCell] at h
    split at h
    · simp [h]
    · rcases List.mem_cons.1 h with h | h
      · simp [h]
      · simp [ih h]

theorem insertCell_sorted {i : Nat} {v : BitVec w} {cs : List (Nat × BitVec w)}
    (h : cs.Pairwise fun a b => a.1 < b.1) : (insertCell i v cs).Pairwise fun a b => a.1 < b.1 := by
  induction cs with
  | nil => simp [insertCell]
  | cons c cs ih =>
    have hc := List.pairwise_cons.1 h
    simp only [insertCell]
    split
    · rename_i hi
      refine List.pairwise_cons.2 ⟨fun d hd => ?_, h⟩
      rcases List.mem_cons.1 hd with rfl | hd
      · exact hi
      · exact Nat.lt_trans hi (hc.1 d hd)
    · split
      · rename_i hi
        exact List.pairwise_cons.2 ⟨fun d hd => hi ▸ hc.1 d hd, hc.2⟩
      · refine List.pairwise_cons.2 ⟨fun d hd => ?_, ih hc.2⟩
        rcases mem_insertCell hd with rfl | hd
        · dsimp; omega
        · exact hc.1 d hd

theorem eraseCell_sorted {i : Nat} {cs : List (Nat × BitVec w)}
    (h : cs.Pairwise fun a b => a.1 < b.1) : (eraseCell i cs).Pairwise fun a b => a.1 < b.1 := by
  induction cs with
  | nil => exact h
  | cons c cs ih =>
    have hc := List.pairwise_cons.1 h
    simp only [eraseCell]
    split
    · exact hc.2
    · exact List.pairwise_cons.2 ⟨fun d hd => hc.1 d (mem_eraseCell hd), ih hc.2⟩

/-! ### Reads after writes -/

@[simp] theorem Mem.write_fill (m : Mem w) (i : Nat) (v : BitVec w) : (m.write i v).fill = m.fill := by
  unfold Mem.write; split <;> simp_all

theorem Mem.read_write_ne {i j : Nat} (h : j ≠ i) (m : Mem w) (v : BitVec w) :
    (m.write i v).read j = m.read j := by
  unfold Mem.read
  rw [Mem.write_fill]
  congr 1
  unfold Mem.write
  split
  · split
    · exact lookupCell_eraseCell_ne h _
    · exact lookupCell_insertCell_ne h _ _
  · exact lookupCell_insertCell_ne h _ _

theorem Mem.read_write_same {m : Mem w} (hm : m.wf) (i : Nat) (v : BitVec w) : (m.write i v).read i = v := by
  unfold Mem.read
  rw [Mem.write_fill]
  unfold Mem.write
  split
  · rename_i hf
    split
    · rename_i hv
      simp [lookupCell_eraseCell_same hm.1, hf, Fill.value, hv]
    · simp [lookupCell_insertCell_same]
  · simp [lookupCell_insertCell_same]

/-! ### The canonical form -/

theorem Mem.write_wf {m : Mem w} (hm : m.wf) (i : Nat) (v : BitVec w) : (m.write i v).wf := by
  unfold Mem.write
  split
  · rename_i hf
    split
    · exact ⟨eraseCell_sorted hm.1, fun _ c hc => hm.2 hf c (mem_eraseCell hc)⟩
    · rename_i hv
      refine ⟨insertCell_sorted hm.1, fun _ c hc => ?_⟩
      rcases mem_insertCell hc with rfl | hc
      · exact hv
      · exact hm.2 hf c hc
  · rename_i e hf
    exact ⟨insertCell_sorted hm.1, fun h => absurd (hf.symm.trans h) (by simp)⟩

theorem Mem.write_within {m : Mem w} {cap : Nat} (hm : m.within cap) {i : Nat} (hi : i < cap) (v : BitVec w) :
    (m.write i v).within cap := by
  unfold Mem.write
  split
  · split
    · exact fun c hc => hm c (mem_eraseCell hc)
    · intro c hc
      rcases mem_insertCell hc with rfl | hc
      · exact hi
      · exact hm c hc
  · intro c hc
    rcases mem_insertCell hc with rfl | hc
    · exact hi
    · exact hm c hc

theorem Mem.write_ok {m : Mem w} {cap n : Nat} (hm : m.ok cap n) {i : Nat} (hi : i < cap) (v : BitVec w) :
    (m.write i v).ok cap n :=
  ⟨Mem.write_wf hm.1 i v, Mem.write_within hm.2.1 hi v, by rw [Mem.write_fill]; exact hm.2.2⟩

/-- Later draws do not unmake a memory. -/
theorem Mem.ok_mono {m : Mem w} {cap n n' : Nat} (hm : m.ok cap n) (h : n ≤ n') : m.ok cap n' := by
  refine ⟨hm.1, hm.2.1, ?_⟩
  have := hm.2.2
  unfold Fill.madeBy at *
  split at this <;> simp_all
  omega

theorem Mem.unspecified_ok {cap e n : Nat} (h : e < n) : (Mem.unspecified w e).ok cap n :=
  ⟨⟨by simp [Mem.unspecified], by simp [Mem.unspecified]⟩, by simp [Mem.unspecified], h⟩

theorem Mem.zeros_ok (cap n : Nat) : (Mem.zeros w).ok cap n :=
  ⟨⟨by simp [Mem.zeros], by simp [Mem.zeros]⟩, by simp [Mem.zeros], trivial⟩

/-! ### Lists of writes -/

@[simp] theorem Mem.writeList_fill (m : Mem w) (i : Nat) (vs : List (BitVec w)) :
    (m.writeList i vs).fill = m.fill := by
  induction vs generalizing m i with
  | nil => rfl
  | cons v vs ih => simp [Mem.writeList, ih]

theorem Mem.writeList_wf {m : Mem w} (hm : m.wf) (i : Nat) (vs : List (BitVec w)) : (m.writeList i vs).wf := by
  induction vs generalizing m i with
  | nil => exact hm
  | cons v vs ih => exact ih (Mem.write_wf hm i v) _

theorem Mem.writeList_ok {m : Mem w} {cap n : Nat} (hm : m.ok cap n) {i : Nat} {vs : List (BitVec w)}
    (h : i + vs.length ≤ cap) : (m.writeList i vs).ok cap n := by
  induction vs generalizing m i with
  | nil => exact hm
  | cons v vs ih =>
    simp only [List.length_cons] at h
    exact ih (Mem.write_ok hm (by omega) v) (by omega)

/-- Entries outside the list's range read as before. -/
theorem Mem.read_writeList_outside (m : Mem w) {i k : Nat} {vs : List (BitVec w)}
    (h : k < i ∨ i + vs.length ≤ k) : (m.writeList i vs).read k = m.read k := by
  induction vs generalizing m i with
  | nil => rfl
  | cons v vs ih =>
    simp only [List.length_cons] at h
    rw [Mem.writeList, ih _ (by omega), Mem.read_write_ne (by omega)]

/-- Entry `i + k` reads the list's value `k`. -/
theorem Mem.read_writeList_inside {m : Mem w} (hm : m.wf) {i k : Nat} {vs : List (BitVec w)}
    (h : k < vs.length) : (m.writeList i vs).read (i + k) = vs[k] := by
  induction vs generalizing m i k with
  | nil => simp at h
  | cons v vs ih =>
    rw [Mem.writeList]
    cases k with
    | zero => rw [Mem.read_writeList_outside _ (by omega)]; exact Mem.read_write_same hm i v
    | succ k =>
      have h' : k < vs.length := by simpa using h
      have := ih (Mem.write_wf hm i v) (i := i + 1) h'
      rw [show i + (k + 1) = i + 1 + k by omega, this]; rfl

@[simp] theorem Mem.slice_length (m : Mem w) (i n : Nat) : (m.slice i n).length = n := by simp [Mem.slice]

theorem Mem.slice_getElem (m : Mem w) (i n k : Nat) (h : k < (m.slice i n).length) :
    (m.slice i n)[k] = m.read (i + k) := by simp [Mem.slice]

/-- A range that was just written reads back the list. -/
theorem Mem.slice_writeList {m : Mem w} (hm : m.wf) (i : Nat) (vs : List (BitVec w)) :
    (m.writeList i vs).slice i vs.length = vs := by
  apply List.ext_getElem (by simp)
  intro k h1 h2
  rw [Mem.slice_getElem, Mem.read_writeList_inside hm h2]

/-! ### The memories of a reset -/

/-- The memories of a reset are in canonical form. -/
theorem Mems.reset_wf (e : Nat) :
    (Mems.reset e).name.wf ∧ (Mems.reset e).content.wf ∧ (Mems.reset e).bitbuf.wf ∧ (Mems.reset e).zin.wf ∧
    (Mems.reset e).zout.wf ∧ (Mems.reset e).hufCtl.wf ∧ (Mems.reset e).hufCode.wf := by
  simp [Mems.reset, Mem.wf, Mem.unspecified, Mem.zeros]

end Sys2Proof.Machine
end

