-- ==== Sys2Proof/Laws/State.lean ====
section
/-! SUPPORT. What each named update of the state leaves in each field: one lemma per field per update, so
that no proof unfolds a record update. -/

namespace Sys2Proof.Machine

variable (s : State)

/-! ### The engine -/

theorem State.busy_eq_true : s.busy = true ↔ ∃ s0, s.engine = .busy s0 := by
  unfold State.busy; cases s.engine <;> simp

theorem State.busy_eq_false : s.busy = false ↔ s.engine = .idle := by
  unfold State.busy; cases s.engine <;> simp

/-- While IDLE a CSR reads the value it holds. -/
theorem State.readCsr_idle {s : State} (h : s.engine = .idle) (r : Csr) : s.readCsr r = s.csr r := by
  unfold State.readCsr; rw [h]

/-- While BUSY every CSR but CTRL and STATUS reads the value it holds, which is its value in S0 (log 2). -/
theorem State.readCsr_of_ne (r : Csr) (h1 : r ≠ .ctrl) (h2 : r ≠ .status) : s.readCsr r = s.csr r := by
  unfold State.readCsr State.snapCsr; cases s.engine <;> cases r <;> simp_all

/-! ### accept -/

@[simp] theorem State.accept_cfg (w : Word) : (s.accept w).cfg = s.cfg := rfl
@[simp] theorem State.accept_rstN (w : Word) : (s.accept w).rstN = s.rstN := rfl
@[simp] theorem State.accept_engine (w : Word) : (s.accept w).engine = .busy ⟨s.regs.irqEn, s.regs.ovr⟩ := rfl
@[simp] theorem State.accept_busy (w : Word) : (s.accept w).busy = true := rfl
@[simp] theorem State.accept_mems (w : Word) : (s.accept w).mems = s.mems := rfl
@[simp] theorem State.accept_trie (w : Word) : (s.accept w).trie = s.trie := rfl
@[simp] theorem State.accept_draws (w : Word) : (s.accept w).draws = s.draws := rfl
@[simp] theorem State.accept_host (w : Word) : (s.accept w).host = s.host := rfl
@[simp] theorem State.accept_turns (w : Word) : (s.accept w).turns = s.turns := rfl
@[simp] theorem State.accept_irqEn (w : Word) : (s.accept w).regs.irqEn = s.regs.irqEn := rfl
@[simp] theorem State.accept_done (w : Word) : (s.accept w).regs.done = false := rfl
@[simp] theorem State.accept_err (w : Word) : (s.accept w).regs.err = false := rfl
@[simp] theorem State.accept_ovr (w : Word) : (s.accept w).regs.ovr = s.regs.ovr := rfl
@[simp] theorem State.accept_cmd (w : Word) : (s.accept w).regs.cmd = w := rfl
@[simp] theorem State.accept_errCode (w : Word) : (s.accept w).regs.errCode = 0 := rfl
@[simp] theorem State.accept_windowSize (w : Word) : (s.accept w).regs.windowSize = s.regs.windowSize := rfl
@[simp] theorem State.accept_lookaheadSize (w : Word) : (s.accept w).regs.lookaheadSize = s.regs.lookaheadSize := rfl
@[simp] theorem State.accept_nlen (w : Word) : (s.accept w).regs.nlen = s.regs.nlen := rfl
@[simp] theorem State.accept_clen (w : Word) : (s.accept w).regs.clen = s.regs.clen := rfl
@[simp] theorem State.accept_pos (w : Word) : (s.accept w).regs.pos = s.regs.pos := rfl
@[simp] theorem State.accept_bvLen (w : Word) : (s.accept w).regs.bvLen = s.regs.bvLen := rfl
@[simp] theorem State.accept_bvRptr (w : Word) : (s.accept w).regs.bvRptr = s.regs.bvRptr := rfl
@[simp] theorem State.accept_zlen (w : Word) : (s.accept w).regs.zlen = s.regs.zlen := rfl
@[simp] theorem State.accept_triOffset (w : Word) : (s.accept w).regs.triOffset = s.regs.triOffset := rfl
@[simp] theorem State.accept_triLength (w : Word) : (s.accept w).regs.triLength = s.regs.triLength := rfl
@[simp] theorem State.accept_triSymbol (w : Word) : (s.accept w).regs.triSymbol = s.regs.triSymbol := rfl
@[simp] theorem State.accept_arg (w : Word) : (s.accept w).regs.arg = s.regs.arg := rfl
@[simp] theorem State.accept_result (w : Word) : (s.accept w).regs.result = s.regs.result := rfl
@[simp] theorem State.accept_resultBits (w : Word) : (s.accept w).regs.resultBits = s.regs.resultBits := rfl
@[simp] theorem State.accept_hufD (w : Word) : (s.accept w).regs.hufD = s.regs.hufD := rfl

/-! ### commitOk -/

@[simp] theorem State.commitOk_cfg : (s.commitOk).cfg = s.cfg := rfl
@[simp] theorem State.commitOk_rstN : (s.commitOk).rstN = s.rstN := rfl
@[simp] theorem State.commitOk_engine : (s.commitOk).engine = .idle := rfl
@[simp] theorem State.commitOk_busy : (s.commitOk).busy = false := rfl
@[simp] theorem State.commitOk_mems : (s.commitOk).mems = s.mems := rfl
@[simp] theorem State.commitOk_trie : (s.commitOk).trie = s.trie := rfl
@[simp] theorem State.commitOk_draws : (s.commitOk).draws = s.draws := rfl
@[simp] theorem State.commitOk_host : (s.commitOk).host = s.host := rfl
@[simp] theorem State.commitOk_turns : (s.commitOk).turns = s.turns := rfl
@[simp] theorem State.commitOk_irqEn : (s.commitOk).regs.irqEn = s.regs.irqEn := rfl
@[simp] theorem State.commitOk_done : (s.commitOk).regs.done = true := rfl
@[simp] theorem State.commitOk_err : (s.commitOk).regs.err = s.regs.err := rfl
@[simp] theorem State.commitOk_ovr : (s.commitOk).regs.ovr = s.regs.ovr := rfl
@[simp] theorem State.commitOk_cmd : (s.commitOk).regs.cmd = s.regs.cmd := rfl
@[simp] theorem State.commitOk_errCode : (s.commitOk).regs.errCode = s.regs.errCode := rfl
@[simp] theorem State.commitOk_windowSize : (s.commitOk).regs.windowSize = s.regs.windowSize := rfl
@[simp] theorem State.commitOk_lookaheadSize : (s.commitOk).regs.lookaheadSize = s.regs.lookaheadSize := rfl
@[simp] theorem State.commitOk_nlen : (s.commitOk).regs.nlen = s.regs.nlen := rfl
@[simp] theorem State.commitOk_clen : (s.commitOk).regs.clen = s.regs.clen := rfl
@[simp] theorem State.commitOk_pos : (s.commitOk).regs.pos = s.regs.pos := rfl
@[simp] theorem State.commitOk_bvLen : (s.commitOk).regs.bvLen = s.regs.bvLen := rfl
@[simp] theorem State.commitOk_bvRptr : (s.commitOk).regs.bvRptr = s.regs.bvRptr := rfl
@[simp] theorem State.commitOk_zlen : (s.commitOk).regs.zlen = s.regs.zlen := rfl
@[simp] theorem State.commitOk_triOffset : (s.commitOk).regs.triOffset = s.regs.triOffset := rfl
@[simp] theorem State.commitOk_triLength : (s.commitOk).regs.triLength = s.regs.triLength := rfl
@[simp] theorem State.commitOk_triSymbol : (s.commitOk).regs.triSymbol = s.regs.triSymbol := rfl
@[simp] theorem State.commitOk_arg : (s.commitOk).regs.arg = s.regs.arg := rfl
@[simp] theorem State.commitOk_result : (s.commitOk).regs.result = s.regs.result := rfl
@[simp] theorem State.commitOk_resultBits : (s.commitOk).regs.resultBits = s.regs.resultBits := rfl
@[simp] theorem State.commitOk_hufD : (s.commitOk).regs.hufD = s.regs.hufD := rfl

/-! ### commitErr -/

@[simp] theorem State.commitErr_cfg (c : ErrCode) : (s.commitErr c).cfg = s.cfg := rfl
@[simp] theorem State.commitErr_rstN (c : ErrCode) : (s.commitErr c).rstN = s.rstN := rfl
@[simp] theorem State.commitErr_engine (c : ErrCode) : (s.commitErr c).engine = .idle := rfl
@[simp] theorem State.commitErr_busy (c : ErrCode) : (s.commitErr c).busy = false := rfl
@[simp] theorem State.commitErr_mems (c : ErrCode) : (s.commitErr c).mems = s.mems := rfl
@[simp] theorem State.commitErr_trie (c : ErrCode) : (s.commitErr c).trie = s.trie := rfl
@[simp] theorem State.commitErr_draws (c : ErrCode) : (s.commitErr c).draws = s.draws := rfl
@[simp] theorem State.commitErr_host (c : ErrCode) : (s.commitErr c).host = s.host := rfl
@[simp] theorem State.commitErr_turns (c : ErrCode) : (s.commitErr c).turns = s.turns := rfl
@[simp] theorem State.commitErr_irqEn (c : ErrCode) : (s.commitErr c).regs.irqEn = s.regs.irqEn := rfl
@[simp] theorem State.commitErr_done (c : ErrCode) : (s.commitErr c).regs.done = s.regs.done := rfl
@[simp] theorem State.commitErr_err (c : ErrCode) : (s.commitErr c).regs.err = true := rfl
@[simp] theorem State.commitErr_ovr (c : ErrCode) : (s.commitErr c).regs.ovr = s.regs.ovr := rfl
@[simp] theorem State.commitErr_cmd (c : ErrCode) : (s.commitErr c).regs.cmd = s.regs.cmd := rfl
@[simp] theorem State.commitErr_errCode (c : ErrCode) : (s.commitErr c).regs.errCode = c.code := rfl
@[simp] theorem State.commitErr_windowSize (c : ErrCode) : (s.commitErr c).regs.windowSize = s.regs.windowSize := rfl
@[simp] theorem State.commitErr_lookaheadSize (c : ErrCode) : (s.commitErr c).regs.lookaheadSize = s.regs.lookaheadSize := rfl
@[simp] theorem State.commitErr_nlen (c : ErrCode) : (s.commitErr c).regs.nlen = s.regs.nlen := rfl
@[simp] theorem State.commitErr_clen (c : ErrCode) : (s.commitErr c).regs.clen = s.regs.clen := rfl
@[simp] theorem State.commitErr_pos (c : ErrCode) : (s.commitErr c).regs.pos = s.regs.pos := rfl
@[simp] theorem State.commitErr_bvLen (c : ErrCode) : (s.commitErr c).regs.bvLen = s.regs.bvLen := rfl
@[simp] theorem State.commitErr_bvRptr (c : ErrCode) : (s.commitErr c).regs.bvRptr = s.regs.bvRptr := rfl
@[simp] theorem State.commitErr_zlen (c : ErrCode) : (s.commitErr c).regs.zlen = s.regs.zlen := rfl
@[simp] theorem State.commitErr_triOffset (c : ErrCode) : (s.commitErr c).regs.triOffset = s.regs.triOffset := rfl
@[simp] theorem State.commitErr_triLength (c : ErrCode) : (s.commitErr c).regs.triLength = s.regs.triLength := rfl
@[simp] theorem State.commitErr_triSymbol (c : ErrCode) : (s.commitErr c).regs.triSymbol = s.regs.triSymbol := rfl
@[simp] theorem State.commitErr_arg (c : ErrCode) : (s.commitErr c).regs.arg = s.regs.arg := rfl
@[simp] theorem State.commitErr_result (c : ErrCode) : (s.commitErr c).regs.result = s.regs.result := rfl
@[simp] theorem State.commitErr_resultBits (c : ErrCode) : (s.commitErr c).regs.resultBits = s.regs.resultBits := rfl
@[simp] theorem State.commitErr_hufD (c : ErrCode) : (s.commitErr c).regs.hufD = s.regs.hufD := rfl

/-! ### redraw -/

@[simp] theorem State.redraw_cfg (m : MemName) : (s.redraw m).cfg = s.cfg := rfl
@[simp] theorem State.redraw_rstN (m : MemName) : (s.redraw m).rstN = s.rstN := rfl
@[simp] theorem State.redraw_engine (m : MemName) : (s.redraw m).engine = s.engine := rfl
@[simp] theorem State.redraw_regs (m : MemName) : (s.redraw m).regs = s.regs := rfl
@[simp] theorem State.redraw_mems (m : MemName) : (s.redraw m).mems = s.mems.redraw s.draws m := rfl
@[simp] theorem State.redraw_trie (m : MemName) : (s.redraw m).trie = s.trie := rfl
@[simp] theorem State.redraw_draws (m : MemName) : (s.redraw m).draws = s.draws + 1 := rfl
@[simp] theorem State.redraw_host (m : MemName) : (s.redraw m).host = s.host := rfl
@[simp] theorem State.redraw_turns (m : MemName) : (s.redraw m).turns = s.turns := rfl

/-! ### writeBits -/

@[simp] theorem State.writeBits_cfg (i : Nat) (bs : Bits) : (s.writeBits i bs).cfg = s.cfg := rfl
@[simp] theorem State.writeBits_rstN (i : Nat) (bs : Bits) : (s.writeBits i bs).rstN = s.rstN := rfl
@[simp] theorem State.writeBits_engine (i : Nat) (bs : Bits) : (s.writeBits i bs).engine = s.engine := rfl
@[simp] theorem State.writeBits_regs (i : Nat) (bs : Bits) : (s.writeBits i bs).regs = s.regs := rfl
@[simp] theorem State.writeBits_trie (i : Nat) (bs : Bits) : (s.writeBits i bs).trie = s.trie := rfl
@[simp] theorem State.writeBits_draws (i : Nat) (bs : Bits) : (s.writeBits i bs).draws = s.draws := rfl
@[simp] theorem State.writeBits_host (i : Nat) (bs : Bits) : (s.writeBits i bs).host = s.host := rfl
@[simp] theorem State.writeBits_turns (i : Nat) (bs : Bits) : (s.writeBits i bs).turns = s.turns := rfl

/-! ### append -/

@[simp] theorem State.append_cfg (bs : Bits) : (s.append bs).cfg = s.cfg := rfl
@[simp] theorem State.append_rstN (bs : Bits) : (s.append bs).rstN = s.rstN := rfl
@[simp] theorem State.append_engine (bs : Bits) : (s.append bs).engine = s.engine := rfl
@[simp] theorem State.append_mems (bs : Bits) : (s.append bs).mems = (s.writeBits s.regs.bvLen.toNat bs).mems := rfl
@[simp] theorem State.append_trie (bs : Bits) : (s.append bs).trie = s.trie := rfl
@[simp] theorem State.append_draws (bs : Bits) : (s.append bs).draws = s.draws := rfl
@[simp] theorem State.append_host (bs : Bits) : (s.append bs).host = s.host := rfl
@[simp] theorem State.append_turns (bs : Bits) : (s.append bs).turns = s.turns := rfl
@[simp] theorem State.append_irqEn (bs : Bits) : (s.append bs).regs.irqEn = s.regs.irqEn := rfl
@[simp] theorem State.append_done (bs : Bits) : (s.append bs).regs.done = s.regs.done := rfl
@[simp] theorem State.append_err (bs : Bits) : (s.append bs).regs.err = s.regs.err := rfl
@[simp] theorem State.append_ovr (bs : Bits) : (s.append bs).regs.ovr = s.regs.ovr := rfl
@[simp] theorem State.append_cmd (bs : Bits) : (s.append bs).regs.cmd = s.regs.cmd := rfl
@[simp] theorem State.append_errCode (bs : Bits) : (s.append bs).regs.errCode = s.regs.errCode := rfl
@[simp] theorem State.append_windowSize (bs : Bits) : (s.append bs).regs.windowSize = s.regs.windowSize := rfl
@[simp] theorem State.append_lookaheadSize (bs : Bits) : (s.append bs).regs.lookaheadSize = s.regs.lookaheadSize := rfl
@[simp] theorem State.append_nlen (bs : Bits) : (s.append bs).regs.nlen = s.regs.nlen := rfl
@[simp] theorem State.append_clen (bs : Bits) : (s.append bs).regs.clen = s.regs.clen := rfl
@[simp] theorem State.append_pos (bs : Bits) : (s.append bs).regs.pos = s.regs.pos := rfl
@[simp] theorem State.append_bvLen (bs : Bits) : (s.append bs).regs.bvLen = BitVec.ofNat 32 (s.regs.bvLen.toNat + bs.length) := rfl
@[simp] theorem State.append_bvRptr (bs : Bits) : (s.append bs).regs.bvRptr = s.regs.bvRptr := rfl
@[simp] theorem State.append_zlen (bs : Bits) : (s.append bs).regs.zlen = s.regs.zlen := rfl
@[simp] theorem State.append_triOffset (bs : Bits) : (s.append bs).regs.triOffset = s.regs.triOffset := rfl
@[simp] theorem State.append_triLength (bs : Bits) : (s.append bs).regs.triLength = s.regs.triLength := rfl
@[simp] theorem State.append_triSymbol (bs : Bits) : (s.append bs).regs.triSymbol = s.regs.triSymbol := rfl
@[simp] theorem State.append_arg (bs : Bits) : (s.append bs).regs.arg = s.regs.arg := rfl
@[simp] theorem State.append_result (bs : Bits) : (s.append bs).regs.result = s.regs.result := rfl
@[simp] theorem State.append_resultBits (bs : Bits) : (s.append bs).regs.resultBits = s.regs.resultBits := rfl
@[simp] theorem State.append_hufD (bs : Bits) : (s.append bs).regs.hufD = s.regs.hufD := rfl

/-! ### consume -/

@[simp] theorem State.consume_cfg (k : Nat) : (s.consume k).cfg = s.cfg := rfl
@[simp] theorem State.consume_rstN (k : Nat) : (s.consume k).rstN = s.rstN := rfl
@[simp] theorem State.consume_engine (k : Nat) : (s.consume k).engine = s.engine := rfl
@[simp] theorem State.consume_mems (k : Nat) : (s.consume k).mems = s.mems := rfl
@[simp] theorem State.consume_trie (k : Nat) : (s.consume k).trie = s.trie := rfl
@[simp] theorem State.consume_draws (k : Nat) : (s.consume k).draws = s.draws := rfl
@[simp] theorem State.consume_host (k : Nat) : (s.consume k).host = s.host := rfl
@[simp] theorem State.consume_turns (k : Nat) : (s.consume k).turns = s.turns := rfl
@[simp] theorem State.consume_irqEn (k : Nat) : (s.consume k).regs.irqEn = s.regs.irqEn := rfl
@[simp] theorem State.consume_done (k : Nat) : (s.consume k).regs.done = s.regs.done := rfl
@[simp] theorem State.consume_err (k : Nat) : (s.consume k).regs.err = s.regs.err := rfl
@[simp] theorem State.consume_ovr (k : Nat) : (s.consume k).regs.ovr = s.regs.ovr := rfl
@[simp] theorem State.consume_cmd (k : Nat) : (s.consume k).regs.cmd = s.regs.cmd := rfl
@[simp] theorem State.consume_errCode (k : Nat) : (s.consume k).regs.errCode = s.regs.errCode := rfl
@[simp] theorem State.consume_windowSize (k : Nat) : (s.consume k).regs.windowSize = s.regs.windowSize := rfl
@[simp] theorem State.consume_lookaheadSize (k : Nat) : (s.consume k).regs.lookaheadSize = s.regs.lookaheadSize := rfl
@[simp] theorem State.consume_nlen (k : Nat) : (s.consume k).regs.nlen = s.regs.nlen := rfl
@[simp] theorem State.consume_clen (k : Nat) : (s.consume k).regs.clen = s.regs.clen := rfl
@[simp] theorem State.consume_pos (k : Nat) : (s.consume k).regs.pos = s.regs.pos := rfl
@[simp] theorem State.consume_bvLen (k : Nat) : (s.consume k).regs.bvLen = s.regs.bvLen := rfl
@[simp] theorem State.consume_bvRptr (k : Nat) : (s.consume k).regs.bvRptr = BitVec.ofNat 32 (s.regs.bvRptr.toNat + k) := rfl
@[simp] theorem State.consume_zlen (k : Nat) : (s.consume k).regs.zlen = s.regs.zlen := rfl
@[simp] theorem State.consume_triOffset (k : Nat) : (s.consume k).regs.triOffset = s.regs.triOffset := rfl
@[simp] theorem State.consume_triLength (k : Nat) : (s.consume k).regs.triLength = s.regs.triLength := rfl
@[simp] theorem State.consume_triSymbol (k : Nat) : (s.consume k).regs.triSymbol = s.regs.triSymbol := rfl
@[simp] theorem State.consume_arg (k : Nat) : (s.consume k).regs.arg = s.regs.arg := rfl
@[simp] theorem State.consume_result (k : Nat) : (s.consume k).regs.result = s.regs.result := rfl
@[simp] theorem State.consume_resultBits (k : Nat) : (s.consume k).regs.resultBits = BitVec.ofNat 32 k := rfl
@[simp] theorem State.consume_hufD (k : Nat) : (s.consume k).regs.hufD = s.regs.hufD := rfl

/-! ### setResult -/

@[simp] theorem State.setResult_cfg (v : Nat) : (s.setResult v).cfg = s.cfg := rfl
@[simp] theorem State.setResult_rstN (v : Nat) : (s.setResult v).rstN = s.rstN := rfl
@[simp] theorem State.setResult_engine (v : Nat) : (s.setResult v).engine = s.engine := rfl
@[simp] theorem State.setResult_mems (v : Nat) : (s.setResult v).mems = s.mems := rfl
@[simp] theorem State.setResult_trie (v : Nat) : (s.setResult v).trie = s.trie := rfl
@[simp] theorem State.setResult_draws (v : Nat) : (s.setResult v).draws = s.draws := rfl
@[simp] theorem State.setResult_host (v : Nat) : (s.setResult v).host = s.host := rfl
@[simp] theorem State.setResult_turns (v : Nat) : (s.setResult v).turns = s.turns := rfl
@[simp] theorem State.setResult_irqEn (v : Nat) : (s.setResult v).regs.irqEn = s.regs.irqEn := rfl
@[simp] theorem State.setResult_done (v : Nat) : (s.setResult v).regs.done = s.regs.done := rfl
@[simp] theorem State.setResult_err (v : Nat) : (s.setResult v).regs.err = s.regs.err := rfl
@[simp] theorem State.setResult_ovr (v : Nat) : (s.setResult v).regs.ovr = s.regs.ovr := rfl
@[simp] theorem State.setResult_cmd (v : Nat) : (s.setResult v).regs.cmd = s.regs.cmd := rfl
@[simp] theorem State.setResult_errCode (v : Nat) : (s.setResult v).regs.errCode = s.regs.errCode := rfl
@[simp] theorem State.setResult_windowSize (v : Nat) : (s.setResult v).regs.windowSize = s.regs.windowSize := rfl
@[simp] theorem State.setResult_lookaheadSize (v : Nat) : (s.setResult v).regs.lookaheadSize = s.regs.lookaheadSize := rfl
@[simp] theorem State.setResult_nlen (v : Nat) : (s.setResult v).regs.nlen = s.regs.nlen := rfl
@[simp] theorem State.setResult_clen (v : Nat) : (s.setResult v).regs.clen = s.regs.clen := rfl
@[simp] theorem State.setResult_pos (v : Nat) : (s.setResult v).regs.pos = s.regs.pos := rfl
@[simp] theorem State.setResult_bvLen (v : Nat) : (s.setResult v).regs.bvLen = s.regs.bvLen := rfl
@[simp] theorem State.setResult_bvRptr (v : Nat) : (s.setResult v).regs.bvRptr = s.regs.bvRptr := rfl
@[simp] theorem State.setResult_zlen (v : Nat) : (s.setResult v).regs.zlen = s.regs.zlen := rfl
@[simp] theorem State.setResult_triOffset (v : Nat) : (s.setResult v).regs.triOffset = s.regs.triOffset := rfl
@[simp] theorem State.setResult_triLength (v : Nat) : (s.setResult v).regs.triLength = s.regs.triLength := rfl
@[simp] theorem State.setResult_triSymbol (v : Nat) : (s.setResult v).regs.triSymbol = s.regs.triSymbol := rfl
@[simp] theorem State.setResult_arg (v : Nat) : (s.setResult v).regs.arg = s.regs.arg := rfl
@[simp] theorem State.setResult_result (v : Nat) : (s.setResult v).regs.result = BitVec.ofNat 32 v := rfl
@[simp] theorem State.setResult_resultBits (v : Nat) : (s.setResult v).regs.resultBits = s.regs.resultBits := rfl
@[simp] theorem State.setResult_hufD (v : Nat) : (s.setResult v).regs.hufD = s.regs.hufD := rfl

/-! ### setTriple -/

@[simp] theorem State.setTriple_cfg (t : Nat × Nat × Byte) : (s.setTriple t).cfg = s.cfg := rfl
@[simp] theorem State.setTriple_rstN (t : Nat × Nat × Byte) : (s.setTriple t).rstN = s.rstN := rfl
@[simp] theorem State.setTriple_engine (t : Nat × Nat × Byte) : (s.setTriple t).engine = s.engine := rfl
@[simp] theorem State.setTriple_mems (t : Nat × Nat × Byte) : (s.setTriple t).mems = s.mems := rfl
@[simp] theorem State.setTriple_trie (t : Nat × Nat × Byte) : (s.setTriple t).trie = s.trie := rfl
@[simp] theorem State.setTriple_draws (t : Nat × Nat × Byte) : (s.setTriple t).draws = s.draws := rfl
@[simp] theorem State.setTriple_host (t : Nat × Nat × Byte) : (s.setTriple t).host = s.host := rfl
@[simp] theorem State.setTriple_turns (t : Nat × Nat × Byte) : (s.setTriple t).turns = s.turns := rfl
@[simp] theorem State.setTriple_irqEn (t : Nat × Nat × Byte) : (s.setTriple t).regs.irqEn = s.regs.irqEn := rfl
@[simp] theorem State.setTriple_done (t : Nat × Nat × Byte) : (s.setTriple t).regs.done = s.regs.done := rfl
@[simp] theorem State.setTriple_err (t : Nat × Nat × Byte) : (s.setTriple t).regs.err = s.regs.err := rfl
@[simp] theorem State.setTriple_ovr (t : Nat × Nat × Byte) : (s.setTriple t).regs.ovr = s.regs.ovr := rfl
@[simp] theorem State.setTriple_cmd (t : Nat × Nat × Byte) : (s.setTriple t).regs.cmd = s.regs.cmd := rfl
@[simp] theorem State.setTriple_errCode (t : Nat × Nat × Byte) : (s.setTriple t).regs.errCode = s.regs.errCode := rfl
@[simp] theorem State.setTriple_windowSize (t : Nat × Nat × Byte) : (s.setTriple t).regs.windowSize = s.regs.windowSize := rfl
@[simp] theorem State.setTriple_lookaheadSize (t : Nat × Nat × Byte) : (s.setTriple t).regs.lookaheadSize = s.regs.lookaheadSize := rfl
@[simp] theorem State.setTriple_nlen (t : Nat × Nat × Byte) : (s.setTriple t).regs.nlen = s.regs.nlen := rfl
@[simp] theorem State.setTriple_clen (t : Nat × Nat × Byte) : (s.setTriple t).regs.clen = s.regs.clen := rfl
@[simp] theorem State.setTriple_pos (t : Nat × Nat × Byte) : (s.setTriple t).regs.pos = s.regs.pos := rfl
@[simp] theorem State.setTriple_bvLen (t : Nat × Nat × Byte) : (s.setTriple t).regs.bvLen = s.regs.bvLen := rfl
@[simp] theorem State.setTriple_bvRptr (t : Nat × Nat × Byte) : (s.setTriple t).regs.bvRptr = s.regs.bvRptr := rfl
@[simp] theorem State.setTriple_zlen (t : Nat × Nat × Byte) : (s.setTriple t).regs.zlen = s.regs.zlen := rfl
@[simp] theorem State.setTriple_triOffset (t : Nat × Nat × Byte) : (s.setTriple t).regs.triOffset = BitVec.ofNat 32 t.1 := rfl
@[simp] theorem State.setTriple_triLength (t : Nat × Nat × Byte) : (s.setTriple t).regs.triLength = BitVec.ofNat 32 t.2.1 := rfl
@[simp] theorem State.setTriple_triSymbol (t : Nat × Nat × Byte) : (s.setTriple t).regs.triSymbol = t.2.2 := rfl
@[simp] theorem State.setTriple_arg (t : Nat × Nat × Byte) : (s.setTriple t).regs.arg = s.regs.arg := rfl
@[simp] theorem State.setTriple_result (t : Nat × Nat × Byte) : (s.setTriple t).regs.result = s.regs.result := rfl
@[simp] theorem State.setTriple_resultBits (t : Nat × Nat × Byte) : (s.setTriple t).regs.resultBits = s.regs.resultBits := rfl
@[simp] theorem State.setTriple_hufD (t : Nat × Nat × Byte) : (s.setTriple t).regs.hufD = s.regs.hufD := rfl

/-! ### setHufD -/

@[simp] theorem State.setHufD_cfg (d : Nat) : (s.setHufD d).cfg = s.cfg := rfl
@[simp] theorem State.setHufD_rstN (d : Nat) : (s.setHufD d).rstN = s.rstN := rfl
@[simp] theorem State.setHufD_engine (d : Nat) : (s.setHufD d).engine = s.engine := rfl
@[simp] theorem State.setHufD_mems (d : Nat) : (s.setHufD d).mems = s.mems := rfl
@[simp] theorem State.setHufD_trie (d : Nat) : (s.setHufD d).trie = s.trie := rfl
@[simp] theorem State.setHufD_draws (d : Nat) : (s.setHufD d).draws = s.draws := rfl
@[simp] theorem State.setHufD_host (d : Nat) : (s.setHufD d).host = s.host := rfl
@[simp] theorem State.setHufD_turns (d : Nat) : (s.setHufD d).turns = s.turns := rfl
@[simp] theorem State.setHufD_irqEn (d : Nat) : (s.setHufD d).regs.irqEn = s.regs.irqEn := rfl
@[simp] theorem State.setHufD_done (d : Nat) : (s.setHufD d).regs.done = s.regs.done := rfl
@[simp] theorem State.setHufD_err (d : Nat) : (s.setHufD d).regs.err = s.regs.err := rfl
@[simp] theorem State.setHufD_ovr (d : Nat) : (s.setHufD d).regs.ovr = s.regs.ovr := rfl
@[simp] theorem State.setHufD_cmd (d : Nat) : (s.setHufD d).regs.cmd = s.regs.cmd := rfl
@[simp] theorem State.setHufD_errCode (d : Nat) : (s.setHufD d).regs.errCode = s.regs.errCode := rfl
@[simp] theorem State.setHufD_windowSize (d : Nat) : (s.setHufD d).regs.windowSize = s.regs.windowSize := rfl
@[simp] theorem State.setHufD_lookaheadSize (d : Nat) : (s.setHufD d).regs.lookaheadSize = s.regs.lookaheadSize := rfl
@[simp] theorem State.setHufD_nlen (d : Nat) : (s.setHufD d).regs.nlen = s.regs.nlen := rfl
@[simp] theorem State.setHufD_clen (d : Nat) : (s.setHufD d).regs.clen = s.regs.clen := rfl
@[simp] theorem State.setHufD_pos (d : Nat) : (s.setHufD d).regs.pos = s.regs.pos := rfl
@[simp] theorem State.setHufD_bvLen (d : Nat) : (s.setHufD d).regs.bvLen = s.regs.bvLen := rfl
@[simp] theorem State.setHufD_bvRptr (d : Nat) : (s.setHufD d).regs.bvRptr = s.regs.bvRptr := rfl
@[simp] theorem State.setHufD_zlen (d : Nat) : (s.setHufD d).regs.zlen = s.regs.zlen := rfl
@[simp] theorem State.setHufD_triOffset (d : Nat) : (s.setHufD d).regs.triOffset = s.regs.triOffset := rfl
@[simp] theorem State.setHufD_triLength (d : Nat) : (s.setHufD d).regs.triLength = s.regs.triLength := rfl
@[simp] theorem State.setHufD_triSymbol (d : Nat) : (s.setHufD d).regs.triSymbol = s.regs.triSymbol := rfl
@[simp] theorem State.setHufD_arg (d : Nat) : (s.setHufD d).regs.arg = s.regs.arg := rfl
@[simp] theorem State.setHufD_result (d : Nat) : (s.setHufD d).regs.result = s.regs.result := rfl
@[simp] theorem State.setHufD_resultBits (d : Nat) : (s.setHufD d).regs.resultBits = s.regs.resultBits := rfl
@[simp] theorem State.setHufD_hufD (d : Nat) : (s.setHufD d).regs.hufD = BitVec.ofNat 9 d := rfl

/-! ### writeTable -/

@[simp] theorem State.writeTable_cfg (codes : CodeMap) : (s.writeTable codes).cfg = s.cfg := rfl
@[simp] theorem State.writeTable_rstN (codes : CodeMap) : (s.writeTable codes).rstN = s.rstN := rfl
@[simp] theorem State.writeTable_engine (codes : CodeMap) : (s.writeTable codes).engine = s.engine := rfl
@[simp] theorem State.writeTable_regs (codes : CodeMap) : (s.writeTable codes).regs = s.regs := rfl
@[simp] theorem State.writeTable_trie (codes : CodeMap) : (s.writeTable codes).trie = s.trie := rfl
@[simp] theorem State.writeTable_draws (codes : CodeMap) : (s.writeTable codes).draws = s.draws := rfl
@[simp] theorem State.writeTable_host (codes : CodeMap) : (s.writeTable codes).host = s.host := rfl
@[simp] theorem State.writeTable_turns (codes : CodeMap) : (s.writeTable codes).turns = s.turns := rfl

/-! ### assertReset -/

@[simp] theorem State.assertReset_cfg : (s.assertReset).cfg = s.cfg := rfl
@[simp] theorem State.assertReset_rstN : (s.assertReset).rstN = false := rfl
@[simp] theorem State.assertReset_engine : (s.assertReset).engine = .idle := rfl
@[simp] theorem State.assertReset_regs : (s.assertReset).regs = s.regs := rfl
@[simp] theorem State.assertReset_mems : (s.assertReset).mems = s.mems := rfl
@[simp] theorem State.assertReset_trie : (s.assertReset).trie = s.trie := rfl
@[simp] theorem State.assertReset_draws : (s.assertReset).draws = s.draws := rfl
@[simp] theorem State.assertReset_host : (s.assertReset).host = s.host := rfl
@[simp] theorem State.assertReset_turns : (s.assertReset).turns = s.turns := rfl

/-! ### takeTurn -/

@[simp] theorem State.takeTurn_cfg : (s.takeTurn).cfg = s.cfg := rfl
@[simp] theorem State.takeTurn_rstN : (s.takeTurn).rstN = s.rstN := rfl
@[simp] theorem State.takeTurn_engine : (s.takeTurn).engine = s.engine := rfl
@[simp] theorem State.takeTurn_regs : (s.takeTurn).regs = s.regs := rfl
@[simp] theorem State.takeTurn_mems : (s.takeTurn).mems = s.mems := rfl
@[simp] theorem State.takeTurn_trie : (s.takeTurn).trie = s.trie := rfl
@[simp] theorem State.takeTurn_draws : (s.takeTurn).draws = s.draws := rfl
@[simp] theorem State.takeTurn_host : (s.takeTurn).host = s.host := rfl
@[simp] theorem State.takeTurn_turns : (s.takeTurn).turns = s.turns.tail := rfl

/-! ### nextLine -/

@[simp] theorem State.nextLine_cfg : (s.nextLine).cfg = s.cfg := rfl
@[simp] theorem State.nextLine_rstN : (s.nextLine).rstN = s.rstN := rfl
@[simp] theorem State.nextLine_engine : (s.nextLine).engine = s.engine := rfl
@[simp] theorem State.nextLine_regs : (s.nextLine).regs = s.regs := rfl
@[simp] theorem State.nextLine_mems : (s.nextLine).mems = s.mems := rfl
@[simp] theorem State.nextLine_trie : (s.nextLine).trie = s.trie := rfl
@[simp] theorem State.nextLine_draws : (s.nextLine).draws = s.draws := rfl
@[simp] theorem State.nextLine_turns : (s.nextLine).turns = s.turns := rfl

/-! ### goto -/

@[simp] theorem State.goto_cfg (n : Nat) : (s.goto n).cfg = s.cfg := rfl
@[simp] theorem State.goto_rstN (n : Nat) : (s.goto n).rstN = s.rstN := rfl
@[simp] theorem State.goto_engine (n : Nat) : (s.goto n).engine = s.engine := rfl
@[simp] theorem State.goto_regs (n : Nat) : (s.goto n).regs = s.regs := rfl
@[simp] theorem State.goto_mems (n : Nat) : (s.goto n).mems = s.mems := rfl
@[simp] theorem State.goto_trie (n : Nat) : (s.goto n).trie = s.trie := rfl
@[simp] theorem State.goto_draws (n : Nat) : (s.goto n).draws = s.draws := rfl
@[simp] theorem State.goto_turns (n : Nat) : (s.goto n).turns = s.turns := rfl

/-! ### writeHuf -/

@[simp] theorem State.writeHuf_cfg (k : Nat) (v : Word) : (s.writeHuf k v).cfg = s.cfg := rfl
@[simp] theorem State.writeHuf_rstN (k : Nat) (v : Word) : (s.writeHuf k v).rstN = s.rstN := rfl
@[simp] theorem State.writeHuf_engine (k : Nat) (v : Word) : (s.writeHuf k v).engine = s.engine := rfl
@[simp] theorem State.writeHuf_regs (k : Nat) (v : Word) : (s.writeHuf k v).regs = s.regs := rfl
@[simp] theorem State.writeHuf_trie (k : Nat) (v : Word) : (s.writeHuf k v).trie = none := rfl
@[simp] theorem State.writeHuf_draws (k : Nat) (v : Word) : (s.writeHuf k v).draws = s.draws := rfl
@[simp] theorem State.writeHuf_host (k : Nat) (v : Word) : (s.writeHuf k v).host = s.host := rfl
@[simp] theorem State.writeHuf_turns (k : Nat) (v : Word) : (s.writeHuf k v).turns = s.turns := rfl

/-! ### load -/

@[simp] theorem State.load_cfg (w : Word) : (s.load w).cfg = s.cfg := rfl
@[simp] theorem State.load_rstN (w : Word) : (s.load w).rstN = true := rfl
@[simp] theorem State.load_engine (w : Word) : (s.load w).engine = .busy ⟨s.regs.irqEn, s.regs.ovr⟩ := rfl
@[simp] theorem State.load_busy (w : Word) : (s.load w).busy = true := rfl
@[simp] theorem State.load_regs (w : Word) : (s.load w).regs = (s.accept w).regs := rfl
@[simp] theorem State.load_mems (w : Word) : (s.load w).mems = s.mems := rfl
@[simp] theorem State.load_trie (w : Word) : (s.load w).trie = s.trie := rfl
@[simp] theorem State.load_draws (w : Word) : (s.load w).draws = s.draws := rfl
@[simp] theorem State.load_host (w : Word) : (s.load w).host = s.host := rfl
@[simp] theorem State.load_turns (w : Word) : (s.load w).turns = .engine :: s.turns := rfl

end Sys2Proof.Machine
end

