-- ==== Sys2Proof/Laws/Ops.lean ====
section
/-! SUPPORT. One lemma for each shared operation, saying everything it can do; later proofs cite these
and do not unfold the operations. -/

namespace Sys2Proof.Machine

/-! ### Checks and commits -/

@[simp] theorem require_eq_ok {p : Prop} [Decidable p] {c : ErrCode} {u : Unit} :
    require p c = .ok u ↔ p := by
  unfold require; split <;> simp_all

@[simp] theorem require_eq_error {p : Prop} [Decidable p] {c c' : ErrCode} :
    require p c = .error c' ↔ ¬ p ∧ c' = c := by
  unfold require; split <;> simp_all [eq_comm]

theorem require_pos {p : Prop} [Decidable p] (h : p) (c : ErrCode) : require p c = .ok () := if_pos h

theorem require_neg {p : Prop} [Decidable p] (h : ¬ p) (c : ErrCode) : require p c = .error c := if_neg h

/-- What `x >>= f` answers, for checks chained in a command: the first error wins (R141). -/
theorem bind_eq_ok {α β : Type} {x : Except ErrCode α} {f : α → Except ErrCode β} {b : β} :
    (x >>= f) = .ok b ↔ ∃ a, x = .ok a ∧ f a = .ok b := by
  cases x <;> simp [bind, Except.bind]

theorem bind_eq_error {α β : Type} {x : Except ErrCode α} {f : α → Except ErrCode β} {c : ErrCode} :
    (x >>= f) = .error c ↔ x = .error c ∨ ∃ a, x = .ok a ∧ f a = .error c := by
  cases x <;> simp [bind, Except.bind]

@[simp] theorem bind_ok {α β : Type} (a : α) (f : α → Except ErrCode β) : ((.ok a : Except ErrCode α) >>= f) = f a := rfl

@[simp] theorem bind_error {α β : Type} (c : ErrCode) (f : α → Except ErrCode β) :
    ((.error c : Except ErrCode α) >>= f) = .error c := rfl

@[simp] theorem State.commit_ok (s t : State) : s.commit (.ok t) = t.commitOk := rfl

@[simp] theorem State.commit_error (s : State) (c : ErrCode) : s.commit (.error c) = s.commitErr c := rfl

/-- A commit is of Ok with the updates, or of Err with none (R138, R139). -/
theorem State.commit_cases (s : State) (r : Except ErrCode State) :
    (∃ t, r = .ok t ∧ s.commit r = t.commitOk) ∨ (∃ c, r = .error c ∧ s.commit r = s.commitErr c) := by
  cases r with
  | ok t => exact .inl ⟨t, rfl, rfl⟩
  | error c => exact .inr ⟨c, rfl, rfl⟩

/-! ### Reading the stream -/

theorem take_eq_ok {n : Nat} {bs a b : Bits} : take n bs = .ok (a, b) ↔ n ≤ bs.length ∧ a = bs.take n ∧ b = bs.drop n := by
  unfold take; split <;> simp_all [eq_comm]

theorem take_eq_error {n : Nat} {bs : Bits} {c : ErrCode} : take n bs = .error c ↔ bs.length < n ∧ c = .truncated := by
  unfold take
  split
  · simp; omega
  · simp_all [eq_comm]

/-- Take of a field that the stream leads with. -/
theorem take_append (a b : Bits) : take a.length (a ++ b) = .ok (a, b) := by
  simp [take_eq_ok]

@[simp] theorem State.bitsFrom_length (s : State) (r : Nat) : (s.bitsFrom r).length = s.regs.bvLen.toNat - r := by
  simp [State.bitsFrom]

theorem State.bitsFrom_getElem (s : State) (r k : Nat) (h : k < (s.bitsFrom r).length) :
    (s.bitsFrom r)[k] = s.bit (r + k) := by simp [State.bitsFrom]

/-- A stream read answers the reader's value and the number of bits it consumed, or its error. -/
theorem State.readStream_eq_ok {α : Type} {s : State} {r : Reader α} {v : α} {k : Nat} :
    s.readStream r = .ok (v, k) ↔
      ∃ rest, r (s.bitsFrom s.regs.bvRptr.toNat) = .ok (v, rest) ∧
        k = (s.bitsFrom s.regs.bvRptr.toNat).length - rest.length := by
  unfold State.readStream
  rw [bind_eq_ok]
  constructor
  · rintro ⟨⟨v', rest⟩, h, h'⟩
    simp only [Except.ok.injEq, Prod.mk.injEq] at h'
    exact ⟨rest, h'.1 ▸ h, h'.2.symm⟩
  · rintro ⟨rest, h, rfl⟩
    exact ⟨(v, rest), h, rfl⟩

theorem State.readStream_eq_error {α : Type} {s : State} {r : Reader α} {c : ErrCode} :
    s.readStream r = .error c ↔ r (s.bitsFrom s.regs.bvRptr.toNat) = .error c := by
  unfold State.readStream
  rw [bind_eq_error]
  simp

/-! ### Appending -/

/-- An append fits and writes the bits, BV_LEN and RESULT_BITS, or raises BUF_FULL. -/
theorem State.appendChecked_eq (s : State) (bs : Bits) :
    s.appendChecked bs =
      if s.regs.bvLen.toNat + bs.length ≤ s.cfg.bitbufCap then
        .ok { s.append bs with regs := { (s.append bs).regs with resultBits := BitVec.ofNat 32 bs.length } }
      else .error .bufFull := by
  unfold State.appendChecked
  split
  · rename_i h; rw [require_pos h]; rfl
  · rename_i h; rw [require_neg h]; rfl

/-- Bits outside the range written read as before. -/
theorem State.bit_writeBits_outside (s : State) {i k : Nat} {bs : Bits} (h : k < i ∨ i + bs.length ≤ k) :
    (s.writeBits i bs).bit k = s.bit k := by
  unfold State.bit State.writeBits
  rw [Mem.read_writeList_outside _ (by simpa using h)]

/-- Bit `i + k` reads the k-th bit written. -/
theorem State.bit_writeBits_inside {s : State} (hm : s.mems.bitbuf.wf) {i k : Nat} {bs : Bits} (h : k < bs.length) :
    (s.writeBits i bs).bit (i + k) = bs[k] := by
  unfold State.bit State.writeBits
  rw [Mem.read_writeList_inside hm (by simpa using h)]
  simp

/-! ### Fixed-width fields -/

@[simp] theorem binFixed_length (n v : Nat) : (binFixed n v).length = n := by simp [binFixed]

theorem binFixed_zero (v : Nat) : binFixed 0 v = [] := rfl

/-- The first bit of a field is its most significant one (R13). -/
theorem binFixed_succ (n v : Nat) : binFixed (n + 1) v = v.testBit n :: binFixed n v := by
  unfold binFixed
  rw [List.range_succ_eq_map, List.map_cons, List.map_map]
  congr 1
  apply List.map_congr_left
  intro i hi
  simp only [Function.comp, Nat.succ_eq_add_one]
  congr 1
  simp at hi
  omega

theorem foldl_val (bs : Bits) (a : Nat) :
    bs.foldl (fun a b => 2 * a + b.toNat) a = a * 2 ^ bs.length + val bs := by
  unfold val
  induction bs generalizing a with
  | nil => simp
  | cons b bs ih =>
    rw [List.foldl_cons, List.foldl_cons, ih, ih (2 * 0 + b.toNat)]
    simp only [List.length_cons, Nat.pow_succ]
    ring

theorem val_cons (b : Bool) (bs : Bits) : val (b :: bs) = b.toNat * 2 ^ bs.length + val bs := by
  conv_lhs => unfold val
  rw [List.foldl_cons, foldl_val]
  simp

theorem val_append (a b : Bits) : val (a ++ b) = val a * 2 ^ b.length + val b := by
  conv_lhs => unfold val
  rw [List.foldl_append, foldl_val]
  rfl

theorem val_lt (bs : Bits) : val bs < 2 ^ bs.length := by
  induction bs with
  | nil => simp [val]
  | cons b bs ih =>
    rw [val_cons, List.length_cons, Nat.pow_succ]
    cases b <;> simp <;> omega

/-- Bit i of a sequence is bit |s| − 1 − i of val(s) (R13). -/
theorem val_testBit (bs : Bits) (i : Nat) (h : i < bs.length) : (val bs).testBit (bs.length - 1 - i) = bs[i] := by
  induction bs generalizing i with
  | nil => simp at h
  | cons b bs ih =>
    have hv := val_lt bs
    rw [val_cons]
    cases i with
    | zero =>
      cases b
      · simpa using Nat.testBit_lt_two_pow hv
      · simp [Nat.testBit_two_pow_add_eq, Nat.testBit_lt_two_pow hv]
    | succ i =>
      have hi : i < bs.length := by simpa using h
      have he : (b :: bs).length - 1 - (i + 1) = bs.length - 1 - i := by rw [List.length_cons]; omega
      rw [he, List.getElem_cons_succ, ← ih i hi]
      cases b
      · simp
      · rw [Bool.toNat_true, Nat.one_mul, Nat.testBit_two_pow_add_gt (by omega)]

/-- val is the inverse of bin_n (R124). -/
theorem val_binFixed (n v : Nat) : val (binFixed n v) = v % 2 ^ n := by
  induction n with
  | zero => simp [binFixed_zero, val, Nat.mod_one]
  | succ n ih =>
    rw [binFixed_succ, val_cons, ih, binFixed_length, Nat.testBit_eq_decide_div_mod_eq]
    rw [Nat.pow_succ, Nat.mod_mul]
    have : v / 2 ^ n % 2 = 0 ∨ v / 2 ^ n % 2 = 1 := by omega
    rcases this with h | h <;> simp [h, Nat.add_comm]

end Sys2Proof.Machine
end

