-- ==== Sys2Proof/Laws/Step.lean ====
section
/-! SUPPORT. What each command's commit can be, what a host access can do, and what a step can be:
the case lemmas that later proofs start from. -/

namespace Sys2Proof.Machine

/-! ### Commits -/

theorem exec_nop (s : State) : exec .nop s = .next (s.commit (.ok s)) := rfl
theorem exec_zarray (s : State) : exec .zarray s = .next (s.commit (zarray s)) := rfl
theorem exec_lzMatch (s : State) : exec .lzMatch s = .next (s.commit (lzMatch s)) := rfl
theorem exec_lzStep (s : State) : exec .lzStep s = .next (s.commit (lzStep s)) := rfl
theorem exec_lzRecon (s : State) : exec .lzRecon s = .next (s.commit (lzRecon s)) := rfl
theorem exec_triPut (s : State) : exec .triPut s = .next (s.commit (triPut s)) := rfl
theorem exec_triGet (s : State) : exec .triGet s = .next (s.commit (triGet s)) := rfl
theorem exec_hufBuild (s : State) : exec .hufBuild s = .next (s.commit (hufBuild s)) := rfl
theorem exec_hufEnc (sym : Byte) (s : State) : exec (.hufEnc sym) s = .next (s.commit (hufEnc sym s)) := rfl
theorem exec_hufTrie (s : State) : exec .hufTrie s = .next (s.commit (hufTrie s)) := rfl
theorem exec_hufDec (s : State) : exec .hufDec s = .next (s.commit (hufDec s)) := rfl
theorem exec_eoEnc (g : BitVec 1) (s : State) : exec (.eoEnc g) s = .next (s.commit (eoEnc g.toNat s)) := rfl
theorem exec_eoDec (g : BitVec 1) (s : State) : exec (.eoDec g) s = .next (s.commit (eoDec g.toNat s)) := rfl
theorem exec_bvClear (s : State) : exec .bvClear s = .next (s.commit (.ok (bvClear s))) := rfl
theorem exec_bvPut (n : BitVec 6) (s : State) : exec (.bvPut n) s = .next (s.commit (bvPut n.toNat s)) := rfl
theorem exec_bvGet (n : BitVec 6) (s : State) : exec (.bvGet n) s = .next (s.commit (bvGet n.toNat s)) := rfl
theorem exec_frameC (s : State) : exec .frameC s = execFrameC s := rfl
theorem exec_frameD (s : State) : exec .frameD s = execFrameD s := rfl

/-- FRAME_C commits a check-stage error, its container, or the execution-stage error BUF_FULL (R134, R140). -/
theorem execFrameC_cases (s : State) :
    (∃ c, s.frameCCheck = .error c ∧ execFrameC s = .next (s.commitErr c)) ∨
    (s.frameCCheck = .ok () ∧ s.frameBits.length ≤ s.cfg.bitbufCap ∧ execFrameC s = .next s.frameCOk.commitOk) ∨
    (s.frameCCheck = .ok () ∧ s.cfg.bitbufCap < s.frameBits.length ∧
      execFrameC s = .next (s.frameCLost.commitErr .bufFull)) := by
  unfold execFrameC
  cases h : s.frameCCheck with
  | error c => simp
  | ok u =>
    by_cases hb : s.frameBits.length ≤ s.cfg.bitbufCap
    · simp [hb]
    · simp [hb]; omega

/-- FRAME_D commits a check-stage error, the frame it read, or an execution-stage error (R135, R140). -/
theorem execFrameD_cases (s : State) :
    (∃ c, s.checkBvLen = .error c ∧ execFrameD s = .next (s.commitErr c)) ∨
    (∃ f k, s.checkBvLen = .ok () ∧ s.frameRead = .ok (f, k) ∧ execFrameD s = .next (s.frameDOk f k).commitOk) ∨
    (∃ c, s.checkBvLen = .ok () ∧ s.frameRead = .error c ∧ execFrameD s = .next (s.frameDLost.commitErr c)) := by
  unfold execFrameD
  cases h : s.checkBvLen with
  | error c => simp
  | ok u =>
    cases hr : s.frameRead with
    | error c => simp
    | ok p => exact .inr (.inl ⟨p.1, p.2, rfl, rfl, rfl⟩)

/-- Every command commits: no arm faults or refuses. -/
theorem exec_next (i : Instr) (s : State) : ∃ t, exec i s = .next t := by
  cases i
  case frameC => rcases execFrameC_cases s with ⟨_, _, h⟩ | ⟨_, _, h⟩ | ⟨_, _, h⟩ <;> exact ⟨_, h⟩
  case frameD => rcases execFrameD_cases s with ⟨_, _, h⟩ | ⟨_, _, _, _, h⟩ | ⟨_, _, _, h⟩ <;> exact ⟨_, h⟩
  all_goals exact ⟨_, rfl⟩

/-! ### Host accesses -/

/-- One access: nothing while rst_n is low, else a write at, or a read from, the place it lands. -/
theorem State.access_cases (s : State) (a : Access) :
    (s.rstN = false ∧ s.access a = (s, 0)) ∨
    (s.rstN = true ∧ a.write = true ∧ s.access a = (s.busWrite a.wdata (locate s.cfg a), 0)) ∨
    (s.rstN = true ∧ a.write = false ∧ s.access a = s.busRead (locate s.cfg a)) := by
  unfold State.access
  cases s.rstN <;> cases a.write <;> simp

/-- A read changes nothing, or uses up one draw (a memory read while BUSY, R60). -/
theorem State.busRead_state (s : State) (l : Loc) :
    (s.busRead l).1 = s ∨ (s.busy = true ∧ (s.busRead l).1 = { s with draws := s.draws + 1 }) := by
  unfold State.busRead
  cases l
  case csr off => left; dsimp only; split <;> rfl
  all_goals
    first
    | exact .inl rfl
    | (by_cases h : s.busy = true
       · exact .inr ⟨h, by simp [h, State.drawRead]⟩
       · exact .inl (by simp [h]))

/-- An access that is unmapped changes nothing and returns 0 (R54). -/
theorem State.access_unmapped {s : State} {a : Access} (h : locate s.cfg a = .unmapped) : s.access a = (s, 0) := by
  unfold State.access
  split
  · split <;> simp [h, State.busWrite, State.busRead]
  · rfl

/-! ### Steps -/

theorem step_eq (s : State) : step s = agentStep s.takeTurn s.turn := rfl

theorem State.turn_load (s : State) (w : Word) : (s.load w).turn = .engine := rfl

/-- The engine's step: the commit of the decoded command, or of ILLEGAL_CMD, while it is BUSY and rst_n
is high; nothing otherwise. -/
theorem engineStep_cases (s : State) :
    (s.busy = true ∧ s.rstN = true ∧ ∃ i, decode s.regs.cmd = .ok i ∧ engineStep s = exec i s) ∨
    (s.busy = true ∧ s.rstN = true ∧ (∃ e, decode s.regs.cmd = .error e) ∧
      engineStep s = .next (s.commitErr .illegalCmd)) ∨
    ((s.engine = .idle ∨ s.rstN = false) ∧ engineStep s = .next s) := by
  unfold engineStep State.busy
  cases he : s.engine <;> cases hr : s.rstN <;> simp
  cases hd : decode s.regs.cmd <;> simp

/-- What a step can be: a host access, the engine's step, or an edge of rst_n. -/
theorem step_cases {s t : State} (h : step s = .next t) :
    t = s.takeTurn.hostStep ∨ engineStep s.takeTurn = .next t ∨ t = s.takeTurn.assertReset ∨
      t = s.takeTurn.releaseReset := by
  rw [step_eq] at h
  cases ht : s.turn <;> rw [ht] at h
  · exact .inl (by simpa [agentStep] using h.symm)
  · exact .inr (.inl h)
  · exact .inr (.inr (.inl (by simpa [agentStep] using h.symm)))
  · exact .inr (.inr (.inr (by simpa [agentStep] using h.symm)))

/-- Every step answers a next state. -/
theorem step_next (s : State) : ∃ t, step s = .next t := by
  rw [step_eq]
  cases s.turn
  · exact ⟨_, rfl⟩
  · rcases engineStep_cases s.takeTurn with ⟨_, _, i, _, h⟩ | ⟨_, _, _, h⟩ | ⟨_, h⟩
    · obtain ⟨t, ht⟩ := exec_next i s.takeTurn
      exact ⟨t, h.trans ht⟩
    · exact ⟨_, h⟩
    · exact ⟨_, h⟩
  · exact ⟨_, rfl⟩
  · exact ⟨_, rfl⟩

/-- The step after an acceptance runs the decoded command on the accepted state. -/
theorem step_withFetchWord {s : State} {nbits w : Nat} {i : Instr} (h : decodeTableWord nbits w = some i) :
    step (s.withFetchWord nbits w) = exec i (s.withFetchWord nbits w).takeTurn := by
  have hd : decode (tableWord nbits w) = .ok i := by
    unfold decodeTableWord at h
    cases hd : decode (tableWord nbits w) with
    | ok j => rw [hd] at h; simpa [Except.toOption] using h
    | error e => rw [hd] at h; simp [Except.toOption] at h
  show engineStep (s.load (tableWord nbits w)).takeTurn = _
  unfold engineStep
  have : decode (s.load (tableWord nbits w)).takeTurn.regs.cmd = .ok i := hd
  rw [this]
  rfl

/-- What every step keeps, every run keeps. -/
theorem run_keeps {Inv : State → Prop} (keep : ∀ s t, Inv s → step s = .next t → Inv t) (k : Nat) (s t : State)
    (hs : Inv s) (h : Sys2Proof.core.run k s = .next t) : Inv t := by
  induction k generalizing s with
  | zero => cases h; exact hs
  | succ k ih =>
    obtain ⟨u, hu⟩ := step_next s
    refine ih u (keep s u hs hu) ?_
    have hc : Sys2Proof.core.step s = .next u := hu
    simpa [Host.Core.run, hc] using h

end Sys2Proof.Machine
end

