-- ==== Sys2Proof/Laws/Bus.lean ====
section
/-! SUPPORT. Where an access lands, and what an access at each kind of place does: the lemmas about the
bus that later proofs cite. -/

namespace Sys2Proof.Machine

/-! ### Where an access lands -/

/-- The offset of a 24-bit literal. -/
theorem toNat_ofNat24 {n : Nat} (h : n < 2 ^ 24) : (BitVec.ofNat 24 n).toNat = n := by
  rw [BitVec.toNat_ofNat]; exact Nat.mod_eq_of_lt h

/-- A word access to an aligned offset below 0x100 is at that CSR offset (R51, R52). -/
theorem locate_csr (c : Config) {o : Nat} (h : o < 0x100) (h4 : o % 4 = 0) (b : Bool) (v : Word) :
    locate c ⟨BitVec.ofNat 24 o, 2#2, b, v⟩ = .csr o := by
  have ho : (BitVec.ofNat 24 o).toNat = o := toNat_ofNat24 (by omega)
  have hb : (Access.mk (BitVec.ofNat 24 o) 2#2 b v).bytes? = some 4 := by simp [Access.bytes?]
  unfold locate
  rw [hb]
  dsimp only
  rw [ho, if_pos h, if_pos ⟨rfl, h4⟩]

/-- A word access that is not aligned is unmapped in the CSR window (R52, R54). -/
theorem locate_csr_misaligned (c : Config) {o : Nat} (h : o < 0x100) (h4 : o % 4 ≠ 0) (b : Bool) (v : Word) :
    locate c ⟨BitVec.ofNat 24 o, 2#2, b, v⟩ = .unmapped := by
  have ho : (BitVec.ofNat 24 o).toNat = o := toNat_ofNat24 (by omega)
  have hb : (Access.mk (BitVec.ofNat 24 o) 2#2 b v).bytes? = some 4 := by simp [Access.bytes?]
  unfold locate
  rw [hb]
  dsimp only
  rw [ho, if_pos h, if_neg (by simp [h4])]

/-- A word access to word `k` of the HUF_TABLE window (R51). -/
theorem locate_huf (c : Config) {k : Nat} (h : k < 4096) (b : Bool) (v : Word) :
    locate c ⟨BitVec.ofNat 24 (0x004000 + 4 * k), 2#2, b, v⟩ = .huf k := by
  have ho : (BitVec.ofNat 24 (0x004000 + 4 * k)).toNat = 0x004000 + 4 * k := toNat_ofNat24 (by omega)
  have hb : (Access.mk (BitVec.ofNat 24 (0x004000 + 4 * k)) 2#2 b v).bytes? = some 4 := by simp [Access.bytes?]
  unfold locate
  rw [hb]
  dsimp only
  have hk : (0x004000 + 4 * k - 0x004000) / 4 = k := by omega
  rw [ho, hk]
  repeat first | rw [if_neg (by omega)] | rw [if_pos (by omega)]

/-- A word access to entry `i` of the ZIN window (R51). -/
theorem locate_zin {c : Config} {i : Nat} (h : i < c.zcap) (hc : c.zcap ≤ 262144) (b : Bool) (v : Word) :
    locate c ⟨BitVec.ofNat 24 (0x100000 + 4 * i), 2#2, b, v⟩ = .zin i := by
  have ho : (BitVec.ofNat 24 (0x100000 + 4 * i)).toNat = 0x100000 + 4 * i := toNat_ofNat24 (by omega)
  have hb : (Access.mk (BitVec.ofNat 24 (0x100000 + 4 * i)) 2#2 b v).bytes? = some 4 := by simp [Access.bytes?]
  have hi : (0x100000 + 4 * i - 0x100000) / 4 = i := by omega
  unfold locate
  rw [hb]
  dsimp only
  rw [ho, hi]
  repeat first | rw [if_neg (by omega)] | rw [if_pos (by omega)]

/-- A word access to entry `i` of the ZOUT window (R51). -/
theorem locate_zout {c : Config} {i : Nat} (h : i < c.zcap) (hc : c.zcap ≤ 262144) (b : Bool) (v : Word) :
    locate c ⟨BitVec.ofNat 24 (0x200000 + 4 * i), 2#2, b, v⟩ = .zout i := by
  have ho : (BitVec.ofNat 24 (0x200000 + 4 * i)).toNat = 0x200000 + 4 * i := toNat_ofNat24 (by omega)
  have hb : (Access.mk (BitVec.ofNat 24 (0x200000 + 4 * i)) 2#2 b v).bytes? = some 4 := by simp [Access.bytes?]
  have hi : (0x200000 + 4 * i - 0x200000) / 4 = i := by omega
  unfold locate
  rw [hb]
  dsimp only
  rw [ho, hi]
  repeat first | rw [if_neg (by omega)] | rw [if_pos (by omega)]

/-- The byte windows fit their address windows (R7, R51). -/
theorem winCap_lt {c : Config} (hc : c.Legal) (win : ByteWin) :
    (win = .name → winCap c win ≤ 0x1000) ∧ (win = .content → winCap c win ≤ 0x400000) ∧
    (win = .bitbuf → winCap c win ≤ 0x800000) := by
  obtain ⟨_, h2, h3, _, _, h6, _⟩ := hc
  refine ⟨?_, ?_, ?_⟩ <;> rintro rfl <;> simp only [winCap] <;> omega

/-- An access in the range of a byte window is at the bytes that the window's rules give (R51). -/
theorem locate_window (c : Config) (win : ByteWin) {a : Access} {n : Nat} (hn : a.bytes? = some n)
    (hr : match win with
      | .name => 0x008000 ≤ a.addr.toNat ∧ a.addr.toNat < 0x009000
      | .content => 0x400000 ≤ a.addr.toNat ∧ a.addr.toNat < 0x800000
      | .bitbuf => 0x800000 ≤ a.addr.toNat) : locate c a = byteLoc c win a.addr.toNat n := by
  unfold locate
  rw [hn]
  generalize a.addr.toNat = o at hr ⊢
  cases win <;> simp only at hr ⊢ <;> repeat first | rw [if_neg (by omega)] | rw [if_pos (by omega)]

/-- Bytes aligned to their number are aligned in the block too: every window starts at a multiple of 4. -/
theorem ByteWin.base_add_mod (win : ByteWin) {i n : Nat} (h124 : n = 1 ∨ n = 2 ∨ n = 4) (ha : i % n = 0) :
    (win.base + i) % n = 0 := by
  rcases h124 with rfl | rfl | rfl <;> cases win <;> simp only [ByteWin.base] <;> omega

/-- bus_size gives 1, 2 or 4 bytes (R48). -/
theorem Access.bytes?_eq_some {a : Access} {n : Nat} (h : a.bytes? = some n) : n = 1 ∨ n = 2 ∨ n = 4 := by
  unfold Access.bytes? at h
  split_ifs at h <;> simp_all

/-- An aligned access of 1, 2 or 4 bytes inside a byte window is at those bytes (R51, R53). -/
theorem locate_bytes {c : Config} (hc : c.Legal) (win : ByteWin) {sz : BitVec 2} {i n : Nat} {b : Bool} {v : Word}
    (hn : Access.bytes? ⟨0, sz, b, v⟩ = some n) (ha : i % n = 0) (hi : i + n ≤ winCap c win) :
    locate c ⟨BitVec.ofNat 24 (win.base + i), sz, b, v⟩ = .bytes win i n := by
  have h124 := Access.bytes?_eq_some hn
  obtain ⟨h1, h2, h3⟩ := winCap_lt hc win
  have ho : (BitVec.ofNat 24 (win.base + i)).toNat = win.base + i :=
    toNat_ofNat24 (by cases win <;> simp only [ByteWin.base, true_imp_iff] at h1 h2 h3 ⊢ <;> omega)
  refine (locate_window c win (a := ⟨BitVec.ofNat 24 (win.base + i), sz, b, v⟩) hn ?_).trans ?_
  · simp only [ho]
    cases win <;> simp only [ByteWin.base, true_imp_iff] at h1 h2 h3 ⊢ <;> omega
  · simp only [ho]
    unfold byteLoc
    rw [Nat.add_sub_cancel_left]
    exact if_pos ⟨win.base_add_mod h124 ha, hi⟩

/-- The place is one that an access of `n` bytes can reach: n bytes of a byte window, else a word (R52,
R53). -/
def Loc.HasWidth (n : Nat) : Loc → Prop
  | .unmapped => True
  | .bytes _ _ m => m = n
  | .csr _ => n = 4
  | .huf _ => n = 4
  | .zin _ => n = 4
  | .zout _ => n = 4

/-- An access lands where its width can. -/
theorem locate_hasWidth {c : Config} {a : Access} {n : Nat} (hn : a.bytes? = some n) : (locate c a).HasWidth n := by
  have hb : ∀ (w : ByteWin) (o : Nat), (byteLoc c w o n).HasWidth n := fun w o =>
    iteInduction (motive := Loc.HasWidth n) (fun _ => rfl) (fun _ => trivial)
  unfold locate
  rw [hn]
  simp only
  repeat' first
    | exact hb _ _
    | exact trivial
    | apply iteInduction (motive := Loc.HasWidth n) <;> intro h
    | exact h.1
    | exact h.1.1

/-! ### The CSR map -/

/-- Every CSR is found at its offset. -/
theorem csrAt_offset (r : Csr) : csrAt r.offset = some r := by cases r <;> rfl

theorem Csr.offset_lt (r : Csr) : r.offset < 0x070 := by cases r <;> decide

theorem Csr.offset_aligned (r : Csr) : r.offset % 4 = 0 := by cases r <;> rfl

/-- The reserved offsets hold no CSR (R23). -/
theorem csrAt_reserved {o : Nat} (h : 0x070 ≤ o) : csrAt o = none := by
  unfold csrAt
  rw [List.find?_eq_none]
  intro r _
  have := r.offset_lt
  simp only [beq_iff_eq]
  omega

/-- A word access to a CSR's offset is at that CSR. -/
theorem locate_offset (c : Config) (r : Csr) (b : Bool) (v : Word) :
    locate c ⟨BitVec.ofNat 24 r.offset, 2#2, b, v⟩ = .csr r.offset :=
  locate_csr c (Nat.lt_trans r.offset_lt (by decide)) r.offset_aligned b v

/-! ### Accesses -/

/-- While rst_n is low an access does nothing (R149). -/
theorem State.access_inReset {s : State} (h : s.rstN = false) (a : Access) : s.access a = (s, 0) := by
  simp [State.access, h]

/-- A read of a CSR returns its value and changes nothing. -/
theorem State.access_read_csr {s : State} (h : s.rstN = true) (r : Csr) (v : Word) :
    s.access ⟨BitVec.ofNat 24 r.offset, 2#2, false, v⟩ = (s, s.readCsr r) := by
  unfold State.access
  rw [if_pos h]
  simp only [locate_offset, State.busRead, csrAt_offset]
  rfl

/-- A read of a memory window while BUSY is a draw of the access's width (R60). -/
theorem State.access_read_busy {s : State} {a : Access} {n : Nat} (hb : s.busy = true) (hr : s.rstN = true)
    (hw : a.write = false) (hn : a.bytes? = some n) (hu : locate s.cfg a ≠ .unmapped)
    (hc : ∀ o, locate s.cfg a ≠ .csr o) : s.access a = s.drawRead n := by
  have h := locate_hasWidth (c := s.cfg) hn
  have ha : s.access a = s.busRead (locate s.cfg a) := by simp [State.access, hr, hw]
  rw [ha]
  cases hl : locate s.cfg a <;> rw [hl] at h <;> simp_all [State.busRead, Loc.HasWidth]

/-- A write of a CSR while IDLE. -/
theorem State.access_write_csr_idle {s : State} (h : s.rstN = true) (hi : s.engine = .idle) (r : Csr) (v : Word) :
    s.access ⟨BitVec.ofNat 24 r.offset, 2#2, true, v⟩ = (s.writeCsrIdle v r, 0) := by
  unfold State.access
  rw [if_pos h]
  simp [locate_offset, State.busWrite, csrAt_offset, State.busy, hi]

/-- A write of a CSR while BUSY. -/
theorem State.access_write_csr_busy {s : State} (h : s.rstN = true) (hb : s.busy = true) (r : Csr) (v : Word) :
    s.access ⟨BitVec.ofNat 24 r.offset, 2#2, true, v⟩ = (s.writeCsrBusy v r, 0) := by
  unfold State.access
  rw [if_pos h]
  simp [locate_offset, State.busWrite, csrAt_offset, hb]

theorem State.engine_cases (s : State) : s.engine = .idle ∨ s.busy = true := by
  rw [← s.busy_eq_false]; cases s.busy <;> simp

/-- A write of CTRL acts alike in both engine states (R25). -/
theorem State.access_write_ctrl {s : State} (h : s.rstN = true) (v : Word) :
    s.access ⟨0x008#24, 2#2, true, v⟩ = (s.writeCtrl v, 0) := by
  rcases s.engine_cases with he | he
  · exact State.access_write_csr_idle h he .ctrl v
  · exact State.access_write_csr_busy h he .ctrl v

/-- A write of STATUS acts alike in both engine states (R26). -/
theorem State.access_write_status {s : State} (h : s.rstN = true) (v : Word) :
    s.access ⟨0x00C#24, 2#2, true, v⟩ = ({ s with regs := s.regs.writeStatus v }, 0) := by
  rcases s.engine_cases with he | he
  · exact State.access_write_csr_idle h he .status v
  · exact State.access_write_csr_busy h he .status v

/-- An access at a CSR offset is at the CSR `r`. -/
theorem State.busWrite_csr {s : State} {off : Nat} {r : Csr} (h : csrAt off = some r) (v : Word) :
    s.busWrite v (.csr off) = if s.busy then s.writeCsrBusy v r else s.writeCsrIdle v r := by
  simp [State.busWrite, h]

/-- A CSR is found only at its offset. -/
theorem csrAt_eq_some {off : Nat} {r : Csr} (h : csrAt off = some r) : off = r.offset := by
  unfold csrAt at h
  have := List.find?_some h
  simp only [beq_iff_eq] at this
  exact this.symm

/-- While BUSY every write but one of CTRL or STATUS changes nothing, or only sets OVR (R59). -/
theorem State.busWrite_busy {s : State} (hb : s.busy = true) (v : Word) (l : Loc) (h1 : l ≠ .csr 0x008)
    (h2 : l ≠ .csr 0x00C) :
    s.busWrite v l = if l = .csr 0x010 then { s with regs := { s.regs with ovr := true } } else s := by
  cases l with
  | csr off =>
    cases hc : csrAt off with
    | none =>
      have : off ≠ 0x010 := by rintro rfl; exact absurd hc (by decide)
      simp [State.busWrite, hc, this]
    | some r =>
      have ho := csrAt_eq_some hc
      subst ho
      rw [State.busWrite_csr hc, if_pos hb]
      cases r <;> simp_all [State.writeCsrBusy, Csr.offset]
  | _ => simp [State.busWrite, hb]

end Sys2Proof.Machine
end

