-- ==== Sys2Proof/Laws/Commands.lean ====
section
/-! SUPPORT. The checks that commands share, what no command's meaning touches, and the memories that a
reset or an execution-stage error redraws. -/

namespace Sys2Proof.Machine

/-! ### Checks -/

theorem State.checkBvLen_eq_ok {s : State} {u : Unit} :
    s.checkBvLen = .ok u ↔ s.regs.bvLen.toNat ≤ s.cfg.bitbufCap := require_eq_ok

theorem State.checkBvLen_eq_error {s : State} {c : ErrCode} :
    s.checkBvLen = .error c ↔ s.cfg.bitbufCap < s.regs.bvLen.toNat ∧ c = .param := by
  unfold State.checkBvLen; rw [require_eq_error, Nat.not_le]

theorem State.checkCode_eq_ok {s : State} {sym : Nat} {u : Unit} :
    s.checkCode sym = .ok u ↔ s.hufValid sym = true ∧ s.hufLen sym ≠ 0 := by
  unfold State.checkCode
  rw [bind_eq_ok]
  simp

/-- NO_CODE comes before BAD_TABLE (R100, R113). -/
theorem State.checkCode_eq_error {s : State} {sym : Nat} {c : ErrCode} :
    s.checkCode sym = .error c ↔
      (s.hufValid sym = false ∧ c = .noCode) ∨ (s.hufValid sym = true ∧ s.hufLen sym = 0 ∧ c = .badTable) := by
  unfold State.checkCode
  rw [bind_eq_error]
  simp

theorem State.needTrie_eq_ok {s : State} {t : Trie} : s.needTrie = .ok t ↔ s.trie = some t := by
  unfold State.needTrie; cases s.trie <;> simp

theorem State.needTrie_eq_error {s : State} {c : ErrCode} : s.needTrie = .error c ↔ s.trie = none ∧ c = .noCode := by
  unfold State.needTrie; cases s.trie <;> simp [eq_comm]

theorem State.lzCheck_eq_ok {s : State} {u : Unit} :
    s.lzCheck = .ok u ↔ (s.regs.lookaheadSize.toNat ≠ 0 ∧ s.regs.lookaheadSize.toNat ≤ s.cfg.lmax) ∧
      s.regs.windowSize.toNat ≤ s.cfg.wmax ∧ s.regs.clen.toNat ≤ s.cfg.contentCap := by
  unfold State.lzCheck
  simp [bind_eq_ok]

/-- LZ_CHECK raises PARAM only (R83). -/
theorem State.lzCheck_eq_error {s : State} {c : ErrCode} (h : s.lzCheck = .error c) : c = .param := by
  unfold State.lzCheck at h
  simp only [bind_eq_error, require_eq_error] at h
  rcases h with h | ⟨_, _, h | ⟨_, _, h⟩⟩ <;> exact h.2

/-! ### What no command touches -/

/-- What the updates of a command leave alone: the parameters, the pin, the host, the schedule, and the
fields of STATUS, CTRL and ERRCODE, which only the protocol writes (R17, R138). -/
structure LeavesControl (s t : State) : Prop where
  cfg     : t.cfg = s.cfg
  rstN    : t.rstN = s.rstN
  host    : t.host = s.host
  turns   : t.turns = s.turns
  ovr     : t.regs.ovr = s.regs.ovr
  irqEn   : t.regs.irqEn = s.regs.irqEn
  err     : t.regs.err = s.regs.err
  done    : t.regs.done = s.regs.done
  errCode : t.regs.errCode = s.regs.errCode

theorem LeavesControl.refl (s : State) : LeavesControl s s := ⟨rfl, rfl, rfl, rfl, rfl, rfl, rfl, rfl, rfl⟩

/-- Updates that leave control alone commit as Ok. -/
theorem LeavesControl.okCommit {s t : State} (h : LeavesControl s t) : OkCommit s t.commitOk :=
  ⟨⟨h.cfg, h.rstN, h.host, h.turns, rfl, h.ovr, h.irqEn⟩, rfl, h.err, h.errCode⟩

/-- Updates that leave control alone commit as Err with the protocol's frame. -/
theorem LeavesControl.commitFrame {s t : State} (h : LeavesControl s t) (c : ErrCode) :
    CommitFrame s (t.commitErr c) :=
  ⟨h.cfg, h.rstN, h.host, h.turns, rfl, h.ovr, h.irqEn⟩

theorem State.appendChecked_leaves {s t : State} {bs : Bits} (h : s.appendChecked bs = .ok t) : LeavesControl s t := by
  rw [State.appendChecked_eq] at h
  split at h
  · cases h; constructor <;> rfl
  · simp at h

theorem zarray_leaves {s t : State} (h : zarray s = .ok t) : LeavesControl s t := by
  simp only [zarray, bind_eq_ok] at h
  obtain ⟨_, _, h⟩ := h
  split at h <;> cases h <;> constructor <;> rfl

theorem lzMatch_leaves {s t : State} (h : lzMatch s = .ok t) : LeavesControl s t := by
  simp only [lzMatch, bind_eq_ok] at h
  obtain ⟨_, _, _, _, h⟩ := h
  cases h; constructor <;> rfl

theorem lzStep_leaves {s t : State} (h : lzStep s = .ok t) : LeavesControl s t := by
  simp only [lzStep, bind_eq_ok] at h
  obtain ⟨_, _, _, _, h⟩ := h
  cases h; constructor <;> rfl

theorem lzRecon_leaves {s t : State} (h : lzRecon s = .ok t) : LeavesControl s t := by
  simp only [lzRecon, bind_eq_ok] at h
  obtain ⟨_, _, _, _, h⟩ := h
  cases h; constructor <;> rfl

theorem triPut_leaves {s t : State} (h : triPut s = .ok t) : LeavesControl s t := by
  simp only [triPut, bind_eq_ok] at h
  obtain ⟨_, _, _, _, h⟩ := h
  exact State.appendChecked_leaves h

theorem triGet_leaves {s t : State} (h : triGet s = .ok t) : LeavesControl s t := by
  simp only [triGet, bind_eq_ok] at h
  obtain ⟨_, _, _, _, _, _, h⟩ := h
  cases h; constructor <;> rfl

theorem hufBuild_leaves {s t : State} (h : hufBuild s = .ok t) : LeavesControl s t := by
  simp only [hufBuild, bind_eq_ok] at h
  obtain ⟨_, _, _, _, h⟩ := h
  cases h; constructor <;> rfl

theorem hufEnc_leaves {sym : Byte} {s t : State} (h : hufEnc sym s = .ok t) : LeavesControl s t := by
  simp only [hufEnc, bind_eq_ok] at h
  obtain ⟨_, _, _, _, h⟩ := h
  exact State.appendChecked_leaves h

theorem hufTrie_leaves {s t : State} (h : hufTrie s = .ok t) : LeavesControl s t := by
  simp only [hufTrie, bind_eq_ok] at h
  obtain ⟨_, _, h⟩ := h
  cases h; constructor <;> rfl

theorem hufDec_leaves {s t : State} (h : hufDec s = .ok t) : LeavesControl s t := by
  simp only [hufDec, bind_eq_ok] at h
  obtain ⟨_, _, _, _, _, _, h⟩ := h
  cases h; constructor <;> rfl

theorem eoEnc_leaves {g : Nat} {s t : State} (h : eoEnc g s = .ok t) : LeavesControl s t := by
  simp only [eoEnc, bind_eq_ok] at h
  obtain ⟨_, _, _, _, h⟩ := h
  exact State.appendChecked_leaves h

theorem eoDec_leaves {g : Nat} {s t : State} (h : eoDec g s = .ok t) : LeavesControl s t := by
  simp only [eoDec, bind_eq_ok] at h
  obtain ⟨_, _, _, _, h⟩ := h
  cases h; constructor <;> rfl

theorem bvClear_leaves (s : State) : LeavesControl s (bvClear s) := by constructor <;> rfl

theorem bvPut_leaves {n : Nat} {s t : State} (h : bvPut n s = .ok t) : LeavesControl s t := by
  simp only [bvPut, bind_eq_ok] at h
  obtain ⟨_, _, _, _, h⟩ := h
  exact State.appendChecked_leaves h

theorem bvGet_leaves {n : Nat} {s t : State} (h : bvGet n s = .ok t) : LeavesControl s t := by
  simp only [bvGet, bind_eq_ok] at h
  obtain ⟨_, _, _, _, h⟩ := h
  cases h; constructor <;> rfl

theorem State.frameCOk_leaves (s : State) : LeavesControl s s.frameCOk := by
  constructor <;> simp [State.frameCOk]

theorem State.frameDOk_leaves (s : State) (f : Frame) (k : Nat) : LeavesControl s (s.frameDOk f k) := by
  constructor <;> simp [State.frameDOk]

theorem State.frameCLost_leaves (s : State) : LeavesControl s s.frameCLost := by constructor <;> rfl

theorem State.frameDLost_leaves (s : State) : LeavesControl s s.frameDLost := by constructor <;> rfl

/-- The commit of an all-or-nothing command whose updates leave control alone. -/
theorem State.commit_leaves {s : State} {r : Except ErrCode State} (h : ∀ u, r = .ok u → LeavesControl s u) :
    (∃ u, LeavesControl s u ∧ s.commit r = u.commitOk) ∨ (∃ u c, LeavesControl s u ∧ s.commit r = u.commitErr c) := by
  rcases s.commit_cases r with ⟨u, hu, hc⟩ | ⟨c, _, hc⟩
  · exact .inl ⟨u, h u hu, hc⟩
  · exact .inr ⟨s, c, .refl s, hc⟩

/-- Every command commits as Ok or as Err, its updates leaving control alone (R138). -/
theorem exec_commits (i : Instr) (s : State) :
    ∃ t, exec i s = .next t ∧
      ((∃ u, LeavesControl s u ∧ t = u.commitOk) ∨ (∃ u c, LeavesControl s u ∧ t = u.commitErr c)) := by
  cases i
  case frameC =>
    rcases execFrameC_cases s with ⟨c, _, h⟩ | ⟨_, _, h⟩ | ⟨_, _, h⟩
    · exact ⟨_, h, .inr ⟨s, c, .refl s, rfl⟩⟩
    · exact ⟨_, h, .inl ⟨_, s.frameCOk_leaves, rfl⟩⟩
    · exact ⟨_, h, .inr ⟨_, _, s.frameCLost_leaves, rfl⟩⟩
  case frameD =>
    rcases execFrameD_cases s with ⟨c, _, h⟩ | ⟨f, k, _, _, h⟩ | ⟨c, _, _, h⟩
    · exact ⟨_, h, .inr ⟨s, c, .refl s, rfl⟩⟩
    · exact ⟨_, h, .inl ⟨_, s.frameDOk_leaves f k, rfl⟩⟩
    · exact ⟨_, h, .inr ⟨_, _, s.frameDLost_leaves, rfl⟩⟩
  case nop => exact ⟨_, exec_nop s, State.commit_leaves fun u h => by cases h; exact .refl s⟩
  case zarray => exact ⟨_, exec_zarray s, State.commit_leaves fun _ => zarray_leaves⟩
  case lzMatch => exact ⟨_, exec_lzMatch s, State.commit_leaves fun _ => lzMatch_leaves⟩
  case lzStep => exact ⟨_, exec_lzStep s, State.commit_leaves fun _ => lzStep_leaves⟩
  case lzRecon => exact ⟨_, exec_lzRecon s, State.commit_leaves fun _ => lzRecon_leaves⟩
  case triPut => exact ⟨_, exec_triPut s, State.commit_leaves fun _ => triPut_leaves⟩
  case triGet => exact ⟨_, exec_triGet s, State.commit_leaves fun _ => triGet_leaves⟩
  case hufBuild => exact ⟨_, exec_hufBuild s, State.commit_leaves fun _ => hufBuild_leaves⟩
  case hufEnc sym => exact ⟨_, exec_hufEnc sym s, State.commit_leaves fun _ => hufEnc_leaves⟩
  case hufTrie => exact ⟨_, exec_hufTrie s, State.commit_leaves fun _ => hufTrie_leaves⟩
  case hufDec => exact ⟨_, exec_hufDec s, State.commit_leaves fun _ => hufDec_leaves⟩
  case eoEnc g => exact ⟨_, exec_eoEnc g s, State.commit_leaves fun _ => eoEnc_leaves⟩
  case eoDec g => exact ⟨_, exec_eoDec g s, State.commit_leaves fun _ => eoDec_leaves⟩
  case bvClear => exact ⟨_, exec_bvClear s, State.commit_leaves fun u h => by cases h; exact bvClear_leaves s⟩
  case bvPut n => exact ⟨_, exec_bvPut n s, State.commit_leaves fun _ => bvPut_leaves⟩
  case bvGet n => exact ⟨_, exec_bvGet n s, State.commit_leaves fun _ => bvGet_leaves⟩

/-! ### Redrawn memories -/

/-- Redrawing a list of memories changes those and the draw counter only. -/
theorem State.redrawAll_frame (s : State) (ms : List MemName) :
    (s.redrawAll ms).cfg = s.cfg ∧ (s.redrawAll ms).rstN = s.rstN ∧ (s.redrawAll ms).engine = s.engine ∧
    (s.redrawAll ms).regs = s.regs ∧ (s.redrawAll ms).trie = s.trie ∧ (s.redrawAll ms).host = s.host ∧
    (s.redrawAll ms).turns = s.turns ∧ (s.redrawAll ms).draws = s.draws + ms.length ∧
    ∀ m, m ∉ ms → ∀ k, (s.redrawAll ms).mems.entry m k = s.mems.entry m k := by
  induction ms generalizing s with
  | nil => exact ⟨rfl, rfl, rfl, rfl, rfl, rfl, rfl, rfl, fun _ _ _ => rfl⟩
  | cons a ms ih =>
    obtain ⟨h1, h2, h3, h4, h5, h6, h7, h8, h9⟩ := ih (s.redraw a)
    refine ⟨h1, h2, h3, h4, h5, h6, h7, ?_, fun m hm k => ?_⟩
    · show (State.redrawAll (s.redraw a) ms).draws = _
      rw [h8, State.redraw_draws, List.length_cons]; omega
    · show (State.redrawAll (s.redraw a) ms).mems.entry m k = _
      rw [h9 m (fun h => hm (by simp [h])) k, State.redraw_mems]
      have : m ≠ a := fun h => hm (by simp [h])
      cases m <;> cases a <;> first | rfl | exact absurd rfl this

theorem Mems.redraw_comm {a b : MemName} (h : a ≠ b) (ms : Mems) (d e : Nat) :
    (ms.redraw d b).redraw e a = (ms.redraw e a).redraw d b := by
  cases a <;> cases b <;> first | rfl | exact absurd rfl h

/-- Each memory of the list is UNSPECIFIED by a draw of its own. -/
theorem State.redrawAll_drawn (s : State) (ms : List MemName) (m : MemName) (hm : m ∈ ms) :
    ∃ e, s.draws ≤ e ∧ e < s.draws + ms.length ∧ (s.redrawAll ms).mems.redraw e m = (s.redrawAll ms).mems := by
  induction ms generalizing s with
  | nil => simp at hm
  | cons a ms ih =>
    by_cases h : m ∈ ms
    · obtain ⟨e, h1, h2, h3⟩ := ih (s.redraw a) h
      rw [State.redraw_draws] at h1 h2
      exact ⟨e, by omega, by rw [List.length_cons]; omega, h3⟩
    · have : m = a := by simpa [h] using hm
      subst this
      refine ⟨s.draws, Nat.le_refl _, by rw [List.length_cons]; omega, ?_⟩
      have key : ∀ (l : List MemName) (t : State), m ∉ l → t.mems.redraw s.draws m = t.mems →
          (t.redrawAll l).mems.redraw s.draws m = (t.redrawAll l).mems := by
        intro l
        induction l with
        | nil => exact fun t _ ht => ht
        | cons b l ihl =>
          intro t hb ht
          refine ihl (t.redraw b) (fun h => hb (by simp [h])) ?_
          have hne : m ≠ b := fun h => hb (by simp [h])
          rw [State.redraw_mems, Mems.redraw_comm hne, ht]
      exact key ms (s.redraw m) h (by rw [State.redraw_mems]; cases m <;> rfl)

end Sys2Proof.Machine
end

