-- ==== Sys2Proof/Laws/Host.lean ====
section
/-! SUPPORT. Host accesses and the host: an access neither reads nor writes the host agent, and what the lines
of a host program come down to (30_encoding.md R74). -/

namespace Sys2Proof.Machine

/-! ### The block does not see the host -/

/-- `s` with another host agent. -/
def State.onHost (s : State) (h : HostAgent) : State := { s with host := h }

/-- Redrawing memories does not see the host. -/
theorem State.redrawAll_onHost (s : State) (h : HostAgent) (ms : List MemName) :
    (s.onHost h).redrawAll ms = (s.redrawAll ms).onHost h := by
  unfold State.redrawAll
  induction ms generalizing s with
  | nil => rfl
  | cons m ms ih => exact ih (s.redraw m)

/-- A soft reset does not see the host. -/
theorem State.softReset_onHost (s : State) (h : HostAgent) : (s.onHost h).softReset = s.softReset.onHost h := by
  unfold State.softReset
  have : (s.onHost h).inFlightMems = s.inFlightMems := rfl
  simp only [this, State.redrawAll_onHost]
  rfl

/-- An access does not see the host. -/
theorem State.access_onHost (s : State) (h : HostAgent) (a : Access) :
    (s.onHost h).access a = ((s.access a).1.onHost h, (s.access a).2) := by
  have hc : (s.onHost h).cfg = s.cfg := rfl
  have hw : ∀ v, (s.onHost h).writeCtrl v = (s.writeCtrl v).onHost h := by
    intro v; unfold State.writeCtrl; split
    · exact s.softReset_onHost h
    · rfl
  have hb : (s.onHost h).busy = s.busy := rfl
  unfold State.access
  rw [hc, show (s.onHost h).rstN = s.rstN from rfl]
  generalize locate s.cfg a = l
  split
  · split
    · refine Prod.ext ?_ rfl
      simp only
      unfold State.busWrite
      cases l <;> simp only [hb]
      · cases csrAt _ <;> simp only []
        rename_i r
        split
        · cases r <;> first | exact hw _ | rfl
        · cases r <;> first | exact hw _ | rfl
      · split <;> rfl
      · split <;> first | rfl | (rename_i w _ _ _; cases w <;> rfl)
      · split <;> rfl
    · unfold State.busRead
      cases l <;> simp only [hb]
      · cases csrAt _ <;> simp only []
        rename_i r
        refine Prod.ext rfl ?_
        show (s.onHost h).readCsr r = s.readCsr r
        cases r <;> rfl
      · split <;> rfl
      · split <;> rfl
      · split <;> rfl
      · split <;> rfl
  · rfl

/-- An access leaves the host as it was. -/
theorem State.access_host (s : State) (a : Access) : (s.access a).1.host = s.host := by
  have := State.access_onHost s s.host a
  have h2 : s.onHost s.host = s := rfl
  rw [h2] at this
  exact congrArg (fun p : State × Word => p.1.host) this

/-! ### Lines -/

/-- The platform address BASE + `a` is the block offset `a`, for every `a` of the 24-bit space (R50). -/
theorem blockOffset_base_add (c : Config) {a : Nat} (h : a < 2 ^ 24) :
    blockOffset c (c.base + a) = some (BitVec.ofNat 24 a) := by
  unfold blockOffset
  rw [if_pos ⟨by omega, by omega⟩, Nat.add_sub_cancel_left]

/-- An address outside the block's space has no offset. -/
theorem blockOffset_eq_none {c : Config} {addr : Nat} (h : addr < c.base ∨ c.base + 2 ^ 24 ≤ addr) :
    blockOffset c addr = none := if_neg (by omega)

/-- MemWrite inside the 24-bit space is the access (R16). -/
theorem State.memWrite_of_lt (s : State) {a : Nat} (h : a < 2 ^ 24) (z : BitVec 2) (v : Word) :
    s.memWrite a z v = (s.access ⟨BitVec.ofNat 24 a, z, true, v⟩).1 := by
  unfold State.memWrite
  rw [blockOffset_base_add _ h]

/-- An access at a platform address of the block is the access at its offset (R50). -/
theorem State.hostPlatform_inside (s : State) (p : PlatformAccess) {o : Nat} (h : o < 2 ^ 24)
    (hp : p.addr = s.cfg.base + o) :
    s.hostPlatform p = s.hostAccess ⟨BitVec.ofNat 24 o, p.size, p.write, p.wdata⟩ := by
  unfold State.hostPlatform
  rw [hp, blockOffset_base_add _ h]

/-- An access elsewhere on the platform does not reach the block (R50). -/
theorem State.hostPlatform_outside (s : State) (p : PlatformAccess)
    (h : p.addr < s.cfg.base ∨ s.cfg.base + 2 ^ 24 ≤ p.addr) : s.hostPlatform p = s.hostElsewhere p.write := by
  unfold State.hostPlatform
  rw [blockOffset_eq_none h]

/-- `wr` is one write of the register. -/
theorem State.hostWr_eq (s : State) (r : Csr) (v : Word) :
    s.hostWr r v = (s.access ⟨BitVec.ofNat 24 r.offset, 2#2, true, v⟩).1 :=
  s.memWrite_of_lt (Nat.lt_trans r.offset_lt (by decide)) 2#2 v

/-- `rd` keeps the register's value as the operand, and records it where it is ERRCODE's. -/
theorem State.hostRd_eq {s : State} (h : s.rstN = true) (r : Csr) :
    s.hostRd r = s.onHost { s.host with
      operand := s.readCsr r
      errSeen := if r = .errcode then s.host.errSeen ++ [s.readCsr r] else s.host.errSeen } := by
  unfold State.hostRd State.hostAccess
  rw [State.access_read_csr h]
  simp only [State.readsErrCode, locate_offset]
  cases r <;> rfl

/-- One access by the host is the access, and then its own affair. -/
theorem State.hostAccess_eq (s : State) (a : Access) : ∃ h, s.hostAccess a = (s.access a).1.onHost h := by
  unfold State.hostAccess
  by_cases hw : a.write = true
  · exact ⟨(s.access a).1.host, by simp only [hw]; rfl⟩
  · exact ⟨_, by simp only [hw]; rfl⟩

/-- `t` is `s` after one move of the host: the host itself, and nothing, one draw or one access of the block. -/
def State.HostMoves (s t : State) : Prop :=
  ∃ h, t = s.onHost h ∨ t = ({ s with draws := s.draws + 1 } : State).onHost h ∨ ∃ a, t = (s.access a).1.onHost h

theorem State.HostMoves.refl (s : State) : s.HostMoves s := ⟨s.host, .inl rfl⟩

/-- What the host does with itself afterwards adds nothing. -/
theorem State.HostMoves.onHost {s t : State} (hm : s.HostMoves t) (h : HostAgent) : s.HostMoves (t.onHost h) := by
  obtain ⟨_, rfl | rfl | ⟨a, rfl⟩⟩ := hm
  · exact ⟨h, .inl rfl⟩
  · exact ⟨h, .inr (.inl rfl)⟩
  · exact ⟨h, .inr (.inr ⟨a, rfl⟩)⟩

theorem State.HostMoves.access (s : State) (a : Access) : s.HostMoves (s.access a).1 :=
  ⟨s.host, .inr (.inr ⟨a, by rw [← s.access_host a]; rfl⟩)⟩

theorem State.HostMoves.hostAccess (s : State) (a : Access) : s.HostMoves (s.hostAccess a) := by
  obtain ⟨h, e⟩ := s.hostAccess_eq a
  exact ⟨h, .inr (.inr ⟨a, e⟩)⟩

theorem State.HostMoves.memWrite (s : State) (a : Nat) (z : BitVec 2) (v : Word) : s.HostMoves (s.memWrite a z v) := by
  unfold State.memWrite
  split
  · exact .access s _
  · exact .refl s

theorem State.HostMoves.hostPlatform (s : State) (p : PlatformAccess) : s.HostMoves (s.hostPlatform p) := by
  unfold State.hostPlatform
  split
  · exact .hostAccess s _
  · unfold State.hostElsewhere
    split
    · exact .refl s
    · exact ⟨_, .inr (.inl rfl)⟩

theorem State.HostMoves.nextAccess {s t : State} (hm : s.HostMoves t) (n : Nat) : s.HostMoves (t.nextAccess n) := by
  unfold State.nextAccess
  split <;> exact hm.onHost _

/-- What a line of a host program can do to the block: nothing, one draw, or one access (R74). -/
theorem hostOp_moves (s : State) (op : HostOp) : s.HostMoves (hostOp s op) := by
  cases op with
  | access a => exact (State.HostMoves.hostAccess s a).onHost _
  | platform p => exact (State.HostMoves.hostPlatform s p).onHost _
  | issue i => exact (State.HostMoves.memWrite s _ _ _).onHost _
  | wr r v => exact (State.HostMoves.memWrite s _ _ _).onHost _
  | wrb w i bs =>
    simp only [hostOp]
    split
    · exact (State.HostMoves.memWrite s _ _ _).nextAccess _
    · exact (State.HostMoves.refl s).onHost _
  | wrw w i ws =>
    simp only [hostOp]
    split
    · exact (State.HostMoves.memWrite s _ _ _).nextAccess _
    · exact (State.HostMoves.refl s).onHost _
  | rd r => exact (State.HostMoves.hostAccess s _).onHost _
  | blt r1 r2 n =>
    simp only [hostOp]
    split
    · exact (State.HostMoves.hostAccess s _).onHost _
    · split <;> exact (State.HostMoves.hostAccess s _).onHost _
  | berr n => simp only [hostOp]; split <;> exact (State.HostMoves.hostAccess s _).onHost _
  | wait =>
    simp only [hostOp]; split
    · exact .hostAccess s _
    · exact (State.HostMoves.hostAccess s _).onHost _
  | halt => exact .refl s

/-- What a step of the host can do to the block. -/
theorem State.hostStep_moves (s : State) : s.HostMoves s.hostStep := by
  unfold State.hostStep
  split
  · exact hostOp_moves s _
  · exact .refl s

/-- A line that makes the access `acc` for each element of a list makes them in order, one a step, and the host
then goes on to the next line. -/
theorem runLine {α : Type} (op : State → State) (acc : State → α × Nat → State) (l : List α)
    (hacc : ∀ s h x, acc (s.onHost h) x = (acc s x).onHost h)
    (hh : ∀ s x, (acc s x).host = s.host)
    (hop : ∀ (s : State) (k : Nat) (b : α), s.host.sub = k → l[k]? = some b → op s = (acc s (b, k)).nextAccess l.length)
    (s : State) (h0 : s.host.sub = 0) (hl : l ≠ []) :
    op^[l.length] s = (l.zipIdx.foldl acc s).nextLine := by
  have hfh : ∀ (q : List (α × Nat)) s, (q.foldl acc s).host = s.host := by
    intro q; induction q with
    | nil => intro s; rfl
    | cons x q ih => intro s; rw [List.foldl_cons, ih, hh]
  have key : ∀ k, k < l.length → op^[k] s = ((l.zipIdx.take k).foldl acc s).onHost { s.host with sub := k } := by
    intro k hk
    induction k with
    | zero =>
      rw [List.take_zero]
      show s = s.onHost _
      rw [← h0]; rfl
    | succ k ih =>
      rw [Function.iterate_succ_apply', ih (by omega)]
      rw [hop _ k l[k] rfl (by simp), hacc]
      have : (l.zipIdx.take (k + 1)) = l.zipIdx.take k ++ [(l[k], k)] := by
        rw [List.take_add_one]; congr 1; simp
      rw [this, List.foldl_append, List.foldl_cons, List.foldl_nil]
      unfold State.nextAccess
      rw [if_pos (by show k + 1 < _; omega)]
      simp [State.onHost]
  obtain ⟨k, hk⟩ : ∃ k, l.length = k + 1 := ⟨l.length - 1, by have := List.length_pos_iff.2 hl; omega⟩
  rw [hk, Function.iterate_succ_apply', key k (by omega), hop _ k l[k] rfl (by simp), hacc]
  have : l.zipIdx = l.zipIdx.take k ++ [(l[k], k)] := by
    have h1 : l.zipIdx = l.zipIdx.take (k + 1) := by rw [List.take_of_length_le]; simp; omega
    conv_lhs => rw [h1]
    rw [List.take_add_one]; congr 1; simp
  conv_rhs => rw [this, List.foldl_append, List.foldl_cons, List.foldl_nil]
  unfold State.nextAccess
  rw [if_neg (by show ¬ (k + 1 < _); omega)]
  simp only [State.nextLine, State.onHost, hh, hfh]

end Sys2Proof.Machine
end

