-- ==== Sys2Proof/Laws/PerInstr.lean ====
section
/-! SUPPORT. Statements made per instruction, one lemma per constructor (LAWS.json). -/

namespace Sys2Proof.Laws.EncodeShape

/-- The word of a well-formed command carries its opcode, and is selected by a row of the opcode map
with that opcode (30_encoding.md R69, R71). -/
def Statement (i : Instr) : Prop :=
  i.wellFormed = true → ∃ r ∈ opcodeMap, r.opc = opcOf (encode i) ∧ r.selects (encode i) = true

theorem nop : Statement .nop := fun _ => by decide
theorem zarray : Statement .zarray := fun _ => by decide
theorem lzMatch : Statement .lzMatch := fun _ => by decide
theorem lzStep : Statement .lzStep := fun _ => by decide
theorem lzRecon : Statement .lzRecon := fun _ => by decide
theorem triPut : Statement .triPut := fun _ => by decide
theorem triGet : Statement .triGet := fun _ => by decide
theorem hufBuild : Statement .hufBuild := fun _ => by decide
theorem hufTrie : Statement .hufTrie := fun _ => by decide
theorem hufDec : Statement .hufDec := fun _ => by decide
theorem bvClear : Statement .bvClear := fun _ => by decide
theorem frameC : Statement .frameC := fun _ => by decide
theorem frameD : Statement .frameD := fun _ => by decide

theorem hufEnc (sym : Byte) : Statement (.hufEnc sym) := fun _ => by
  revert sym; decide +kernel

theorem eoEnc (gen : BitVec 1) : Statement (.eoEnc gen) := fun _ => by
  revert gen; decide

theorem eoDec (gen : BitVec 1) : Statement (.eoDec gen) := fun _ => by
  revert gen; decide

theorem bvPut (nbits : BitVec 6) : Statement (.bvPut nbits) := by
  revert nbits; unfold Statement; decide +kernel

theorem bvGet (nbits : BitVec 6) : Statement (.bvGet nbits) := by
  revert nbits; unfold Statement; decide +kernel

end Sys2Proof.Laws.EncodeShape
end

