-- ==== Sys2Proof/Laws/Readers.lean ====
section
/-! SUPPORT. What each reader does with the next field of a stream: the equations that proofs about EO_READ,
TRIPLE_READ and FRAME_PARSE cite (42_lz77.md R95, R97; 44_elias.md R118; 46_container.md R132). -/

namespace Sys2Proof.Machine

/-! ### Integers and their binary representations -/

/-- bin_n is the inverse of val (R124). -/
theorem binFixed_val (bs : Bits) : binFixed bs.length (val bs) = bs := by
  apply List.ext_getElem
  · simp
  · intro i h1 h2
    simp only [binFixed, List.getElem_map, List.getElem_range]
    exact val_testBit bs i h2

/-- A sequence that leads with 1 denotes a number of its own length. -/
theorem val_true_bounds (c : Bits) : 2 ^ c.length ≤ val (true :: c) ∧ val (true :: c) < 2 ^ (c.length + 1) := by
  have := val_lt (true :: c)
  rw [val_cons] at this ⊢
  simp only [Bool.toNat_true, List.length_cons] at this ⊢
  omega

/-- Where it leads with 1 its length is that number's. -/
theorem log2_val (c : Bits) : (val (true :: c)).log2 = c.length := by
  obtain ⟨h1, h2⟩ := val_true_bounds c
  have hp : 0 < 2 ^ c.length := Nat.two_pow_pos _
  rw [Nat.log2_eq_iff (by omega)]
  exact ⟨h1, h2⟩

/-- bin of the number that such a sequence denotes is the sequence. -/
theorem bin_val (c : Bits) : bin (val (true :: c)) = true :: c := by
  unfold bin; rw [log2_val]; exact binFixed_val (true :: c)

/-- The length of bin(N) (R13). -/
theorem bin_length (n : Nat) : (bin n).length = n.log2 + 1 := by simp [bin]

/-- bin(N) leads with 1 (R116). -/
theorem bin_cons {n : Nat} (h : 1 ≤ n) : ∃ c, bin n = true :: c ∧ c.length = n.log2 := by
  refine ⟨binFixed n.log2 n, ?_, by simp⟩
  unfold bin; rw [binFixed_succ]
  congr 1
  have h1 := Nat.log2_self_le (by omega : n ≠ 0)
  have h2 := @Nat.lt_log2_self n
  rw [Nat.testBit_eq_decide_div_mod_eq]
  have : n / 2 ^ n.log2 = 1 := by
    rw [Nat.div_eq_iff (Nat.two_pow_pos _)]
    rw [Nat.pow_succ] at h2; omega
  simp [this]

/-- val is the inverse of bin (R13). -/
theorem val_bin (n : Nat) : val (bin n) = n := by
  unfold bin; rw [val_binFixed]; exact Nat.mod_eq_of_lt Nat.lt_log2_self

/-! ### EO_READ -/

/-- A component that is not cut off: its first bit and the rest of it. -/
theorem component_cases {ell : Nat} {bs : Bits} (h1 : 1 ≤ ell) (h : ell ≤ bs.length) :
    ∃ b comp rest, bs = (b :: comp) ++ rest ∧ comp.length + 1 = ell := by
  cases bs with
  | nil => rw [List.length_nil] at h; omega
  | cons b bs =>
    rw [List.length_cons] at h
    exact ⟨b, bs.take (ell - 1), bs.drop (ell - 1), by simp, by rw [List.length_take]; omega⟩

/-- A component that leads with 1 is the payload (R118). -/
theorem eoReadLoop_payload (off fuel : Nat) (comp rest : Bits) :
    eoReadLoop off (fuel + 1) (comp.length + 1) (true :: comp ++ rest) =
      if val (true :: comp) - off ≤ 2 ^ 32 - 1 then .ok (val (true :: comp) - off, rest) else .error .overflow := by
  have := take_append (true :: comp) rest
  simp only [List.length_cons] at this
  unfold eoReadLoop
  rw [this]
  simp only [bind_ok]
  split
  · rename_i h; rw [require_pos h]; rfl
  · rename_i h; rw [require_neg h]; rfl

/-- Any other component gives the length of the next (R118). -/
theorem eoReadLoop_prefix (off fuel : Nat) (comp rest : Bits) :
    eoReadLoop off (fuel + 1) (comp.length + 1) (false :: comp ++ rest) =
      if val (true :: comp) + 1 ≤ 33 then eoReadLoop off fuel (val (true :: comp) + 1) rest else .error .overflow := by
  have := take_append (false :: comp) rest
  simp only [List.length_cons] at this
  conv_lhs => unfold eoReadLoop
  rw [this]
  show (require (val (true :: comp) + 1 ≤ 33) .overflow >>= fun _ =>
    eoReadLoop off fuel (val (true :: comp) + 1) rest) = _
  split
  · rename_i h; rw [require_pos h]; rfl
  · rename_i h; rw [require_neg h]; rfl

/-- A component that is cut off (R118, R123). -/
theorem eoReadLoop_cut (off fuel : Nat) {ell : Nat} {bs : Bits} (h : bs.length < ell) :
    eoReadLoop off (fuel + 1) ell bs = .error .truncated := by
  unfold eoReadLoop
  rw [take_eq_error.2 ⟨h, rfl⟩]; rfl

/-! ### Triples and reconstruction -/

/-- TRIPLE_READ is its three reads in order (R97). -/
theorem tripleRead_eq (t : Trie) (bs : Bits) :
    tripleRead t bs =
      (eoRead 1 bs >>= fun a => eoRead 1 a.2 >>= fun b => t.read b.2 >>= fun c => .ok ((a.1, b.1, c.1), c.2)) := rfl

/-- RECON_ONE raises BAD_STREAM, or makes the output longer by the length plus 1 and no longer than the limit
(R95). -/
theorem reconOne_cases (out : List Byte) (o l : Nat) (c : Byte) (n : Nat) :
    (((o = 0 ∧ 0 < l) ∨ out.length < o ∨ n < out.length + l + 1) ∧
      reconOne out (o, l, c) n .badStream = .error .badStream) ∨
    (∃ out', reconOne out (o, l, c) n .badStream = .ok out' ∧ out'.length = out.length + l + 1 ∧
      out.length + l + 1 ≤ n) := by
  unfold reconOne reconCheck
  by_cases h1 : o = 0 ∧ 0 < l
  · left; refine ⟨.inl h1, ?_⟩; rw [require_neg (fun h => h h1)]; rfl
  rw [require_pos h1, bind_ok]
  by_cases h2 : o ≤ out.length
  swap
  · left; refine ⟨.inr (.inl (by omega)), ?_⟩; rw [require_neg h2]; rfl
  rw [require_pos h2, bind_ok]
  by_cases h3 : out.length + l + 1 ≤ n
  swap
  · left; refine ⟨.inr (.inr (by omega)), ?_⟩; rw [require_neg h3]; rfl
  right
  rw [require_pos h3]
  exact ⟨_, rfl, by simp [reconSymbols]; omega, h3⟩

/-- One round of the triple loop (R132). -/
theorem readContent_succ (root : Trie) (n fuel : Nat) (out : List Byte) (bs : Bits) :
    readContent root n (fuel + 1) out bs =
      if out.length < n then
        (tripleRead root bs >>= fun t => reconOne out t.1 n .badStream >>= fun o => readContent root n fuel o t.2)
      else .ok (out, bs) := rfl

/-! ### Bytes and table entries -/

/-- A byte is cut off, or the stream leads with it (R132). -/
theorem readByte_cases (bs : Bits) :
    (bs.length < 8 ∧ readByte bs = .error .truncated) ∨
    ∃ (b : Byte) (r : Bits), bs = binFixed 8 b.toNat ++ r ∧ readByte bs = .ok (b, r) := by
  by_cases hl : bs.length < 8
  · left; refine ⟨hl, ?_⟩; unfold readByte; rw [take_eq_error.2 ⟨hl, rfl⟩]; rfl
  · right
    have h8 : (bs.take 8).length = 8 := by simp; omega
    have hv : val (bs.take 8) < 256 := by have := val_lt (bs.take 8); rw [h8] at this; exact this
    refine ⟨BitVec.ofNat 8 (val (bs.take 8)), bs.drop 8, ?_, ?_⟩
    · have : (BitVec.ofNat 8 (val (bs.take 8))).toNat = val (bs.take 8) := by
        rw [BitVec.toNat_ofNat]; exact Nat.mod_eq_of_lt hv
      rw [this]
      have := binFixed_val (bs.take 8)
      rw [h8] at this
      rw [this]; simp
    · unfold readByte; rw [take_eq_ok.2 ⟨by omega, rfl, rfl⟩]; rfl

/-- A byte that the stream leads with. -/
theorem readByte_binFixed (b : Byte) (r : Bits) : readByte (binFixed 8 b.toNat ++ r) = .ok (b, r) := by
  have := take_append (binFixed 8 b.toNat) r
  rw [binFixed_length] at this
  unfold readByte; rw [this]
  simp only [bind_ok, val_binFixed]
  congr 2
  apply BitVec.eq_of_toNat_eq
  have := b.isLt; simp; omega

/-- A name that the stream leads with. -/
theorem readBytes_flatMap (name : List Byte) (r : Bits) :
    readBytes name.length (name.flatMap (fun b => binFixed 8 b.toNat) ++ r) = .ok (name, r) := by
  induction name with
  | nil => rfl
  | cons b name ih =>
    have he : ∀ n bs, readBytes (n + 1) bs =
        (readByte bs >>= fun b => readBytes n b.2 >>= fun r => .ok (b.1 :: r.1, r.2)) := fun _ _ => rfl
    rw [List.length_cons, he, List.flatMap_cons, List.append_assoc, readByte_binFixed, bind_ok, ih]; rfl

/-- One entry of the table (R132). -/
theorem readEntries_succ (n prev : Nat) (bs : Bits) :
    readEntries (n + 1) prev bs =
      (readByte bs >>= fun s => eoRead 1 s.2 >>= fun l => require (l.1 ≠ 0 ∧ l.1 ≤ 255) .badTable >>= fun _ =>
        require (prev ≤ s.1.toNat) .badTable >>= fun _ => take l.1 l.2 >>= fun c =>
        readEntries n (s.1.toNat + 1) c.2 >>= fun r => .ok ((s.1, c.1) :: r.1, r.2)) := rfl

end Sys2Proof.Machine
end

