-- ==== Sys2Proof/Laws/Table.lean ====
section
/-! SUPPORT. What WRITE_TABLE leaves in HUF_TABLE (43_huffman.md R108). -/

namespace Sys2Proof.Machine

/-! ### A fold of block writes -/

/-- An entry outside every block written reads as before. -/
theorem Mem.read_foldl_outside {w : Nat} {α : Type} (p : α → Nat) (g : α → List (BitVec w)) (l : List α) (m : Mem w)
    (i : Nat) (h : ∀ a ∈ l, i < p a ∨ p a + (g a).length ≤ i) :
    (l.foldl (fun m a => m.writeList (p a) (g a)) m).read i = m.read i := by
  induction l generalizing m with
  | nil => rfl
  | cons a l ih =>
    rw [List.foldl_cons, ih _ fun b hb => h b (by simp [hb])]
    exact Mem.read_writeList_outside _ (h a (by simp))

/-- An entry inside one of several disjoint blocks reads that block's value. -/
theorem Mem.read_foldl_inside {w : Nat} {α : Type} (p : α → Nat) (g : α → List (BitVec w)) (l : List α) (m : Mem w)
    (hm : m.wf) (hd : l.Pairwise fun a b => p a + (g a).length ≤ p b) (a : α) (ha : a ∈ l) (k : Nat)
    (hk : k < (g a).length) :
    (l.foldl (fun m a => m.writeList (p a) (g a)) m).read (p a + k) = (g a)[k] := by
  induction l generalizing m with
  | nil => simp at ha
  | cons b l ih =>
    rw [List.pairwise_cons] at hd
    rw [List.foldl_cons]
    by_cases h : a ∈ l
    · exact ih _ (Mem.writeList_wf hm _ _) hd.2 h
    · have : a = b := by simpa [h] using ha
      subst this
      rw [Mem.read_foldl_outside p g l _ _ fun c hc => ?_]
      · exact Mem.read_writeList_inside hm hk
      · have := hd.1 c hc; omega

/-! ### Packed entries -/

theorem packCtl_valid (v : Bool) (len : Byte) : (packCtl v len).getLsbD 8 = v := by
  unfold packCtl
  rw [BitVec.getLsbD_append]
  simp

theorem packCtl_len (v : Bool) (len : Byte) : (packCtl v len).extractLsb' 0 8 = len := by
  revert v len; decide +kernel

/-- Bit 31 − j of CODEk is code bit 32k + j (R40). -/
theorem packCode_bit (bs : Bits) (k j : Nat) (h : j < 32) : (packCode bs k).getLsbD (31 - j) = bs.getD (32 * k + j) false := by
  unfold packCode
  have hb := val_testBit ((List.range 32).map fun j => bs.getD (32 * k + j) false) j (by simpa using h)
  simp only [List.length_map, List.length_range, List.getElem_map, List.getElem_range] at hb
  rw [BitVec.getLsbD_ofNat, ← hb]
  simp only [show 31 - j < 32 by omega, decide_true, Bool.true_and]

/-! ### WRITE_TABLE -/

/-- A code map as HUF_CODES and FRAME_PARSE return it: symbols strictly ascending, codes of at most 255
bits. -/
structure CodeMap.Ascending (p : CodeMap) : Prop where
  sorted : p.Pairwise fun a b => a.1.toNat < b.1.toNat
  short  : ∀ e ∈ p, e.2.length ≤ 255

/-- The CTL word of a symbol of the map. -/
theorem State.writeTable_ctl_mem (s : State) {p : CodeMap} (hp : p.Ascending) {e : Byte × Bits} (he : e ∈ p) :
    (s.writeTable p).mems.hufCtl.read e.1.toNat = packCtl true (BitVec.ofNat 8 e.2.length) := by
  have := Mem.read_foldl_inside (fun e : Byte × Bits => e.1.toNat)
    (fun e => [packCtl true (BitVec.ofNat 8 e.2.length)]) p (Mem.zeros 9) (by simp [Mem.wf, Mem.zeros])
    (hp.sorted.imp fun h => h) e he 0 (by simp)
  simpa [State.writeTable, Mem.writeList] using this

/-- The CTL word of any other symbol is 0. -/
theorem State.writeTable_ctl_not_mem (s : State) {p : CodeMap} {i : Nat} (h : ∀ e ∈ p, e.1.toNat ≠ i) :
    (s.writeTable p).mems.hufCtl.read i = 0 := by
  have := Mem.read_foldl_outside (fun e : Byte × Bits => e.1.toNat)
    (fun e => [packCtl true (BitVec.ofNat 8 e.2.length)]) p (Mem.zeros 9) i
    (fun e he => by have := h e he; simp only [List.length_singleton]; omega)
  simpa [State.writeTable, Mem.writeList, Mem.read, Mem.zeros, lookupCell, Fill.value] using this

/-- CODEk of a symbol of the map. -/
theorem State.writeTable_code_mem (s : State) {p : CodeMap} (hp : p.Ascending) {e : Byte × Bits} (he : e ∈ p) {k : Nat}
    (hk : k < 8) : (s.writeTable p).mems.hufCode.read (8 * e.1.toNat + k) = packCode e.2 k := by
  have := Mem.read_foldl_inside (fun e : Byte × Bits => 8 * e.1.toNat) (fun e => (List.range 8).map (packCode e.2)) p
    (Mem.zeros 32) (by simp [Mem.wf, Mem.zeros])
    (hp.sorted.imp fun h => by simp only [List.length_map, List.length_range]; omega) e he k (by simpa using hk)
  simpa [State.writeTable] using this

/-- CODEk of any other symbol is 0. -/
theorem State.writeTable_code_not_mem (s : State) {p : CodeMap} {i k : Nat} (h : ∀ e ∈ p, e.1.toNat ≠ i) (hk : k < 8) :
    (s.writeTable p).mems.hufCode.read (8 * i + k) = 0 := by
  have := Mem.read_foldl_outside (fun e : Byte × Bits => 8 * e.1.toNat) (fun e => (List.range 8).map (packCode e.2)) p
    (Mem.zeros 32) (8 * i + k)
    (fun e he => by have := h e he; simp only [List.length_map, List.length_range]; omega)
  simpa [State.writeTable, Mem.read, Mem.zeros, lookupCell, Fill.value] using this

theorem State.writeTable_valid_mem (s : State) {p : CodeMap} (hp : p.Ascending) {e : Byte × Bits} (he : e ∈ p) :
    (s.writeTable p).hufValid e.1.toNat = true := by
  unfold State.hufValid; rw [s.writeTable_ctl_mem hp he, packCtl_valid]

theorem State.writeTable_valid_not_mem (s : State) {p : CodeMap} {i : Nat} (h : ∀ e ∈ p, e.1.toNat ≠ i) :
    (s.writeTable p).hufValid i = false := by
  unfold State.hufValid; rw [s.writeTable_ctl_not_mem h]; rfl

theorem State.writeTable_len_mem (s : State) {p : CodeMap} (hp : p.Ascending) {e : Byte × Bits} (he : e ∈ p) :
    (s.writeTable p).hufLen e.1.toNat = e.2.length := by
  have := hp.short e he
  unfold State.hufLen
  rw [s.writeTable_ctl_mem hp he, packCtl_len, BitVec.toNat_ofNat]
  exact Nat.mod_eq_of_lt (by omega)

/-- Every code bit of a symbol of the map, 0 past the end of its code (R108). -/
theorem State.writeTable_codeBit_mem (s : State) {p : CodeMap} (hp : p.Ascending) {e : Byte × Bits} (he : e ∈ p) {j : Nat}
    (hj : j < 256) : (s.writeTable p).hufCodeBit e.1.toNat j = e.2.getD j false := by
  unfold State.hufCodeBit
  rw [s.writeTable_code_mem hp he (by omega), packCode_bit _ _ _ (Nat.mod_lt _ (by decide)), Nat.div_add_mod]

theorem State.writeTable_bits_mem (s : State) {p : CodeMap} (hp : p.Ascending) {e : Byte × Bits} (he : e ∈ p) :
    (s.writeTable p).hufBits e.1.toNat = e.2 := by
  have hs := hp.short e he
  have hl := s.writeTable_len_mem hp he
  apply List.ext_getElem
  · simp [State.hufBits, hl]
  · intro k h1 h2
    simp only [State.hufBits, List.getElem_map, List.getElem_range]
    rw [s.writeTable_codeBit_mem hp he (by omega)]
    simp [List.getD, h2]

/-- The symbols are strictly ascending. -/
theorem symbols_sorted : symbols.Pairwise fun a b => a.toNat < b.toNat := by decide +kernel

theorem mem_symbols (sym : Byte) : sym ∈ symbols := by revert sym; decide +kernel

/-- Two lists that are strictly ascending by the same key and have the same elements are equal. -/
theorem ascending_ext {a b : List (Byte × Bits)} (ha : a.Pairwise fun x y => x.1.toNat < y.1.toNat)
    (hb : b.Pairwise fun x y => x.1.toNat < y.1.toNat) (h : ∀ e, e ∈ a ↔ e ∈ b) : a = b := by
  have hp : a.Perm b := by
    rw [List.perm_ext_iff_of_nodup]
    · exact h
    · exact ha.imp fun hxy he => by subst he; omega
    · exact hb.imp fun hxy he => by subst he; omega
  refine hp.eq_of_pairwise ?_ ha hb
  intro x y _ _ h1 h2
  omega

/-- The valid entries after WRITE_TABLE are the map. -/
theorem State.tablePairs_writeTable (s : State) {p : CodeMap} (hp : p.Ascending) : (s.writeTable p).tablePairs = p := by
  unfold State.tablePairs
  apply ascending_ext _ hp.sorted
  · intro e
    simp only [List.mem_map, List.mem_filter]
    constructor
    · rintro ⟨sym, ⟨_, hv⟩, rfl⟩
      by_cases h : ∃ e ∈ p, e.1.toNat = sym.toNat
      · obtain ⟨e, he, hes⟩ := h
        have hsym : sym = e.1 := BitVec.eq_of_toNat_eq hes.symm
        rw [hsym, s.writeTable_bits_mem hp he]
        exact he
      · rw [s.writeTable_valid_not_mem fun e he hes => h ⟨e, he, hes⟩] at hv
        exact absurd hv (by simp)
    · intro he
      exact ⟨e.1, ⟨mem_symbols _, s.writeTable_valid_mem hp he⟩, by rw [s.writeTable_bits_mem hp he]⟩
  · exact List.pairwise_map.2 (symbols_sorted.filter _)

/-- WRITE_TABLE leaves the map and nothing else in HUF_TABLE (R40, R108). -/
theorem State.writeTable_holds (s : State) {p : CodeMap} (hp : p.Ascending) : (s.writeTable p).HoldsTable p where
  pairs := s.tablePairs_writeTable hp
  zeros e he j hl hj := by rw [s.writeTable_codeBit_mem hp he hj]; simp [List.getD, hl]
  others sym hs k hk := by
    have hn : ∀ e ∈ p, e.1.toNat ≠ sym.toNat := fun e he h =>
      hs (List.mem_map.2 ⟨e, he, BitVec.eq_of_toNat_eq h⟩)
    have hd : (16 * sym.toNat + k) / 16 = sym.toNat := by omega
    have hm : (16 * sym.toNat + k) % 16 = k := by omega
    unfold State.readHuf
    rw [hd, hm]
    by_cases h0 : k = 0
    · rw [if_pos h0, s.writeTable_valid_not_mem hn, s.writeTable_ctl_not_mem hn]; rfl
    · rw [if_neg h0, if_pos hk, s.writeTable_code_not_mem hn (by omega)]

end Sys2Proof.Machine
end

