-- ==== Sys2Proof/Tests/Slice0.lean ====
section
/-! SUPPORT. Small tests, their expected results from spec/95_test_vectors.md (V<n>) and the rules' own
examples, and, for each statement that has hypotheses, a witness that meets them. -/

namespace Sys2Proof.Tests

open Sys2Proof Sys2Proof.Machine

-- One evaluation at a time: each waits in the kernel, and many at once exhaust the threads.
set_option Elab.async false

/-! ### Helpers -/

/-- The n bits of a number, first bit most significant. -/
def bits (n v : Nat) : Bits := (List.range n).map fun i => v.testBit (n - 1 - i)

/-- Symbols by their ASCII codes: "aacaacabcaba" is [1, 1, 3, 1, 1, 3, 1, 2, 3, 1, 2, 1] from 0x60. -/
def text (codes : List Nat) : List Byte := codes.map fun c => BitVec.ofNat 8 (0x60 + c)

def aac : List Byte := text [1, 1, 3, 1, 1, 3, 1, 2, 3, 1, 2, 1]

/-- The reset state with some registers set. -/
def withRegs (f : Regs → Regs) : State := { State.reset with regs := f State.reset.regs }

/-- `s` with a content, CLEN its length. -/
def putContent (x : List Byte) (s : State) : State :=
  { s with mems := { s.mems with content := s.mems.content.writeList 0 x }
           regs := { s.regs with clen := BitVec.ofNat 32 x.length } }

/-- `s` with a bit vector, BV_LEN its length. -/
def putBits (bs : Bits) (s : State) : State :=
  let t := s.writeBits 0 bs
  { t with regs := { t.regs with bvLen := BitVec.ofNat 32 bs.length } }

/-- `s` with a HUF_TABLE. -/
def putTable (p : CodeMap) (s : State) : State := s.writeTable p

/-- a = 1, b = 00, c = 01 (V13, first row). -/
def abc : CodeMap := [(0x61#8, [true]), (0x62#8, [false, false]), (0x63#8, [false, true])]

/-- The state after one command. -/
def ran (i : Instr) (s : State) : State :=
  match exec i s with
  | .next t => t
  | .fault _ => s
  | .refused _ => s

/-- The error of one command: its code, or 0 for Ok. -/
def errOf (i : Instr) (s : State) : Byte := if (ran i s).regs.err then (ran i s).regs.errCode else 0

/-! ### Well-formedness (R70) -/

theorem test_bvPut_nbits_0_refused : (Instr.bvPut 0#6).wellFormed = false := rfl
theorem test_bvPut_nbits_33_refused : (Instr.bvPut 33#6).wellFormed = false := rfl
theorem test_bvGet_nbits_0_refused : (Instr.bvGet 0#6).wellFormed = false := rfl
theorem test_bvGet_nbits_63_refused : (Instr.bvGet 63#6).wellFormed = false := rfl

/-! ### Decoding, the words written out from R69 and R71: OPC, then [23:8], then [7:0] -/

theorem test_decode_control : decode 0b00000000_0000000000000000_00000000#32 = .ok .nop := rfl

theorem test_decode_matcher :
    decode 0b00010000_0000000000000000_00000000#32 = .ok .zarray ∧
    decode 0b00010001_0000000000000000_00000000#32 = .ok .lzMatch := ⟨rfl, rfl⟩

theorem test_decode_lz77 :
    decode 0b00100000_0000000000000000_00000000#32 = .ok .lzStep ∧
    decode 0b00100001_0000000000000000_00000000#32 = .ok .lzRecon ∧
    decode 0b00100010_0000000000000000_00000000#32 = .ok .triPut ∧
    decode 0b00100011_0000000000000000_00000000#32 = .ok .triGet := ⟨rfl, rfl, rfl, rfl⟩

theorem test_decode_huffman :
    decode 0b00110000_0000000000000000_00000000#32 = .ok .hufBuild ∧
    decode 0b00110001_0000000000000000_01100011#32 = .ok (.hufEnc 0x63#8) ∧
    decode 0b00110001_0000000000000000_11111111#32 = .ok (.hufEnc 0xFF#8) ∧
    decode 0b00110010_0000000000000000_00000000#32 = .ok .hufTrie ∧
    decode 0b00110011_0000000000000000_00000000#32 = .ok .hufDec := ⟨rfl, rfl, rfl, rfl, rfl⟩

theorem test_decode_elias :
    decode 0b01000000_0000000000000000_00000000#32 = .ok (.eoEnc 0#1) ∧
    decode 0b01000000_0000000000000000_00000001#32 = .ok (.eoEnc 1#1) ∧
    decode 0b01000001_0000000000000000_00000000#32 = .ok (.eoDec 0#1) ∧
    decode 0b01000001_0000000000000000_00000001#32 = .ok (.eoDec 1#1) := ⟨rfl, rfl, rfl, rfl⟩

theorem test_decode_bitvector :
    decode 0b01010000_0000000000000000_00000000#32 = .ok .bvClear ∧
    decode 0b01010001_0000000000000000_00001000#32 = .ok (.bvPut 8#6) ∧
    decode 0b01010001_0000000000000000_00100000#32 = .ok (.bvPut 32#6) ∧
    decode 0b01010010_0000000000000000_00000001#32 = .ok (.bvGet 1#6) := ⟨rfl, rfl, rfl, rfl⟩

theorem test_decode_container :
    decode 0b01100000_0000000000000000_00000000#32 = .ok .frameC ∧
    decode 0b01100001_0000000000000000_00000000#32 = .ok .frameD := ⟨rfl, rfl⟩

/-- V7: the illegal words. -/
theorem test_decode_illegal :
    decode 0x00000001#32 = .error .reservedBit ∧ decode 0x12000000#32 = .error .unassignedOpcode ∧
    decode 0xFF000000#32 = .error .unassignedOpcode ∧ decode 0x40000002#32 = .error .reservedBit ∧
    decode 0x31000100#32 = .error .reservedBit ∧ decode 0x51000000#32 = .error .nbitsOutOfRange ∧
    decode 0x51000021#32 = .error .nbitsOutOfRange ∧ decode 0x5200003F#32 = .error .nbitsOutOfRange ∧
    decode 0x61000001#32 = .error .reservedBit := ⟨rfl, rfl, rfl, rfl, rfl, rfl, rfl, rfl, rfl⟩

theorem test_decodeTableWord :
    decodeTableWord 32 0x51000020 = some (.bvPut 32#6) ∧ decodeTableWord 32 0x51000000 = none := ⟨rfl, rfl⟩

theorem test_encode :
    encode (.hufEnc 0x63#8) = 0x31000063#32 ∧ encode (.eoDec 1#1) = 0x41000001#32 ∧
    encode (.bvPut 32#6) = 0x51000020#32 := ⟨rfl, rfl, rfl⟩

/-! ### One command each -/

/-- R77: commits with DONE = 1, ERR = 0, ERRCODE = 0. -/
theorem test_nop : (ran .nop (State.reset.accept 0)).statusWord = 0x2#32 ∧
    (ran .nop (State.reset.accept 0)).regs.errCode = 0 := by decide

/-- V9: a a b x a a b. -/
theorem test_zarray :
    ((ran .zarray { withRegs (fun r => { r with zlen := 7 }) with
      mems := { State.reset.mems with zin := State.reset.mems.zin.writeList 0 [1, 1, 2, 24, 1, 1, 2] } }).mems.zout.slice 1 6)
      = [1, 0, 0, 3, 1, 0] := by decide +kernel

/-- V9: ZCAP + 1. -/
theorem test_zarray_param : errOf .zarray (withRegs fun r => { r with zlen := 6146 }) = 0x02#8 := by decide

/-- V10: abxabyabz at 6. The largest offset wins a tie. -/
theorem test_lzMatch_tie :
    (ran .lzMatch (putContent (text [1, 2, 24, 1, 2, 25, 1, 2, 26]) (withRegs fun r => { r with pos := 6 }))).triple
      = (6, 2, 0x7A#8) := by decide +kernel

/-- V10: abcabc at 3, W = 3. A match that reaches the end shrinks. -/
theorem test_lzMatch_shrink :
    (ran .lzMatch (putContent (text [1, 2, 3, 1, 2, 3]) (withRegs fun r => { r with pos := 3, windowSize := 3 }))).triple
      = (3, 2, 0x63#8) := by decide +kernel

/-- R98's example: aaaaaaaa at 1. -/
theorem test_lzStep :
    (ran .lzStep (putContent (text [1, 1, 1, 1, 1, 1, 1, 1]) (withRegs fun r => { r with pos := 1 }))).triple
      = (1, 6, 0x61#8) ∧
    (ran .lzStep (putContent (text [1, 1, 1, 1, 1, 1, 1, 1]) (withRegs fun r => { r with pos := 1 }))).regs.pos = 8 := by
  decide +kernel

/-- V11: "aac" and (3, 4, 'b'): the copy wraps. -/
theorem test_lzRecon_tiles :
    (ran .lzRecon (putContent (text [1, 1, 3])
      (withRegs fun r => { r with triOffset := 3, triLength := 4, triSymbol := 0x62 }))).contentList
      = text [1, 1, 3, 1, 1, 3, 1, 2] := by decide +kernel

/-- V11: "a" and (0, 1, 'a'): a copy with no source. -/
theorem test_lzRecon_badStream :
    errOf .lzRecon (putContent (text [1]) (withRegs fun r => { r with triLength := 1, triSymbol := 0x61 })) = 0x08#8 := by
  decide +kernel

/-- V12: (3, 4, 'b') appends 000100 000101 00. -/
theorem test_triPut :
    (ran .triPut (putTable abc
      (withRegs fun r => { r with triOffset := 3, triLength := 4, triSymbol := 0x62 }))).bitsFrom 0
      = bits 14 0b00010000010100 := by decide +kernel

/-- V12: tri.get inverts it, after huf.trie. -/
theorem test_triGet :
    (ran .triGet (ran .hufTrie (putBits (bits 14 0b00010000010100) (putTable abc State.reset)))).triple
      = (3, 4, 0x62#8) ∧
    (ran .triGet (ran .hufTrie (putBits (bits 14 0b00010000010100) (putTable abc State.reset)))).regs.bvRptr = 14 := by
  decide +kernel

/-- V13, first row. -/
theorem test_hufBuild : (ran .hufBuild (putContent aac State.reset)).tablePairs = abc := by decide +kernel

/-- V13: abcde, whose weights all tie. -/
theorem test_hufBuild_ties :
    (ran .hufBuild (putContent (text [1, 2, 3, 4, 5]) State.reset)).tablePairs =
      [(0x61#8, bits 3 0b110), (0x62#8, bits 3 0b111), (0x63#8, bits 2 0b00), (0x64#8, bits 2 0b01),
       (0x65#8, bits 2 0b10)] := by decide +kernel

/-- V13: the HUF_TABLE words of 'c' as the host reads them. -/
theorem test_hufBuild_words :
    ((ran .hufBuild (putContent aac State.reset)).access ⟨0x0058C0#24, 2#2, false, 0⟩).2 = 0x80000002#32 ∧
    ((ran .hufBuild (putContent aac State.reset)).access ⟨0x0058C4#24, 2#2, false, 0⟩).2 = 0x40000000#32 := by
  decide +kernel

/-- V14: huf.enc 0x63, and a symbol with no code. -/
theorem test_hufEnc : (ran (.hufEnc 0x63) (putTable abc State.reset)).bitsFrom 0 = [false, true] ∧
    errOf (.hufEnc 0x64) (putTable abc State.reset) = 0x0B#8 := by decide +kernel

/-- V14: HT['a'] = 0, HT['b'] = 01. -/
theorem test_hufTrie_prefix :
    errOf .hufTrie (putTable [(0x61#8, [false]), (0x62#8, [false, true])] State.reset) = 0x07#8 := by decide +kernel

/-- V14: the trie of V13's first row, bits 01 at BV_RPTR = 5. -/
theorem test_hufDec :
    (ran .hufDec (ran .hufTrie (putTable abc (putBits (bits 7 0b1111101)
      (withRegs fun r => { r with bvRptr := 5 }))))).regs.result = 0x63#32 := by decide +kernel

/-- V14: the code of 'b' or 'c' is cut off by the end of the vector. -/
theorem test_hufDec_truncated :
    errOf .hufDec (ran .hufTrie (putTable abc (putBits [false] State.reset))) = 0x06#8 := by decide +kernel

/-- V15, V16: ARG = 0xFFFFFFFF, eo.enc 1 appends the 45 bits of OMEGA(2^32). -/
theorem test_eoEnc :
    (ran (.eoEnc 1) (withRegs fun r => { r with arg := 0xFFFFFFFF })).bitsFrom 0
      = bits 45 0b000001000000100000000000000000000000000000000 := by decide +kernel

/-- V16: ARG = 0, eo.enc 0. -/
theorem test_eoEnc_range : errOf (.eoEnc 0) State.reset = 0x0C#8 := by decide

/-- V17: 000100 reads 3. -/
theorem test_eoDec : (ran (.eoDec 1) (putBits (bits 6 0b000100) State.reset)).regs.result = 3#32 := by decide +kernel

/-- V17: 27 zero bits, and 28. -/
theorem test_eoDec_zeros : errOf (.eoDec 1) (putBits (bits 27 0) State.reset) = 0x06#8 ∧
    errOf (.eoDec 1) (putBits (bits 28 0) State.reset) = 0x09#8 := by decide +kernel

/-- V18. -/
theorem test_bvClear :
    (ran .bvClear (putBits (bits 8 0x74) (withRegs fun r => { r with bvRptr := 4 }))).regs.bvLen = 0 ∧
    (ran .bvClear (putBits (bits 8 0x74) (withRegs fun r => { r with bvRptr := 4 }))).byteAt .bitbuf 0 = 0x74#8 := by
  decide +kernel

/-- V18: BITBUF byte 0 = 0x74. -/
theorem test_bvPut : (ran (.bvPut 8) (withRegs fun r => { r with arg := 0x74 })).byteAt .bitbuf 0 = 0x74#8 := by
  decide +kernel

/-- V18: 0x100 does not fit 8 bits. -/
theorem test_bvPut_range : errOf (.bvPut 8) (withRegs fun r => { r with arg := 0x100 }) = 0x0C#8 := by decide

/-- V18: bits 01110100, BV_RPTR = 1: bv.get 7 reads 0x74, bv.get 8 runs past the end. -/
theorem test_bvGet :
    (ran (.bvGet 7) (putBits (bits 8 0x74) (withRegs fun r => { r with bvRptr := 1 }))).regs.result = 0x74#32 ∧
    errOf (.bvGet 8) (putBits (bits 8 0x74) (withRegs fun r => { r with bvRptr := 1 })) = 0x06#8 := by decide +kernel

/-- "z" / "z" of V19. -/
def zz : State :=
  let s := putContent (text [26]) (withRegs fun r => { r with nlen := 1 })
  { s with mems := { s.mems with name := s.mems.name.writeList 0 (text [26]) } }

/-- V19: 4f493d26, 32 bits. -/
theorem test_frameC : (ran .frameC zz).regs.bvLen = 32 ∧
    ((ran .frameC zz).access ⟨0x800000#24, 2#2, false, 0⟩).2 = 0x263D494F#32 := by decide +kernel

/-- V19: and back. -/
theorem test_frameD : (ran .frameD (putBits (bits 32 0x4F493D26) State.reset)).nameList = text [26] ∧
    (ran .frameD (putBits (bits 32 0x4F493D26) State.reset)).contentList = text [26] := by decide +kernel

/-- V20: 'a' = 0 and 'b' = 01; the outputs are emptied. -/
theorem test_frameD_badTable :
    errOf .frameD (putBits (bits 32 0b1_010_011_01100001_010_0_01100010_011_01) State.reset) = 0x07#8 ∧
    (ran .frameD (putBits (bits 32 0b1_010_011_01100001_010_0_01100010_011_01) State.reset)).regs.clen = 0 := by
  decide +kernel

/-! ### The protocol, the bus and reset -/

/-- V8: a CMD write while BUSY sets OVR and leaves CMD. -/
theorem test_overrun :
    ((State.reset.accept 0x50000000).access ⟨0x010#24, 2#2, true, 0x60000000⟩).1.regs.ovr = true ∧
    ((State.reset.accept 0x50000000).access ⟨0x010#24, 2#2, true, 0x60000000⟩).1.regs.cmd = 0x50000000#32 := by decide

/-- R60: an IRQ_EN written while BUSY is read back after the commit. -/
theorem test_busy_reads_S0 :
    (((State.reset.accept 0).access ⟨0x008#24, 2#2, true, 0x2⟩).1.access ⟨0x008#24, 2#2, false, 0⟩).2 = 0 ∧
    ((ran .nop ((State.reset.accept 0).access ⟨0x008#24, 2#2, true, 0x2⟩).1).access ⟨0x008#24, 2#2, false, 0⟩).2
      = 0x2#32 := by decide

/-- R60: STATUS while BUSY shows OVR as in S0, and BUSY. -/
theorem test_busy_status :
    (((State.reset.accept 0).access ⟨0x010#24, 2#2, true, 0⟩).1.access ⟨0x00C#24, 2#2, false, 0⟩).2 = 0x1#32 := by decide

/-- V8: STATUS = 0x0A, then NOP: 0x0A again at commit. -/
theorem test_ovr_sticks :
    (ran .nop ((withRegs fun r => { r with done := true, ovr := true }).accept 0)).statusWord = 0x0A#32 := by decide

/-- V8: irq rises when IRQ_EN is set with DONE pending. -/
theorem test_irq :
    ((withRegs fun r => { r with done := true }).access ⟨0x008#24, 2#2, true, 0x2⟩).1.irq = true := by decide

/-- V22: a soft reset gives WINDOW_SIZE back. -/
theorem test_softReset :
    ((withRegs fun r => { r with windowSize := 15 }).access ⟨0x008#24, 2#2, true, 0x1⟩).1.readCsr .windowSize
      = 0x3E8#32 := by decide

/-- R55: bv.put 1 with ARG = 1 on an empty vector over zero bits sets bit 7 of byte 0. -/
theorem test_bit_packing :
    ((ran (.bvPut 1) ((withRegs fun r => { r with arg := 1 }).writeBits 0 (bits 8 0))).access
      ⟨0x800000#24, 0#2, false, 0⟩).2 = 0x80#32 := by decide +kernel

/-- R53: the byte at the lower offset travels on bits [7:0]. -/
theorem test_byte_lanes :
    (((State.reset.access ⟨0x400002#24, 1#2, true, 0x6261⟩).1.access ⟨0x400003#24, 0#2, false, 0⟩).2) = 0x62#32 := by
  decide +kernel

/-- R76: `run bv.clear` from reset: the CMD write, then the engine's commit. -/
theorem test_host_issue :
    (match step { State.reset with host := { HostAgent.none with prog := [.issue .bvClear, .wait] } } with
      | .next t => (t.busy, t.regs.cmd, t.host.pc)
      | .fault _ => (false, 0, 0)
      | .refused _ => (false, 0, 0)) = (true, 0x50000000#32, 1) := by decide

/-- The step after `withFetchWord` is the commit. -/
theorem test_withFetchWord :
    (match step (State.reset.withFetchWord 32 0x00000000) with
      | .next t => (t.busy, t.regs.done)
      | .fault _ => (true, false)
      | .refused _ => (true, false)) = (false, true) := by decide

/-! ### Witnesses: states and operands that meet a statement's hypotheses, clause by clause -/

/-- The error that a check or a reader raised. -/
def raised {α : Type} : Except ErrCode α → Option ErrCode
  | .ok _ => none
  | .error c => some c

theorem eq_error_of_raised {α : Type} {r : Except ErrCode α} {c : ErrCode} (h : raised r = some c) : r = .error c := by
  cases r with
  | ok a => simp [raised] at h
  | error e => simpa [raised] using h

/-- A BUSY engine about to commit `w`, the engine's turn. -/
def loaded (w : Word) : State := State.reset.load w

theorem reset_memsOk : State.reset.MemsOk :=
  ⟨Mem.unspecified_ok (by decide), Mem.unspecified_ok (by decide), Mem.unspecified_ok (by decide),
    Mem.unspecified_ok (by decide), Mem.unspecified_ok (by decide), Mem.zeros_ok _ _, Mem.unspecified_ok (by decide)⟩

theorem reset_statusOk : State.reset.StatusOk := ⟨by decide, by decide, by decide⟩

theorem loaded_statusOk (w : Word) : (loaded w).StatusOk :=
  ⟨fun h => Bool.noConfusion h.1, fun _ => ⟨rfl, rfl⟩, fun h => Bool.noConfusion h⟩

theorem witness_DecodeInvertsEncode :
    (Instr.bvPut 1#6).wellFormed = true ∧ (Instr.bvPut 32#6).wellFormed = true ∧ (Instr.hufEnc 0xFF#8).wellFormed = true := by
  decide

theorem witness_EveryDecodedWordIsItsEncoding : decode 0x52000020#32 = .ok (.bvGet 32#6) := rfl

theorem witness_DecodeAcceptsExactlySelectedWords :
    (⟨0x52#8, .bvGet, .n, 0x52000000#32, 0xFFFFFFC0#32⟩ : OpRow) ∈ opcodeMap ∧
    (⟨0x52#8, .bvGet, .n, 0x52000000#32, 0xFFFFFFC0#32⟩ : OpRow).selects 0x52000020#32 = true := by decide

/-- The reset state with a schedule. -/
def withTurns (us : List Turn) : State := { State.reset with turns := us }

/-- The reset state whose host has one line, at that line. -/
def withLine (op : HostOp) : State := { State.reset with host := { HostAgent.none with prog := [op] } }

/-- The engine's turn while BUSY, while IDLE and in reset; the host's at a line and past its program; both edges
of the pin; a schedule, and none, BUSY and IDLE. -/
theorem witness_StepRunsDecodedCommand :
    ((loaded 0x51000020).turn = .engine ∧ (loaded 0x51000020).busy = true ∧ (loaded 0x51000020).rstN = true ∧
      decode (loaded 0x51000020).regs.cmd = .ok (.bvPut 32#6)) ∧
    ((withTurns [.engine]).turn = .engine ∧ (withTurns [.engine]).engine = .idle) ∧
    ((loaded 0).assertReset.turn = .engine ∧ (loaded 0).assertReset.rstN = false) ∧
    ((withLine .halt).turn = .host ∧ (withLine .halt).host.prog[(withLine .halt).host.pc]? = some .halt) ∧
    (State.reset.turn = .host ∧ State.reset.host.prog.length ≤ State.reset.host.pc) ∧
    (withTurns [.rstAssert]).turn = .rstAssert ∧ (withTurns [.rstRelease]).turn = .rstRelease ∧
    State.reset.rstN = true ∧ (withTurns [.host, .engine]).turns = .host :: [.engine] ∧
    ((State.reset.accept 0).turns = [] ∧ (State.reset.accept 0).busy = true) ∧
    (State.reset.turns = [] ∧ State.reset.busy = false) := by
  refine ⟨⟨rfl, rfl, rfl, rfl⟩, ⟨rfl, rfl⟩, ⟨rfl, rfl⟩, ⟨rfl, rfl⟩, ⟨rfl, by decide⟩, rfl, rfl, rfl, rfl, ⟨rfl, rfl⟩, rfl, rfl⟩

/-- The engine's turn while IDLE commits nothing, though CMD holds NOP's word (R27). -/
theorem test_idle_engine_commits_nothing : step (withTurns [.engine]) = .next State.reset := rfl

/-- Clause 2 at reset; clause 3 for each kind of illegal word. -/
theorem witness_IllegalWordCommitsIllegalCmd :
    (State.reset.rstN = true ∧ State.reset.engine = .idle) ∧
    ((loaded 0x12000000).turn = .engine ∧ (loaded 0x12000000).busy = true ∧ (loaded 0x12000000).rstN = true ∧
      decode (loaded 0x12000000).regs.cmd = .error .unassignedOpcode) ∧
    decode (loaded 0x00000001).regs.cmd = .error .reservedBit ∧
    decode (loaded 0x51000021).regs.cmd = .error .nbitsOutOfRange := ⟨⟨rfl, rfl⟩, ⟨rfl, rfl, rfl, rfl⟩, rfl, rfl⟩

/-- Clause 1 (IDLE) and clause 2 (BUSY). -/
theorem witness_CmdWriteIssuesOrOverruns :
    (State.reset.rstN = true ∧ State.reset.engine = .idle) ∧
    ((loaded 0).rstN = true ∧ (loaded 0).busy = true) := ⟨⟨rfl, rfl⟩, rfl, rfl⟩

/-- The last clause: an Ok commit and an Err commit. -/
theorem witness_CommandProtocol :
    ((loaded 0).StatusOk ∧ (loaded 0).busy = true ∧ exec .nop (loaded 0) = .next (loaded 0).commitOk) ∧
    ((loaded 0x30000000).StatusOk ∧ (loaded 0x30000000).busy = true ∧
      exec .hufBuild (loaded 0x30000000) = .next ((loaded 0x30000000).commitErr .emptyInput)) :=
  ⟨⟨loaded_statusOk _, rfl, rfl⟩, loaded_statusOk _, rfl, rfl⟩

theorem witness_NonFrameCommandsAreAllOrNothing :
    Instr.hufBuild ≠ .frameC ∧ Instr.hufBuild ≠ .frameD ∧
    exec .hufBuild State.reset = .next (State.reset.commitErr .emptyInput) := ⟨by decide, by decide, rfl⟩

theorem witness_AssertIsNeverRaised : exec .frameC State.reset = .next (State.reset.commitErr .emptyInput) := rfl

theorem witness_StatusReadsAndClears :
    (State.reset.rstN = true ∧ State.reset.engine = .idle) ∧
    ((loaded 0).rstN = true ∧ (loaded 0).engine = .busy ⟨false, false⟩) := ⟨⟨rfl, rfl⟩, rfl, rfl⟩

/-- V8's write of 0x2 with DONE alone set, and 0x4 with ERR alone set; and the clauses over a CTRL write. -/
theorem witness_InterruptFollowsCompletion :
    State.reset.rstN = true ∧
    (∀ r : Regs, r = { State.reset.regs with done := true } →
      (r.done = true → (0x2#32).getLsbD 1 = true) ∧ (r.err = true → (0x2#32).getLsbD 2 = true)) ∧
    (∀ r : Regs, r = { State.reset.regs with err := true } →
      (r.done = true → (0x4#32).getLsbD 1 = true) ∧ (r.err = true → (0x4#32).getLsbD 2 = true)) ∧
    ((0x0#32).getLsbD 0 = false ∧ (0x0#32).getLsbD 1 = false) ∧ ((0x2#32).getLsbD 0 = false ∧ (0x2#32).getLsbD 1 = true) ∧
    (0x1#32).getLsbD 0 = true :=
  ⟨rfl, by rintro _ rfl; decide, by rintro _ rfl; decide, by decide⟩

/-- A write to NLEN, and one to CMD. -/
theorem witness_BusyWritesAreIgnored :
    ((loaded 0).rstN = true ∧ (loaded 0).busy = true) ∧
    locate (loaded 0).cfg ⟨0x020#24, 2#2, true, 5⟩ = .csr 0x020 ∧
    locate (loaded 0).cfg ⟨0x010#24, 2#2, true, 5⟩ = .csr 0x010 := by decide

/-- A memory read, and a write of CTRL that is no soft reset. -/
theorem witness_SnapshotIsFrozenWhileBusy :
    (loaded 0).busy = true ∧ (loaded 0).rstN = true ∧
    (loaded 0).access ⟨0x008#24, 2#2, true, 2⟩ = ((loaded 0).writeCtrl 2, 0) ∧
    ¬ ((2#32).getLsbD 0 = true) ∧ Csr.errcode ≠ .ctrl ∧ Csr.errcode ≠ .status ∧
    (Access.bytes? ⟨0x400000#24, 0#2, false, 0⟩ = some 1 ∧
      locate (loaded 0).cfg ⟨0x400000#24, 0#2, false, 0⟩ = .bytes .content 0 1) ∧
    (Access.bytes? ⟨0x106000#24, 2#2, false, 0⟩ = some 4 ∧
      locate (loaded 0).cfg ⟨0x106000#24, 2#2, false, 0⟩ = .zin 6144) := by
  refine ⟨rfl, rfl, State.access_write_ctrl rfl 2, by decide, by decide, by decide, ⟨rfl, by decide⟩, rfl, by decide⟩

/-- Each case of an unmapped access, at the ends of its range, for the reference configuration. -/
theorem witness_UnmappedAccessesDoNothing :
    (∀ o ∈ [0x000100, 0x003FFF], 0x000100 ≤ o ∧ o < 0x004000) ∧
    (∀ o ∈ [0x009000, 0x0FFFFF], 0x009000 ≤ o ∧ o < 0x100000) ∧
    (∀ o ∈ [0x300000, 0x3FFFFF], 0x300000 ≤ o ∧ o < 0x400000) ∧
    (∀ p ∈ [(0x0000FE, 4), (0x004000, 2), (0x2FFFFF, 1)],
      (p.1 < 0x000100 ∨ (0x004000 ≤ p.1 ∧ p.1 < 0x008000) ∨ (0x100000 ≤ p.1 ∧ p.1 < 0x300000)) ∧
        (p.2 ≠ 4 ∨ p.1 % 4 ≠ 0)) ∧
    (∀ o ∈ [0x106004, 0x1FFFFC], 0x100000 ≤ o ∧ o < 0x200000 ∧ 0x100000 + 4 * State.reset.cfg.zcap ≤ o) ∧
    (∀ o ∈ [0x206004, 0x2FFFFC], 0x200000 ≤ o ∧ o < 0x300000 ∧ 0x200000 + 4 * State.reset.cfg.zcap ≤ o) ∧
    (∀ p ∈ [(0x008001, 2), (0x0080FE, 2), (0x008FFF, 1)],
      0x008000 ≤ p.1 ∧ p.1 < 0x009000 ∧ (p.1 % p.2 ≠ 0 ∨ 0x008000 + State.reset.cfg.nameCap < p.1 + p.2)) ∧
    (∀ p ∈ [(0x400002, 4), (0x500000, 1), (0x7FFFFF, 1)],
      0x400000 ≤ p.1 ∧ p.1 < 0x800000 ∧ (p.1 % p.2 ≠ 0 ∨ 0x400000 + State.reset.cfg.contentCap < p.1 + p.2)) ∧
    (∀ p ∈ [(0x800001, 4), (0xC00000, 4), (0xFFFFFF, 1)],
      0x800000 ≤ p.1 ∧ (p.1 % p.2 ≠ 0 ∨ 0x800000 + State.reset.cfg.bitbufCap / 8 < p.1 + p.2)) := by decide

/-- The last aligned access of each width in each byte window. -/
theorem witness_ByteLanesAreLittleEndian :
    (State.reset.rstN = true ∧ State.reset.engine = .idle ∧ State.reset.cfg.Legal) ∧ State.reset.MemsOk ∧
    (Access.bytes? ⟨0, 0#2, true, 0⟩ = some 1 ∧ 254 % 1 = 0 ∧ 254 + 1 ≤ winCap State.reset.cfg .name) ∧
    (Access.bytes? ⟨0, 1#2, true, 0⟩ = some 2 ∧ 1048574 % 2 = 0 ∧ 1048574 + 2 ≤ winCap State.reset.cfg .content) ∧
    (Access.bytes? ⟨0, 2#2, true, 0⟩ = some 4 ∧ 4194300 % 4 = 0 ∧ 4194300 + 4 ≤ winCap State.reset.cfg .bitbuf) :=
  ⟨by decide, reset_memsOk, by decide, by decide, by decide⟩

/-- The first and last words, a CTL word, CODE words and reserved words. -/
theorem witness_TableWriteClearsDecValid :
    (State.reset.rstN = true ∧ State.reset.engine = .idle ∧ State.reset.mems.hufCtl.wf ∧ State.reset.mems.hufCode.wf) ∧
    (0 < 4096 ∧ 0 % 16 = 0) ∧ (1 < 4096 ∧ 1 ≤ 1 % 16 ∧ 1 % 16 ≤ 8 ∧ 32 * (1 % 16 - 1) ≤ 31 ∧ 31 < 32 * (1 % 16)) ∧
    (4088 < 4096 ∧ 1 ≤ 4088 % 16 ∧ 4088 % 16 ≤ 8 ∧ 32 * (4088 % 16 - 1) ≤ 255 ∧ 255 < 32 * (4088 % 16)) ∧
    (4095 < 4096 ∧ 8 < 4095 % 16) := by decide

theorem witness_ZinKeepsLowHalfAndZoutIsReadOnly :
    State.reset.rstN = true ∧ State.reset.engine = .idle ∧ State.reset.cfg.Legal ∧ State.reset.mems.zin.wf ∧
    0 < State.reset.cfg.zcap ∧ 6144 < State.reset.cfg.zcap := by decide

/-- IDLE and BUSY for CTRL, a value with SRST = 0; and the reserved offsets' ends. -/
theorem witness_OperandCsrsStoreAnyValue :
    ((loaded 0).rstN = true ∧ (loaded 0).engine = .busy ⟨false, false⟩ ∧ (0xFFFFFFFE#32).getLsbD 0 = false) ∧
    (State.reset.rstN = true ∧ State.reset.engine = .idle) ∧ (0x070 ≤ 0x070 ∧ 0x070 < 0x100) ∧
    (0x070 ≤ 0x0FF ∧ 0x0FF < 0x100) ∧ (Csr.errcode ≠ .ctrl ∧ Csr.errcode ≠ .status) := by decide

theorem witness_HardwareResetRestoresTheResetState :
    (loaded 0x61000000).assertReset.rstN = false ∧ MemName.name ≠ .hufCtl := ⟨rfl, by decide⟩

/-- While IDLE; and while a FRAME_D is in flight, for a memory it writes and one it does not (V22). -/
theorem witness_SoftResetAbortsAndRestores :
    (State.reset.rstN = true ∧ (0xFFFFFFFF#32).getLsbD 0 = true ∧ State.reset.engine = .idle ∧
      MemName.bitbuf ∉ State.reset.inFlightMems) ∧
    ((loaded 0x61000000).rstN = true ∧ (loaded 0x61000000).busy = true ∧
      decode (loaded 0x61000000).regs.cmd = .ok .frameD ∧ MemName.content ∈ (loaded 0x61000000).inFlightMems ∧
      MemName.bitbuf ∉ (loaded 0x61000000).inFlightMems) ∧
    MemName.hufCode ≠ .hufCtl ∧ decode (loaded 0x12000000).regs.cmd = .error .unassignedOpcode := by
  refine ⟨by decide, ⟨rfl, rfl, rfl, by decide, by decide⟩, by decide, rfl⟩

/-- The reset state, its block at a platform address. -/
def withBase (b : Nat) : State := { State.reset with cfg := { Config.default with base := b } }

/-- A write at BASE + 0x020 stores in NLEN (R50). -/
theorem test_platform_write_at_base :
    (hostOp (withBase 0x40000000) (.platform ⟨0x40000020, 2#2, true, 5⟩)).regs.nlen = 5 := by decide

/-- Lines of one byte and one word at the ends of the block's space; an access of each direction; and platform
addresses at both ends of the block and beside them. -/
theorem witness_HostLinesDoTheirAccesses :
    (State.reset.rstN = true ∧ State.reset.host.sub = 0) ∧
    ([0x61#8] ≠ [] ∧ ByteWin.bitbuf.base + 8388607 + [0x61#8].length ≤ 2 ^ 24) ∧
    ([0#32] ≠ [] ∧ WordWin.zin.base + 4 * (3932159 + [0#32].length) ≤ 2 ^ 24) ∧
    (Access.mk 0x008#24 2#2 true 0).write = true ∧ (Access.mk 0x008#24 2#2 false 0).write = false ∧
    (withBase 0x40000000).rstN = true ∧
    (0 < 2 ^ 24 ∧ 0x40000000 = (withBase 0x40000000).cfg.base + 0) ∧
    (0xFFFFFF < 2 ^ 24 ∧ 0x40FFFFFF = (withBase 0x40000000).cfg.base + 0xFFFFFF) ∧
    0x3FFFFFFF < (withBase 0x40000000).cfg.base ∧ (withBase 0x40000000).cfg.base + 2 ^ 24 ≤ 0x41000000 := by decide

/-- ZCAP + 1; and ZCAP, with an entry to speak of. -/
theorem witness_ZarrayWritesPrefixLengths :
    (withRegs fun r => { r with zlen := 6146 }).cfg.zcap < (withRegs fun r => { r with zlen := 6146 }).regs.zlen.toNat ∧
    ((withRegs fun r => { r with zlen := 6145 }).regs.zlen.toNat ≤ (withRegs fun r => { r with zlen := 6145 }).cfg.zcap ∧
      State.reset.cfg.Legal ∧ State.reset.mems.zout.wf ∧ 1 ≤ 6144 ∧
      6144 < (withRegs fun r => { r with zlen := 6145 }).regs.zlen.toNat) ∧
    State.reset.regs.zlen.toNat = 0 := by decide

/-- Registers at which LZ_MATCH and LZ_STEP run, at the upper bounds. -/
def lzTop : State :=
  withRegs fun r => { r with lookaheadSize := 1024, windowSize := 4096, clen := 1048576, pos := 1048575 }

/-- Each PARAM cause; and the bounds. -/
theorem witness_LzMatchFindsTheMatch :
    (withRegs fun r => { r with lookaheadSize := 0 }).regs.lookaheadSize.toNat = 0 ∧
    State.reset.cfg.lmax < (withRegs fun r => { r with lookaheadSize := 1025 }).regs.lookaheadSize.toNat ∧
    State.reset.cfg.wmax < (withRegs fun r => { r with windowSize := 4097 }).regs.windowSize.toNat ∧
    State.reset.cfg.contentCap < (withRegs fun r => { r with clen := 1048577 }).regs.clen.toNat ∧
    State.reset.regs.clen.toNat ≤ State.reset.regs.pos.toNat ∧
    (1 ≤ lzTop.regs.lookaheadSize.toNat ∧ lzTop.regs.lookaheadSize.toNat ≤ lzTop.cfg.lmax ∧
      lzTop.regs.windowSize.toNat ≤ lzTop.cfg.wmax ∧ lzTop.regs.clen.toNat ≤ lzTop.cfg.contentCap ∧
      lzTop.regs.pos.toNat < lzTop.regs.clen.toNat) := by decide

/-- As for LZ_MATCH, whose hypotheses are the same. -/
theorem witness_LzStepMatchesAndAdvances :
    (1 ≤ lzTop.regs.lookaheadSize.toNat ∧ lzTop.regs.lookaheadSize.toNat ≤ lzTop.cfg.lmax ∧
      lzTop.regs.windowSize.toNat ≤ lzTop.cfg.wmax ∧ lzTop.regs.clen.toNat ≤ lzTop.cfg.contentCap ∧
      lzTop.regs.pos.toNat < lzTop.regs.clen.toNat) ∧
    (withRegs fun r => { r with lookaheadSize := 0 }).regs.lookaheadSize.toNat = 0 := by decide

/-- V11: CLEN = CONTENT_CAP + 1; no source; a source before the start; no room; a copy that ends at the
capacity. -/
theorem witness_LzReconReplaysTheTriple :
    State.reset.cfg.contentCap < 1048577 ∧
    (0 ≤ State.reset.cfg.contentCap ∧ ((0 : Nat) = 0 ∧ 0 < 1)) ∧ (2 ≤ State.reset.cfg.contentCap ∧ 2 < 3) ∧
    (1048573 ≤ State.reset.cfg.contentCap ∧ ¬ (1 = 0 ∧ 0 < 3) ∧ 1 ≤ 1048573 ∧ State.reset.cfg.contentCap < 1048573 + 3 + 1) ∧
    (¬ (1 = 0 ∧ 0 < 2) ∧ 1 ≤ 1048573 ∧ 1048573 + 2 + 1 ≤ State.reset.cfg.contentCap ∧ State.reset.cfg.Legal ∧
      State.reset.mems.content.wf) := by decide

/-- `s` with BV_LEN set. -/
def lenAt (n : Nat) (s : State) : State := { s with regs := { s.regs with bvLen := BitVec.ofNat 32 n } }

/-- A table with one code of length 0, which only the host can write. -/
def lenZero : State := State.reset.writeHuf (16 * 0x61) 0x80000000

/-- V12: PARAM; NO_CODE; BAD_TABLE; BUF_FULL at BITBUF_CAP − 2; and a triple that ends at the capacity. -/
theorem witness_TriPutAppendsTheTriple :
    State.reset.cfg.bitbufCap < (lenAt 33554433 State.reset).regs.bvLen.toNat ∧
    (State.reset.regs.bvLen.toNat ≤ State.reset.cfg.bitbufCap ∧ State.reset.hufValid 0x61 = false) ∧
    (lenZero.regs.bvLen.toNat ≤ lenZero.cfg.bitbufCap ∧ lenZero.hufValid 0x61 = true ∧ lenZero.hufLen 0x61 = 0) ∧
    ((lenAt 33554430 (putTable abc State.reset)).hufValid 0x61 = true ∧
      (lenAt 33554430 (putTable abc State.reset)).hufLen 0x61 ≠ 0 ∧
      (lenAt 33554430 (putTable abc State.reset)).regs.bvLen.toNat ≤ State.reset.cfg.bitbufCap ∧
      State.reset.cfg.bitbufCap < (lenAt 33554430 (putTable abc State.reset)).regs.bvLen.toNat +
        (eo1 0 ++ eo1 0 ++ (lenAt 33554430 (putTable abc State.reset)).hufBits 0x61).length) ∧
    ((lenAt 33554429 (putTable abc State.reset)).hufValid 0x61 = true ∧
      (lenAt 33554429 (putTable abc State.reset)).hufLen 0x61 ≠ 0 ∧
      (lenAt 33554429 (putTable abc State.reset)).regs.bvLen.toNat +
        (eo1 0 ++ eo1 0 ++ (lenAt 33554429 (putTable abc State.reset)).hufBits 0x61).length ≤ State.reset.cfg.bitbufCap ∧
      State.reset.cfg.Legal ∧ (lenAt 33554429 (putTable abc State.reset)).mems.bitbuf.wf) := by decide +kernel

/-- The table `abc` with its trie, and some bits. -/
def decoding (bs : Bits) : State := ran .hufTrie (putBits bs (putTable abc State.reset))

theorem decoding_trieOk (bs : Bits) (h : (decoding bs).trie = some (trieBuild abc))
    (h' : (decoding bs).tablePairs = abc) : (decoding bs).TrieOk := by
  intro t ht
  rw [h] at ht
  cases ht
  rw [h']
  exact ⟨by decide, rfl⟩

/-- V12: NO_CODE; a stream that ends after "1 1"; and (3, 4, 'b'). -/
theorem witness_TriGetReadsTheTriple :
    State.reset.cfg.bitbufCap < (lenAt 33554433 State.reset).regs.bvLen.toNat ∧
    (State.reset.regs.bvLen.toNat ≤ State.reset.cfg.bitbufCap ∧ State.reset.trie = none) ∧
    ((decoding (bits 2 3)).trie = some (trieBuild abc) ∧
      raised (tripleRead (trieBuild abc) ((decoding (bits 2 3)).bitsFrom 0)) = some .truncated) ∧
    ((decoding (bits 14 0b00010000010100)).regs.bvLen.toNat ≤ State.reset.cfg.bitbufCap ∧
      (decoding (bits 14 0b00010000010100)).trie.isSome = true ∧
      (decoding (bits 14 0b00010000010100)).hufValid 0x62 = true ∧
      (decoding (bits 14 0b00010000010100)).bitsFrom 0 =
        eo1 3 ++ eo1 4 ++ (decoding (bits 14 0b00010000010100)).hufBits 0x62 ++ []) := by decide +kernel

/-- TRIPLE_READ's errors: no offset; no length after the offset 0; no symbol after (0, 0), whose codes are "1"
each. -/
theorem witness_TripleFails : tableOk abc = true ∧ TripleFails abc [] .truncated ∧
    TripleFails abc (eo1 0 ++ []) .truncated ∧ TripleFails abc (eo1 0 ++ eo1 0 ++ []) .truncated :=
  ⟨by decide, .offset _ _ (.cut _ _ (by decide)), .length _ _ _ (by decide) (.cut _ _ (by decide)),
    .symbol _ _ _ _ (by decide) (by decide) (.cut (0x61#8, [true]) (by decide) (by decide) (by decide))⟩

theorem witness_TriGetReadsTheTriple_trieOk : (decoding (bits 14 0b00010000010100)).TrieOk :=
  decoding_trieOk _ (by decide +kernel) (by decide +kernel)

/-- V13's errors, and CLEN = CONTENT_CAP. -/
theorem witness_HufBuildFillsTheTable :
    State.reset.cfg.contentCap < (withRegs fun r => { r with clen := 1048577 }).regs.clen.toNat ∧
    (State.reset.regs.clen.toNat ≤ State.reset.cfg.contentCap ∧ State.reset.regs.clen.toNat = 0) ∧
    ((withRegs fun r => { r with clen := 1048576 }).regs.clen.toNat ≤ State.reset.cfg.contentCap ∧
      (withRegs fun r => { r with clen := 1048576 }).regs.clen.toNat ≠ 0) := by decide

/-- V14: each error, and a code that ends at the capacity. -/
theorem witness_HufEncAppendsTheCode :
    State.reset.cfg.bitbufCap < (lenAt 33554433 State.reset).regs.bvLen.toNat ∧
    (State.reset.regs.bvLen.toNat ≤ State.reset.cfg.bitbufCap ∧ State.reset.hufValid 0x61 = false) ∧
    (lenZero.hufValid 0x61 = true ∧ lenZero.hufLen 0x61 = 0) ∧
    ((lenAt 33554431 (putTable abc State.reset)).hufValid 0x62 = true ∧
      (lenAt 33554431 (putTable abc State.reset)).hufLen 0x62 ≠ 0 ∧
      State.reset.cfg.bitbufCap < (lenAt 33554431 (putTable abc State.reset)).regs.bvLen.toNat +
        (lenAt 33554431 (putTable abc State.reset)).hufLen 0x62) ∧
    ((lenAt 33554430 (putTable abc State.reset)).regs.bvLen.toNat +
        (lenAt 33554430 (putTable abc State.reset)).hufLen 0x62 ≤ State.reset.cfg.bitbufCap ∧
      State.reset.cfg.Legal ∧ (lenAt 33554430 (putTable abc State.reset)).mems.bitbuf.wf) := by decide +kernel

/-- No entry valid; and V13's first row. -/
theorem witness_HufTrieBuildsFromTheTable :
    tableOk State.reset.tablePairs = false ∧ tableOk (putTable abc State.reset).tablePairs = true := by decide +kernel

/-- V14: NO_CODE; a code cut off; and the code of 'c'. -/
theorem witness_HufDecReadsTheSymbol :
    (State.reset.regs.bvLen.toNat ≤ State.reset.cfg.bitbufCap ∧ State.reset.trie = none) ∧
    ((decoding [false]).trie = some (trieBuild abc) ∧
      raised ((trieBuild abc).read ((decoding [false]).bitsFrom 0)) = some .truncated) ∧
    ((decoding [false, true]).trie.isSome = true ∧ (decoding [false, true]).hufValid 0x63 = true ∧
      (decoding [false, true]).bitsFrom 0 = (decoding [false, true]).hufBits 0x63 ++ []) := by decide +kernel

/-- HUF_READ's errors: bits that end inside a code (V14); and, for the one code "0", the bit 1. -/
theorem witness_HufFails : tableOk abc = true ∧ HufFails abc [false] .truncated ∧
    tableOk [(0x61#8, [false])] = true ∧ HufFails [(0x61#8, [false])] [true] .hufDecode :=
  ⟨by decide, .cut (0x62#8, [false, false]) (by decide) (by decide) (by decide), by decide,
    .missing (by decide) (by decide)⟩

theorem witness_HufDecReadsTheSymbol_trieOk : (decoding [false, true]).TrieOk :=
  decoding_trieOk _ (by decide +kernel) (by decide +kernel)

/-- V16: PARAM; ARG + GEN = 0; BUF_FULL at the capacity; and 2^32 in 45 bits that end at the capacity. -/
theorem witness_EoEncAppendsOmega :
    State.reset.cfg.bitbufCap < (lenAt 33554433 State.reset).regs.bvLen.toNat ∧
    State.reset.regs.arg.toNat + (0#1).toNat = 0 ∧
    ((lenAt 33554432 State.reset).regs.bvLen.toNat ≤ State.reset.cfg.bitbufCap ∧
      State.reset.cfg.bitbufCap < (lenAt 33554432 State.reset).regs.bvLen.toNat + (omega 1).length) ∧
    ((0xFFFFFFFF#32).toNat + (1#1).toNat ≠ 0 ∧
      (lenAt 33554387 State.reset).regs.bvLen.toNat + (omega ((0xFFFFFFFF#32).toNat + (1#1).toNat)).length
        ≤ State.reset.cfg.bitbufCap ∧ State.reset.cfg.Legal ∧ State.reset.mems.bitbuf.wf) := by decide +kernel

/-- V17: an error; and OMEGA(2^32), read with GEN = 1. -/
theorem witness_EoDecReadsTheValue :
    raised (eoRead (1#1).toNat ((putBits (bits 28 0) State.reset).bitsFrom 0)) = some .overflow ∧
    (2 ^ 32 - 1 < 2 ^ 32 ∧ 1 ≤ 2 ^ 32 - 1 + (1#1).toNat ∧
      (putBits (bits 45 0b000001000000100000000000000000000000000000000) State.reset).bitsFrom 0
        = omega (2 ^ 32 - 1 + (1#1).toNat) ++ []) := by decide +kernel

/-- EO_READ's errors: no bit left; a component of 6 bits whose next length is 34; and a payload of 2^32 read with
offset 0, which as 33 bits follows a component for the length 33. -/
theorem witness_EoFails :
    EoFails 1 1 [] .truncated ∧ EoFails 1 6 (false :: bits 5 1 ++ []) .overflow ∧
    EoFails 0 33 (true :: bits 32 0 ++ []) .overflow ∧ EoFails 1 1 (false :: [] ++ [true]) .truncated :=
  ⟨.cut _ _ (by decide), .long _ _ _ (by decide) (by decide), .big _ _ _ (by decide) (by decide),
    .next _ _ _ _ (by decide) (by decide) (.cut _ _ (by decide))⟩

/-- V18: RANGE; BUF_FULL; and fields of 1 and 32 bits. -/
theorem witness_BvPutAppendsTheField :
    ((8#6).toNat = 8 ∧ 2 ^ 8 ≤ (0x100#32).toNat) ∧
    ((0#32).toNat < 2 ^ 8 ∧ (lenAt 33554428 State.reset).regs.bvLen.toNat ≤ State.reset.cfg.bitbufCap ∧
      State.reset.cfg.bitbufCap < (lenAt 33554428 State.reset).regs.bvLen.toNat + 8) ∧
    ((32#6).toNat = 32 ∧ (0xFFFFFFFF#32).toNat < 2 ^ 32 ∧
      (lenAt 33554400 State.reset).regs.bvLen.toNat + 32 ≤ State.reset.cfg.bitbufCap ∧ State.reset.cfg.Legal ∧
      State.reset.mems.bitbuf.wf) ∧
    ((1#6).toNat = 1 ∧ (1#32).toNat < 2 ^ 1) := by decide

/-- V18: TRUNCATED; and a read that ends at BV_LEN. -/
theorem witness_BvGetReadsTheField :
    (lenAt 8 State.reset).regs.bvLen.toNat ≤ State.reset.cfg.bitbufCap ∧
    (lenAt 8 State.reset).regs.bvLen.toNat < 1 + (8#6).toNat ∧
    1 + (7#6).toNat ≤ (lenAt 8 State.reset).regs.bvLen.toNat := by decide

/-- A configuration whose bit buffer holds 24 bits. -/
def smallBuf : State := { zz with cfg := { Config.default with bitbufCap := 24 } }

/-- V21: NLEN = NAME_CAP + 1 (the other PARAM causes are LZ_MATCH's); CLEN = 0; "z" / "z" fits; and does not
fit 24 bits. -/
theorem witness_FrameCWritesTheContainer :
    State.reset.cfg.nameCap < (withRegs fun r => { r with nlen := 256 }).regs.nlen.toNat ∧
    (1 ≤ State.reset.regs.lookaheadSize.toNat ∧ State.reset.regs.lookaheadSize.toNat ≤ State.reset.cfg.lmax ∧
      State.reset.regs.windowSize.toNat ≤ State.reset.cfg.wmax ∧ State.reset.regs.clen.toNat ≤ State.reset.cfg.contentCap ∧
      State.reset.regs.nlen.toNat ≤ State.reset.cfg.nameCap ∧ State.reset.regs.clen.toNat = 0) ∧
    (zz.regs.clen.toNat ≠ 0 ∧ (frameBits zz.nameList zz.contentList 1000 300).length ≤ zz.cfg.bitbufCap ∧ zz.cfg.Legal ∧
      zz.mems.bitbuf.wf) ∧
    smallBuf.cfg.bitbufCap < (frameBits smallBuf.nameList smallBuf.contentList 1000 300).length := by decide +kernel

/-- V20: an error in the stream; and V19's "z" / "z". -/
theorem witness_FrameDReadsTheContainer :
    State.reset.cfg.bitbufCap < (lenAt 33554433 State.reset).regs.bvLen.toNat ∧
    raised (frameParse Config.default ((putBits (bits 2 3) State.reset).bitsFrom 0)) = some .badStream ∧
    ((putBits (bits 32 0x4F493D26) State.reset).regs.bvLen.toNat ≤ State.reset.cfg.bitbufCap ∧
      State.reset.cfg.Legal ∧ State.reset.mems.name.wf ∧ State.reset.mems.content.wf ∧
      (frameParse Config.default ((putBits (bits 32 0x4F493D26) State.reset).bitsFrom 0)).toOption
        = some (⟨text [26], text [26], [(0x7A#8, [false])]⟩, [])) := by decide +kernel

/-- FRAME_PARSE's errors, one for each field of R132. -/
theorem witness_FrameFails :
    FrameFails .default [] .truncated ∧ FrameFails .default (eo1 256 ++ []) .bufFull ∧ FrameFails .default (eo1 255 ++ []) .truncated ∧
    FrameFails .default (eo1 0 ++ [] ++ []) .truncated ∧ FrameFails .default (eo1 0 ++ [] ++ eo1 0 ++ []) .badStream ∧
    FrameFails .default (eo1 0 ++ [] ++ eo1 1048577 ++ []) .bufFull ∧
    FrameFails .default (eo1 0 ++ [] ++ eo1 1048576 ++ []) .truncated :=
  ⟨.nameLength _ _ (.cut _ _ (by decide)), .nameTooLong _ _ (by decide) (by decide),
    .name _ _ (by decide) (by decide) (by decide),
    .contentLength [] _ _ (by decide) (by decide) (.cut _ _ (by decide)), .contentEmpty [] _ (by decide) (by decide),
    .contentTooLong [] _ _ (by decide) (by decide) (by decide) (by decide),
    .table [] _ _ _ (by decide) (by decide) (by decide) (by decide) (by decide) (.size _ _ (.cut _ _ (by decide)))⟩

/-- The errors of a container's table: D of 0 and 257, and codes that are not prefix-free (V20). -/
theorem witness_TableFails :
    TableFails 1 (eo1 0 ++ []) .badTable ∧ TableFails 1 (eo1 257 ++ []) .badTable ∧
    TableFails 1 (eo1 256 ++ []) .truncated ∧
    TableFails 1 (eo1 1 ++ List.flatMap entryBits [(0x61#8, [false])] ++ []) .truncated ∧
    TableFails 1 (eo1 2 ++ List.flatMap entryBits [(0x61#8, [false]), (0x62#8, [false, true])] ++ []) .badTable :=
  ⟨.badSize _ _ (by decide) (by decide), .badSize _ _ (by decide) (by decide),
    .entries _ _ _ (by decide) (by decide) (.symbol _ _ _ (by decide)),
    .triples [(0x61#8, [false])] _ _ ⟨by decide, by decide, by decide⟩ (by decide)
      (.read _ _ _ (by decide) (.offset _ _ (.cut _ _ (by decide)))),
    .notOk [(0x61#8, [false]), (0x62#8, [false, true])] _ ⟨by decide, by decide, by decide⟩ (by decide)⟩

/-- The errors of a table entry: lengths 0 and 256, a symbol below the least, and a code of 255 bits cut off. -/
theorem witness_EntriesFail :
    EntriesFail 1 0 (binFixed 8 (0x61#8).toNat ++ []) .truncated ∧
    EntriesFail 1 0 (binFixed 8 (0x61#8).toNat ++ eo1 0 ++ []) .badTable ∧
    EntriesFail 1 0 (binFixed 8 (0x61#8).toNat ++ eo1 256 ++ []) .badTable ∧
    EntriesFail 1 98 (binFixed 8 (0x61#8).toNat ++ eo1 1 ++ [true]) .badTable ∧
    EntriesFail 1 97 (binFixed 8 (0x61#8).toNat ++ eo1 255 ++ []) .truncated ∧
    EntriesFail 2 97 (entryBits (0x61#8, [true]) ++ []) .truncated :=
  ⟨.length _ _ _ _ _ (.cut _ _ (by decide)), .badLength _ _ _ _ _ (by decide) (by decide),
    .badLength _ _ _ _ _ (by decide) (by decide), .order _ _ _ _ _ (by decide) (by decide) (by decide),
    .code _ _ _ _ _ (by decide) (by decide) (by decide) (by decide),
    .next _ _ (0x61#8, [true]) _ _ (by decide) (by decide) (by decide) (.symbol _ _ _ (by decide))⟩

/-- The errors of a replayed triple: no source; a source before the start; past the length; and one after a good
triple. -/
theorem witness_TriplesFail :
    TriplesFail abc 3 [] (tripleBits 0 1 [true] ++ []) .badStream ∧
    TriplesFail abc 3 [] (tripleBits 1 0 [true] ++ []) .badStream ∧
    TriplesFail abc 3 [0x61#8] (tripleBits 1 2 [true] ++ []) .badStream ∧
    TriplesFail abc 3 [] (tripleBits 0 0 [true] ++ []) .truncated :=
  ⟨.replay _ _ _ (0x61#8, [true]) _ (by decide) (by decide) (by decide) (by decide) (by decide),
    .replay _ _ _ (0x61#8, [true]) _ (by decide) (by decide) (by decide) (by decide) (by decide),
    .replay _ _ _ (0x61#8, [true]) _ (by decide) (by decide) (by decide) (by decide) (by decide),
    .next _ [0x61#8] _ _ (0x61#8, [true]) _ _ (by decide) (by decide) (by decide) (by decide) (by decide)
      (.read _ _ _ (by decide) (.offset _ _ (.cut _ _ (by decide))))⟩

theorem witness_ZValuesMeetTheContract :
    (1 ≤ 1 ∧ 1 < ([1, 1, 2, 24, 1, 1, 2] : List (BitVec 16)).length) ∧
    (1 ≤ 6 ∧ 6 < ([1, 1, 2, 24, 1, 1, 2] : List (BitVec 16)).length) := by decide

theorem witness_MatchMeetsTheDirectDefinition : 11 < aac.length ∧ 1 ≤ 1 := by decide

theorem witness_ReconstructionInvertsParse : 1 ≤ 1 := by decide

/-- "a" and (1, 6, 'a') (V5). -/
theorem witness_TilingIsAForwardCopy :
    1 ≤ 1 ∧ (reconOne (text [1]) (1, 6, 0x61#8) 8 .badStream).toOption = some (text [1, 1, 1, 1, 1, 1, 1, 1]) := by decide

theorem witness_OmegaLengthsGrow : 1 ≤ 1 ∧ 1 ≤ 2 ^ 32 := by decide

/-- v = 0 with offset 1, v = 1 with offset 0, and v = 2^32 − 1 with offset 1. -/
theorem witness_EliasOmegaRoundTrip :
    (1 ≤ 1 ∧ 1 ≤ 0 + 1 ∧ 0 < 2 ^ 32) ∧ (0 ≤ 1 ∧ 1 ≤ 1 + 0 ∧ 1 < 2 ^ 32) ∧
    (1 ≤ 1 ∧ 1 ≤ 2 ^ 32 - 1 + 1 ∧ 2 ^ 32 - 1 < 2 ^ 32) ∧
    (eoRead 1 [true, false]).toOption = some (0, [false]) := by decide

theorem witness_HuffmanCodeIsPrefixFree :
    text [1] ≠ [] ∧ text [1, 2, 2] ≠ [] ∧ 2 ≤ (alphabet (text [1, 2, 2])).length ∧
    255 ≤ (List.replicate 255 true).length := by decide +kernel

theorem witness_TrieReadsExactlyTheCodes :
    tableOk abc = true ∧ ((trieBuild abc).read [false, true, true]).toOption = some (0x63#8, [true]) := by decide

/-- V19's "z" / "z": 4f493d26. -/
theorem witness_FrameRoundTrip_container :
    IsContainer Config.default ⟨text [26], text [26], [(0x7A#8, [false])]⟩ [(0, 0, 0x7A#8)] (bits 32 0x4F493D26) :=
  ⟨by decide, by decide, ⟨by decide, by decide, by decide⟩, by decide, by decide, by decide, by decide⟩

theorem witness_FrameRoundTrip :
    Config.default.Legal ∧ (text []).length ≤ Config.default.nameCap ∧ 1 ≤ (text [26]).length ∧
    (text [26]).length ≤ Config.default.contentCap ∧ 4096 ≤ Config.default.wmax ∧ 1 ≤ 1024 ∧
    1024 ≤ Config.default.lmax := by decide

/-- A step from a state that keeps the memory invariant: a commit. -/
theorem witness_StepKeepsMemoriesInCapacity :
    (loaded 0x50000000).cfg.Legal ∧ (loaded 0x50000000).MemsOk ∧
    step (loaded 0x50000000) = .next (bvClear (loaded 0x50000000).takeTurn).commitOk :=
  ⟨by decide, ⟨reset_memsOk.name, reset_memsOk.content, reset_memsOk.bitbuf, reset_memsOk.zin, reset_memsOk.zout,
    reset_memsOk.hufCtl, reset_memsOk.hufCode⟩, rfl⟩

theorem witness_StepKeepsStatusConsistent :
    (loaded 0).StatusOk ∧ step (loaded 0) = .next (loaded 0).takeTurn.commitOk := ⟨loaded_statusOk _, rfl⟩

/-- A state with a trie, and a step from it. -/
theorem witness_DecodeTrieMatchesTable :
    (decoding [false, true]).TrieOk ∧ (decoding [false, true]).trie.isSome = true ∧
    step (decoding [false, true]) = .next (decoding [false, true]).takeTurn.hostStep :=
  ⟨witness_HufDecReadsTheSymbol_trieOk, by decide +kernel, rfl⟩

theorem witness_StepKeepsErrCodeReported :
    (loaded 0).ErrCodeOk ∧ step (loaded 0) = .next (loaded 0).takeTurn.commitOk := ⟨.inl rfl, rfl⟩

theorem witness_StepKeepsConstantCsrs :
    step State.reset = .next State.reset.takeTurn.hostStep ∧
    Csr.capZ ∈ [Csr.id, .version, .capContent, .capName, .capBitbuf, .capZ, .capWmax, .capLmax] := ⟨rfl, by decide⟩

theorem witness_BusyEngineCommitsWhenTurnsRunOut :
    (State.reset.accept 0).busy = true ∧ (State.reset.accept 0).rstN = true ∧ (State.reset.accept 0).turns = [] ∧
    (State.reset.accept 0).StatusOk :=
  ⟨rfl, rfl, rfl, fun h => Bool.noConfusion h.1, fun _ => ⟨rfl, rfl⟩, fun h => Bool.noConfusion h⟩

/-- One symbol; and two. -/
theorem witness_HuffmanTreeMergesTheSmallest :
    (text [1, 1] ≠ [] ∧ alphabet (text [1, 1]) = [0x61#8]) ∧
    (text [1, 2] ≠ [] ∧ 2 ≤ (alphabet (text [1, 2])).length) := by decide +kernel

end Sys2Proof.Tests
end

section
/-! PROOFS. What hardware reset establishes (70_reset_and_hazards.md R149 to R151): each invariant
follows from the reset values it speaks of, in every configuration. -/

namespace Sys2Proof.Machine

/-- R7: the column "default" meets the column "constraint". -/
theorem Config.default_legal : Config.default.Legal := by decide

/-- R151: the memories of a hardware reset are well kept once their draws are counted, at any capacity. -/
theorem State.memsOk_of_mems_reset {s : State} {e : Nat} (hm : s.mems = .reset e) (hd : e + resetDraws ≤ s.draws) :
    s.MemsOk := by
  have drawn {w cap : Nat} (i : Nat) (hi : i < resetDraws) : (Mem.unspecified w (e + i)).ok cap s.draws :=
    Mem.unspecified_ok (by omega)
  constructor <;> rw [hm]
  case name => exact drawn 0 (by decide)
  case content => exact drawn 1 (by decide)
  case bitbuf => exact drawn 2 (by decide)
  case zin => exact drawn 3 (by decide)
  case zout => exact drawn 4 (by decide)
  case hufCtl => exact Mem.zeros_ok _ _
  case hufCode => exact drawn 5 (by decide)

/-- R150: DONE and ERR are reset to 0; R149: the engine is idle. -/
theorem State.statusOk_of_regs_reset {s : State} {c : Config} (hr : s.regs = .reset c) (he : s.engine = .idle) :
    s.StatusOk where
  notBoth := by simp [hr, Regs.reset]
  busyClear _ := by simp [hr, Regs.reset]
  resetIdle _ := he

/-- R44 says nothing while DEC_VALID is 0. -/
theorem State.trieOk_of_trie_none {s : State} (ht : s.trie = none) : s.TrieOk := by
  simp [State.TrieOk, ht]

/-- R150: ERRCODE.CODE is reset to NONE. -/
theorem State.errCodeOk_of_regs_reset {s : State} {c : Config} (hr : s.regs = .reset c) : s.ErrCodeOk :=
  .inl (by simp [hr, Regs.reset])

/-- Settles O57: the reset state holds the reset values of every part, at the default configuration. -/
theorem resetMeetsTheInvariants : Obligations.ResetMeetsTheInvariants :=
  ⟨Config.default_legal, State.memsOk_of_mems_reset (e := 0) rfl (Nat.le_refl _),
    State.statusOk_of_regs_reset rfl rfl, State.trieOk_of_trie_none rfl, State.errCodeOk_of_regs_reset rfl⟩

end Sys2Proof.Machine
end

section
/-! PROOFS. What a step can do, said once for the invariants: the moves of an access, and the step as one
move of one agent (10_state.md R19, R22; 20_memory.md R51 to R60). -/

namespace Sys2Proof.Machine

/-! ### Where a place lies -/

/-- The entries that a place names exist: a table word below 4096, bytes inside their window, an entry of the
Z memories below ZCAP (R51, R61). -/
def Loc.InRange (c : Config) : Loc → Prop
  | .huf k => k < 4096
  | .bytes w i n => i + n ≤ winCap c w
  | .zin i => i < c.zcap
  | .zout i => i < c.zcap
  | .unmapped | .csr _ => True

theorem byteLoc_inRange (c : Config) (w : ByteWin) (o n : Nat) : (byteLoc c w o n).InRange c :=
  iteInduction (motive := Loc.InRange c) (fun h => h.2) (fun _ => trivial)

/-- An access lands on entries that exist. -/
theorem locate_inRange (c : Config) (a : Access) : (locate c a).InRange c := by
  unfold locate
  cases a.bytes? with
  | none => trivial
  | some n =>
    dsimp only
    repeat' first
      | exact byteLoc_inRange c _ _ _
      | exact trivial
      | apply iteInduction (motive := Loc.InRange c) <;> intro h
      | exact h.2
      | (show _ < _; omega)

/-! ### What an access does -/

/-- `v` is `u` but for the host, the schedule and later draws. -/
structure SameBlock (u v : State) : Prop where
  cfg    : v.cfg = u.cfg
  rstN   : v.rstN = u.rstN
  engine : v.engine = u.engine
  regs   : v.regs = u.regs
  mems   : v.mems = u.mems
  trie   : v.trie = u.trie
  draws  : u.draws ≤ v.draws

/-- What one host access can make of the block (R23, R25 to R27, R40, R41, R53, R59, R60). -/
inductive State.BusMoves (s : State) : State → Prop where
  | same : s.BusMoves s
  | drawn : s.BusMoves { s with draws := s.draws + 1 }
  /-- A write of a register, STATUS, CTRL or an operand's: no command completes by it. -/
  | regs (r : Regs) (done : r.done = true → s.regs.done = true) (err : r.err = true → s.regs.err = true) :
      s.BusMoves { s with regs := r }
  | accept (w : Word) (out : s.rstN = true) : s.BusMoves (s.accept w)
  | softReset : s.BusMoves s.softReset
  | huf (k : Nat) (v : Word) (range : k < 4096) : s.BusMoves (s.writeHuf k v)
  | bytes (w : ByteWin) (i : Nat) (bs : List Byte) (range : i + bs.length ≤ winCap s.cfg w) :
      s.BusMoves (s.writeBytes i bs w)
  | zin (i : Nat) (v : BitVec 16) (range : i < s.cfg.zcap) :
      s.BusMoves { s with mems := { s.mems with zin := s.mems.zin.write i v } }

theorem State.BusMoves.writeCtrl (s : State) (v : Word) : s.BusMoves (s.writeCtrl v) := by
  unfold State.writeCtrl
  split
  · exact .softReset
  · exact .regs _ id id

theorem State.BusMoves.writeStatus (s : State) (v : Word) : s.BusMoves { s with regs := s.regs.writeStatus v } :=
  .regs _ (by simp [Regs.writeStatus]; tauto) (by simp [Regs.writeStatus]; tauto)

theorem State.BusMoves.writeCsrIdle {s : State} (h : s.rstN = true) (v : Word) (r : Csr) :
    s.BusMoves (s.writeCsrIdle v r) := by
  cases r
  case ctrl => exact .writeCtrl s v
  case status => exact .writeStatus s v
  case cmd => exact .accept v h
  case id | version | errcode | result | resultBits | hufD | hufState => exact .same
  case capContent | capName | capBitbuf | capZ | capWmax | capLmax => exact .same
  all_goals exact .regs _ id id

theorem State.BusMoves.writeCsrBusy (s : State) (v : Word) (r : Csr) : s.BusMoves (s.writeCsrBusy v r) := by
  cases r
  case ctrl => exact .writeCtrl s v
  case status => exact .writeStatus s v
  case cmd => exact .regs _ id id
  all_goals exact .same

theorem State.BusMoves.busWrite {s : State} (h : s.rstN = true) (v : Word) (l : Loc) (hl : l.InRange s.cfg) :
    s.BusMoves (s.busWrite v l) := by
  cases l with
  | unmapped => exact .same
  | csr off =>
    cases hc : csrAt off with
    | none => simp only [State.busWrite, hc]; exact .same
    | some r =>
      rw [State.busWrite_csr hc]
      split
      · exact .writeCsrBusy s v r
      · exact .writeCsrIdle h v r
  | huf k =>
    show s.BusMoves (if s.busy then s else _)
    split
    · exact .same
    · exact .huf k v hl
  | bytes w i n =>
    show s.BusMoves (if s.busy then s else _)
    split
    · exact .same
    · exact .bytes w i _ (by simpa [leBytes, Loc.InRange] using hl)
  | zin i =>
    show s.BusMoves (if s.busy then s else _)
    split
    · exact .same
    · exact .zin i _ hl
  | zout i => exact .same

/-- Every access is one of these moves. -/
theorem State.access_moves (s : State) (a : Access) : s.BusMoves (s.access a).1 := by
  rcases s.access_cases a with ⟨_, h⟩ | ⟨hr, _, h⟩ | ⟨_, _, h⟩ <;> rw [h]
  · exact .same
  · exact .busWrite hr _ _ (locate_inRange _ _)
  · rcases s.busRead_state (locate s.cfg a) with h | ⟨_, h⟩ <;> rw [h]
    · exact .same
    · exact .drawn

/-! ### What a step keeps -/

/-- A property of the block that each move of each agent keeps, every step keeps. -/
theorem step_keeps {P : State → Prop} (block : ∀ u v, SameBlock u v → P u → P v)
    (bus : ∀ u v, u.BusMoves v → P u → P v)
    (command : ∀ u v i, u.busy = true → u.rstN = true → exec i u = .next v → P u → P v)
    (illegal : ∀ u, u.busy = true → u.rstN = true → P u → P (u.commitErr .illegalCmd))
    (fall : ∀ u, P u → P u.assertReset) (rise : ∀ u, u.rstN = false → P u → P u.releaseReset)
    {s t : State} (hs : P s) (h : step s = .next t) : P t := by
  have hu : P s.takeTurn := block s _ ⟨rfl, rfl, rfl, rfl, rfl, rfl, Nat.le_refl _⟩ hs
  generalize hg : s.takeTurn = u at hu
  rcases step_cases h with ht | ht | ht | ht <;> rw [hg] at ht
  · obtain ⟨g, e⟩ := u.hostStep_moves
    rw [ht]
    rcases e with e | e | ⟨a, e⟩ <;> rw [e]
    · exact block u _ ⟨rfl, rfl, rfl, rfl, rfl, rfl, Nat.le_refl _⟩ hu
    · exact block u _ ⟨rfl, rfl, rfl, rfl, rfl, rfl, Nat.le_succ _⟩ hu
    · exact block (u.access a).1 _ ⟨rfl, rfl, rfl, rfl, rfl, rfl, Nat.le_refl _⟩ (bus u _ (u.access_moves a) hu)
  · rcases engineStep_cases u with ⟨hb, hr, i, _, e⟩ | ⟨hb, hr, _, e⟩ | ⟨_, e⟩ <;> rw [e] at ht
    · exact command u t i hb hr ht hu
    · cases ht; exact illegal u hb hr hu
    · cases ht; exact hu
  · exact ht ▸ fall u hu
  · rw [ht]
    cases hr : u.rstN with
    | true => rw [State.releaseReset, if_pos hr]; exact hu
    | false => exact rise u hr hu

/-! ### STATUS -/

theorem State.BusMoves.statusOk {u v : State} (h : u.BusMoves v) (hu : u.StatusOk) : v.StatusOk := by
  obtain ⟨hnot, hbusy, hidle⟩ := hu
  cases h with
  | regs r hd he =>
    refine ⟨fun ⟨d, e⟩ => hnot ⟨hd d, he e⟩, fun b => ?_, hidle⟩
    obtain ⟨hd0, he0⟩ := hbusy b
    exact ⟨by simpa [hd0] using hd, by simpa [he0] using he⟩
  | accept w hr => exact ⟨by simp, by simp, by simp [hr]⟩
  | softReset => exact State.statusOk_of_regs_reset (c := u.cfg) rfl rfl
  | bytes w i bs _ => cases w <;> exact ⟨hnot, hbusy, hidle⟩
  | same | drawn | huf | zin => exact ⟨hnot, hbusy, hidle⟩

/-- A commit of a command sets exactly one of DONE and ERR, from the 0 that acceptance left (R138). -/
theorem exec_statusOk {u v : State} {i : Instr} (hb : u.busy = true) (h : exec i u = .next v)
    (hu : u.StatusOk) : v.StatusOk ∧ v.regs.done = !v.regs.err := by
  obtain ⟨hd0, he0⟩ := hu.busyClear hb
  obtain ⟨t, ht, hc⟩ := exec_commits i u
  cases ht.symm.trans h
  rcases hc with ⟨w, hw, rfl⟩ | ⟨w, c, hw, rfl⟩
  · exact ⟨⟨by simp [hw.err, he0], by simp, by simp⟩, by simp [hw.err, he0]⟩
  · exact ⟨⟨by simp [hw.done, hd0], by simp, by simp⟩, by simp [hw.done, hd0]⟩

theorem State.commitErr_statusOk {u : State} (c : ErrCode) (hb : u.busy = true) (hu : u.StatusOk) :
    (u.commitErr c).StatusOk :=
  ⟨by simp [(hu.busyClear hb).1], by simp, by simp⟩

/-- Settles O54: each move keeps the status invariant; only a commit sets DONE or ERR, and it ends BUSY. -/
theorem stepKeepsStatusConsistent : Obligations.StepKeepsStatusConsistent := by
  intro s t hs h
  refine step_keeps (P := State.StatusOk) ?_ ?_ ?_ ?_ ?_ ?_ hs h
  · intro u v e ⟨hnot, hbusy, hidle⟩
    refine ⟨by rwa [e.regs], ?_, by rwa [e.rstN, e.engine]⟩
    unfold State.busy at *
    rwa [e.engine, e.regs]
  · exact fun u v e => e.statusOk
  · exact fun u v i hb _ e hu => (exec_statusOk hb e hu).1
  · exact fun u hb _ => u.commitErr_statusOk .illegalCmd hb
  · exact fun u hu => ⟨hu.notBoth, fun hb => absurd hb (by simp [State.busy]), fun _ => rfl⟩
  · intro u hr _
    rw [State.releaseReset, hr]
    exact State.statusOk_of_regs_reset (c := u.cfg) rfl rfl

/-! ### The parameters -/

theorem State.softReset_cfg (s : State) : s.softReset.cfg = s.cfg := (s.redrawAll_frame s.inFlightMems).1

theorem State.BusMoves.cfg_eq {u v : State} (h : u.BusMoves v) : v.cfg = u.cfg := by
  cases h with
  | softReset => exact u.softReset_cfg
  | bytes w i bs _ => cases w <;> rfl
  | same | drawn | regs | accept | huf | zin => rfl

theorem exec_cfg {u v : State} {i : Instr} (h : exec i u = .next v) : v.cfg = u.cfg := by
  obtain ⟨t, ht, hc⟩ := exec_commits i u
  cases ht.symm.trans h
  rcases hc with ⟨w, hw, rfl⟩ | ⟨w, c, hw, rfl⟩ <;> exact hw.cfg

theorem State.releaseReset_cfg (s : State) : s.releaseReset.cfg = s.cfg := by
  unfold State.releaseReset; split <;> rfl

/-- R7, R30: no step changes the parameters. -/
theorem step_cfg {s t : State} (h : step s = .next t) : t.cfg = s.cfg :=
  step_keeps (P := fun u => u.cfg = s.cfg) (fun _ _ e hu => e.cfg.trans hu) (fun _ _ e hu => e.cfg_eq.trans hu)
    (fun _ _ _ _ _ e hu => (exec_cfg e).trans hu) (fun _ _ _ hu => hu) (fun _ hu => hu)
    (fun u _ hu => u.releaseReset_cfg.trans hu) rfl h

/-- Settles O58: the constants are read from no register, their writes fall to the read-only arms, and
`step_cfg` keeps the parameters. -/
theorem stepKeepsConstantCsrs : Obligations.StepKeepsConstantCsrs := by
  refine ⟨fun s => ?_, fun s r v hr hm => ?_, fun s t => step_cfg⟩
  · have hc : ∀ r, r ≠ .ctrl → r ≠ .status → s.readCsr r = s.csr r := s.readCsr_of_ne
    exact ⟨hc .id nofun nofun, hc .version nofun nofun, hc .capContent nofun nofun, hc .capName nofun nofun,
      hc .capBitbuf nofun nofun, hc .capZ nofun nofun, hc .capWmax nofun nofun, hc .capLmax nofun nofun⟩
  · rcases s.engine_cases with he | hb
    · rw [State.access_write_csr_idle hr he]
      fin_cases hm <;> rfl
    · rw [State.access_write_csr_busy hr hb]
      fin_cases hm <;> rfl

theorem State.takeTurn_of_nil {s : State} (h : s.turns = []) : s.takeTurn = s := by
  cases s; cases h; rfl

/-- Settles O59: with no turn left the step of a BUSY engine is its commit, of the command that CMD decodes
to or of ILLEGAL_CMD. -/
theorem busyEngineCommitsWhenTurnsRunOut : Obligations.BusyEngineCommitsWhenTurnsRunOut := by
  intro s hb hr ht
  have hturn : s.takeTurn = s := State.takeTurn_of_nil ht
  have hstep : step s = engineStep s := by rw [step_eq, hturn, State.turn, ht]; simp [hb, agentStep]
  rw [hstep]
  rcases engineStep_cases s with ⟨_, _, i, _, e⟩ | ⟨_, _, _, e⟩ | ⟨hi, _⟩
  · obtain ⟨t, htx, hc⟩ := exec_commits i s
    refine ⟨t, e.trans htx, ?_, ?_, ?_, ?_, fun hs => (exec_statusOk hb htx hs).2⟩ <;>
      rcases hc with ⟨w, hw, rfl⟩ | ⟨w, c, hw, rfl⟩ <;> simp [hw.rstN, hr, hw.host]
  · refine ⟨_, e, rfl, hr, rfl, .inr rfl, fun hs => by simp [(hs.busyClear hb).1]⟩
  · rcases hi with hi | hi
    · exact absurd hb (by simp [(s.busy_eq_false).2 hi])
    · exact absurd hr (by simp [hi])

end Sys2Proof.Machine
end

section
/-! PROOFS. EO_READ inverts OMEGA, and what it raises (44_elias.md R116 to R118). -/

namespace Sys2Proof.Machine

/-! ### OMEGA, group by group -/

/-- What OMEGA writes before a component of `ell` bits: it depends on the length of the component only. -/
def omegaLead (ell : Nat) : Bits := omegaLoop ell (List.replicate ell true) []

/-- The loop of OMEGA only prepends. -/
theorem omegaLoop_append (fuel : Nat) (c out : Bits) : omegaLoop fuel c out = omegaLoop fuel c [] ++ out := by
  induction fuel generalizing c out with
  | zero => rfl
  | succ fuel ih =>
    unfold omegaLoop
    split
    · rfl
    · rw [ih, ih _ (_ ++ [])]; simp

/-- The binary representation of a length less 1 is shorter than that length. -/
theorem log2_pred_lt {ell : Nat} (h : 2 ≤ ell) : (ell - 1).log2 + 1 < ell := by
  have : (ell - 1).log2 < ell - 1 := (Nat.log2_lt (by omega)).2 Nat.lt_two_pow_self
  omega

/-- Only the length of the current component counts, and a fuel of that length is enough. -/
theorem omegaLoop_eq_lead (fuel : Nat) (c : Bits) (h : c.length ≤ fuel) : omegaLoop fuel c [] = omegaLead c.length := by
  induction fuel using Nat.strong_induction_on generalizing c with
  | _ fuel ih =>
    unfold omegaLead
    cases fuel with
    | zero => rw [Nat.le_zero.1 h]; rfl
    | succ fuel =>
      by_cases hc : c.length ≤ 1
      · obtain hl | hl : c.length = 0 ∨ c.length = 1 := by omega
        all_goals simp [omegaLoop, hl]
      · obtain ⟨m, hm⟩ : ∃ m, c.length = m + 1 := ⟨c.length - 1, by omega⟩
        have hb : (bin (c.length - 1)).length < c.length := by rw [bin_length]; exact log2_pred_lt (by omega)
        rw [hm] at hb ⊢
        unfold omegaLoop
        simp only [List.length_replicate, hm]
        rw [if_neg (by omega), if_neg (by omega), omegaLoop_append, omegaLoop_append m,
          ih fuel (by omega) _ (by omega), ih m (by omega) _ (by omega)]

theorem omegaLead_one : omegaLead 1 = [] := rfl

/-- Before a component of 2 bits or more stands the group that gives its length, and what leads that (R116). -/
theorem omegaLead_eq {ell : Nat} (h : 2 ≤ ell) :
    omegaLead ell = omegaLead ((ell - 1).log2 + 1) ++ false :: (bin (ell - 1)).tail := by
  obtain ⟨m, rfl⟩ : ∃ m, ell = m + 1 := ⟨ell - 1, by omega⟩
  have hb := log2_pred_lt h
  conv_lhs => unfold omegaLead omegaLoop
  rw [List.length_replicate, if_neg (by omega)]
  dsimp only
  rw [omegaLoop_append, omegaLoop_eq_lead _ _ (by rw [bin_length]; omega), bin_length]
  simp

theorem omega_eq (n : Nat) : omega n = omegaLead (n.log2 + 1) ++ bin n := by
  unfold omega
  rw [omegaLoop_append, omegaLoop_eq_lead _ _ (Nat.le_refl _), bin_length]

/-! ### EO_READ, component by component -/

/-- A group gives a length greater than its own. -/
theorem length_lt_val (comp : Bits) : comp.length + 1 < val (true :: comp) + 1 := by
  have := (val_true_bounds comp).1
  have := @Nat.lt_two_pow_self comp.length
  omega

/-- The fuel of EO_READ never runs out, as lengths grow and stay below 34. -/
theorem eoReadLoop_fuel (off : Nat) {f f' ell : Nat} (bs : Bits) (h1 : 1 ≤ ell) (h33 : ell ≤ 33) (hf : 34 ≤ ell + f)
    (hf' : 34 ≤ ell + f') : eoReadLoop off f ell bs = eoReadLoop off f' ell bs := by
  induction f generalizing f' ell bs with
  | zero => omega
  | succ f ih =>
    obtain ⟨f', rfl⟩ : ∃ m, f' = m + 1 := ⟨f' - 1, by omega⟩
    by_cases hl : bs.length < ell
    · rw [eoReadLoop_cut _ _ hl, eoReadLoop_cut _ _ hl]
    · obtain ⟨b, comp, rest, rfl, rfl⟩ := component_cases h1 (Nat.not_lt.1 hl)
      cases b with
      | true => rw [eoReadLoop_payload, eoReadLoop_payload]
      | false =>
        rw [eoReadLoop_prefix, eoReadLoop_prefix]
        have := length_lt_val comp
        split
        · exact ih _ (by omega) (by omega) (by omega) (by omega)
        · rfl

/-- A group hands on to the component whose length it gives (R118). -/
theorem eoReadLoop_group (off : Nat) (comp rest : Bits) :
    eoReadLoop off 34 (comp.length + 1) (false :: comp ++ rest) =
      if val (true :: comp) + 1 ≤ 33 then eoReadLoop off 34 (val (true :: comp) + 1) rest else .error .overflow := by
  rw [eoReadLoop_prefix]
  have := length_lt_val comp
  split
  · exact eoReadLoop_fuel off _ (by omega) (by omega) (by omega) (by omega)
  · rfl

/-- Reading from the start what leads a component of `ell` bits arrives at that component. -/
theorem eoReadLoop_lead (off : Nat) {ell : Nat} (h1 : 1 ≤ ell) (h33 : ell ≤ 33) (bs : Bits) :
    eoReadLoop off 34 1 (omegaLead ell ++ bs) = eoReadLoop off 34 ell bs := by
  induction ell using Nat.strong_induction_on generalizing bs with
  | _ ell ih =>
    obtain rfl | h2 : ell = 1 ∨ 2 ≤ ell := by omega
    · rfl
    · obtain ⟨c, hc, hlen⟩ := bin_cons (n := ell - 1) (by omega)
      have hv : val (true :: c) = ell - 1 := by rw [← hc, val_bin]
      have hlt := log2_pred_lt h2
      rw [omegaLead_eq h2, hc, List.append_assoc, ih _ hlt (by omega) (by omega), ← hlen]
      have := eoReadLoop_group off c bs
      rw [hv, if_pos (by omega), Nat.sub_add_cancel h1] at this
      exact this

/-- What EO_READ accepts from a component on, completed by what leads the component, is an OMEGA code. -/
theorem eoReadLoop_ok (off : Nat) {ell v : Nat} {bs rest : Bits} (h1 : 1 ≤ ell) (h33 : ell ≤ 33)
    (h : eoReadLoop off 34 ell bs = .ok (v, rest)) :
    ∃ n, 1 ≤ n ∧ v = n - off ∧ v < 2 ^ 32 ∧ omegaLead ell ++ bs = omega n ++ rest := by
  induction hm : 34 - ell using Nat.strong_induction_on generalizing ell bs with
  | _ m ih =>
    by_cases hl : bs.length < ell
    · rw [eoReadLoop_cut _ _ hl] at h; cases h
    obtain ⟨b, comp, r, rfl, rfl⟩ := component_cases h1 (Nat.not_lt.1 hl)
    have hb := val_true_bounds comp
    have hlt := length_lt_val comp
    cases b with
    | true =>
      rw [eoReadLoop_payload] at h
      split at h
      · cases h
        refine ⟨val (true :: comp), ?_, rfl, by omega, ?_⟩
        · have := Nat.two_pow_pos comp.length; omega
        · rw [omega_eq, log2_val, bin_val, List.append_assoc]
      · cases h
    | false =>
      rw [eoReadLoop_group] at h
      split at h
      · obtain ⟨n, hn, hv, hv32, he⟩ := ih _ (by omega) (by omega) (by omega) h rfl
        refine ⟨n, hn, hv, hv32, ?_⟩
        rw [← he, omegaLead_eq (ell := val (true :: comp) + 1) (by omega), Nat.add_sub_cancel, log2_val, bin_val]
        simp
      · cases h

/-- EO_READ accepts exactly the OMEGA codes of 32-bit values (R118). -/
theorem eoRead_eq_ok {off v : Nat} {bs rest : Bits} (hoff : off ≤ 1) :
    eoRead off bs = .ok (v, rest) ↔ 1 ≤ v + off ∧ v < 2 ^ 32 ∧ bs = omega (v + off) ++ rest := by
  constructor
  · intro h
    obtain ⟨n, hn, hv, hv32, he⟩ := eoReadLoop_ok off (by decide) (by decide) h
    have hnv : v + off = n := by omega
    exact ⟨by omega, hv32, by rw [hnv, ← he]; rfl⟩
  · rintro ⟨hn, hv, rfl⟩
    have hlog : (v + off).log2 < 33 := (Nat.log2_lt (by omega)).2 (by omega)
    obtain ⟨c, hc, hlen⟩ := bin_cons hn
    have hval : val (true :: c) = v + off := by rw [← hc, val_bin]
    unfold eoRead
    rw [omega_eq, List.append_assoc, eoReadLoop_lead off (by omega) (by omega), hc, ← hlen, eoReadLoop_payload, hval,
      if_pos (by omega), Nat.add_sub_cancel]

/-- With offset 1 the codes are EO1's (R117). -/
theorem eoRead_one_eq_ok {v : Nat} {bs rest : Bits} :
    eoRead 1 bs = .ok (v, rest) ↔ v < 2 ^ 32 ∧ bs = eo1 v ++ rest := by
  rw [eoRead_eq_ok (Nat.le_refl 1)]
  simp [eo1]

/-! ### What EO_READ raises -/

theorem eoReadLoop_eq_error (off : Nat) {ell : Nat} {bs : Bits} {c : ErrCode} (h1 : 1 ≤ ell) (h33 : ell ≤ 33) :
    eoReadLoop off 34 ell bs = .error c ↔ EoFails off ell bs c := by
  constructor
  · intro h
    induction hm : 34 - ell using Nat.strong_induction_on generalizing ell bs with
    | _ m ih =>
      by_cases hl : bs.length < ell
      · rw [eoReadLoop_cut _ _ hl] at h; cases h; exact .cut _ _ hl
      obtain ⟨b, comp, rest, rfl, rfl⟩ := component_cases h1 (Nat.not_lt.1 hl)
      have hlt := length_lt_val comp
      cases b with
      | true =>
        rw [eoReadLoop_payload] at h
        split at h
        · cases h
        · cases h; exact .big _ comp rest rfl (by omega)
      | false =>
        rw [eoReadLoop_group] at h
        split at h
        · exact .next _ comp rest c rfl (by assumption) (ih _ (by omega) (by omega) (by assumption) h rfl)
        · cases h; exact .long _ comp rest rfl (by omega)
  · intro h
    induction h with
    | cut ell bs short => exact eoReadLoop_cut _ _ short
    | long ell comp rest size above => rw [← size, eoReadLoop_group, if_neg (by omega)]
    | big ell comp rest size above => rw [← size, eoReadLoop_payload, if_neg (by omega)]
    | next ell comp rest c size fits _ ih =>
      rw [← size, eoReadLoop_group, if_pos fits]
      exact ih (by omega) fits

/-- EO_READ raises exactly the errors of R118. -/
theorem eoRead_eq_error {off : Nat} {bs : Bits} {c : ErrCode} : eoRead off bs = .error c ↔ EoFails off 1 bs c :=
  eoReadLoop_eq_error off (by decide) (by decide)

end Sys2Proof.Machine
end

section
/-! PROOFS. HUF_READ in the trie of a table none of whose codes leads another, and TRIPLE_READ (42_lz77.md R97;
43_huffman.md R109 to R111). -/

namespace Sys2Proof.Machine

/-! ### Tables whose codes do not lead each other -/

/-- No code of the table equals or leads another (R109). -/
def CodeMap.Free (p : CodeMap) : Prop := p.Pairwise fun a b => ¬ a.2 <+: b.2 ∧ ¬ b.2 <+: a.2

theorem allPrefixFree_iff (l : List Bits) :
    allPrefixFree l = true ↔ l.Pairwise fun a b => ¬ a <+: b ∧ ¬ b <+: a := by
  induction l with
  | nil => simp [allPrefixFree]
  | cons a l ih =>
    have hp (x : Bits) : prefixFree a x = true ↔ ¬ a <+: x ∧ ¬ x <+: a := by
      simp [prefixFree, ← List.isPrefixOf_iff_prefix]
    simp [allPrefixFree, hp, ih, List.pairwise_cons]

/-- TABLE_OK (R109). -/
theorem tableOk_iff (p : CodeMap) : tableOk p = true ↔ p ≠ [] ∧ (∀ e ∈ p, e.2 ≠ []) ∧ p.Free := by
  simp [tableOk, allPrefixFree_iff, CodeMap.Free, List.pairwise_map, and_assoc]

/-- The codes that lead with `b`, without that bit. -/
def CodeMap.child (b : Bool) (p : CodeMap) : CodeMap :=
  p.filterMap fun e => if e.2.head? = some b then some (e.1, e.2.tail) else none

theorem CodeMap.mem_child {b : Bool} {p : CodeMap} {sym : Byte} {bs : Bits} :
    (sym, bs) ∈ p.child b ↔ (sym, b :: bs) ∈ p := by
  unfold CodeMap.child
  rw [List.mem_filterMap]
  constructor
  · rintro ⟨⟨sym', _ | ⟨b', bs'⟩⟩, he, h⟩
    · simp at h
    · simp only [List.head?_cons, Option.some.injEq, Option.ite_none_right_eq_some, Prod.mk.injEq, List.tail_cons] at h
      obtain ⟨rfl, rfl, rfl⟩ := h
      exact he
  · exact fun h => ⟨_, h, by simp⟩

theorem CodeMap.Free.child {p : CodeMap} (h : p.Free) (b : Bool) : (p.child b).Free := by
  refine List.Pairwise.filterMap _ (fun e e' he => ?_) h
  rintro _ hc _ hc'
  obtain ⟨sym, _ | ⟨a, bs⟩⟩ := e <;> obtain ⟨sym', _ | ⟨a', bs'⟩⟩ := e' <;> simp at hc hc'
  obtain ⟨rfl, rfl⟩ := hc
  obtain ⟨rfl, rfl⟩ := hc'
  simpa [List.cons_prefix_cons] using he

/-- In such a table the empty code stands alone. -/
theorem CodeMap.Free.cases {p : CodeMap} (h : p.Free) :
    p = [] ∨ (∃ sym, p = [(sym, [])]) ∨ (p ≠ [] ∧ ∀ e ∈ p, e.2 ≠ []) := by
  by_cases hne : ∀ e ∈ p, e.2 ≠ []
  · by_cases hp : p = []
    · exact .inl hp
    · exact .inr (.inr ⟨hp, hne⟩)
  · right; left
    push Not at hne
    obtain ⟨⟨sym, bs⟩, he, rfl⟩ := hne
    obtain ⟨l, r, rfl⟩ := List.append_of_mem he
    have hl : l = [] := List.eq_nil_iff_forall_not_mem.2 fun a ha =>
      ((List.pairwise_append.1 h).2.2 a ha _ List.mem_cons_self).2 List.nil_prefix
    have hr : r = [] := List.eq_nil_iff_forall_not_mem.2 fun a ha =>
      ((List.pairwise_cons.1 (List.pairwise_append.1 h).2.1).1 a ha).1 List.nil_prefix
    exact ⟨sym, by rw [hl, hr]; rfl⟩

/-! ### Building the trie -/

/-- TRIE_BUILD's insertions, from any vertex (R110). -/
def Trie.insertAll (t : Trie) (p : CodeMap) : Trie := p.foldl (fun t e => t.insert e.1 e.2) t

/-- Insertions below a vertex go to the child that each code's first bit names. -/
theorem Trie.insertAll_node {p : CodeMap} (h : ∀ e ∈ p, e.2 ≠ []) (c0 c1 : Trie) :
    (Trie.node c0 c1).insertAll p = .node (c0.insertAll (p.child false)) (c1.insertAll (p.child true)) := by
  induction p generalizing c0 c1 with
  | nil => rfl
  | cons e p ih =>
    obtain ⟨sym, _ | ⟨b, bs⟩⟩ := e
    · exact absurd rfl (h _ List.mem_cons_self)
    · cases b <;> exact ih (fun e he => h e (by simp [he])) _ _

/-- A code that is not empty makes a vertex of a missing child. -/
theorem Trie.insertAll_absent {p : CodeMap} (hp : p ≠ []) (h : ∀ e ∈ p, e.2 ≠ []) :
    Trie.absent.insertAll p = .node (Trie.absent.insertAll (p.child false)) (Trie.absent.insertAll (p.child true)) := by
  rw [← Trie.insertAll_node h]
  obtain ⟨⟨sym, _ | ⟨b, bs⟩⟩, p, rfl⟩ := List.exists_cons_of_ne_nil hp
  · exact absurd rfl (h _ List.mem_cons_self)
  · cases b <;> rfl

theorem trieBuild_eq {p : CodeMap} (h : tableOk p = true) : trieBuild p = Trie.absent.insertAll p := by
  obtain ⟨hp, hne, _⟩ := (tableOk_iff p).1 h
  rw [Trie.insertAll_absent hp hne, ← Trie.insertAll_node hne]
  rfl

/-! ### HUF_READ -/

/-- Below the vertex that `b` leads to, an error of the whole table is one of the codes there. -/
theorem HufFails.child_iff {p : CodeMap} (h : ∀ e ∈ p, e.2 ≠ []) (b : Bool) (bs : Bits) (c : ErrCode) :
    HufFails p (b :: bs) c ↔ HufFails (p.child b) bs c := by
  constructor
  · rintro (⟨⟨sym, _ | ⟨b', code⟩⟩, mem, inside, short⟩ | ⟨noCode, outside⟩)
    · simp at short
    · obtain ⟨rfl, hin⟩ := List.cons_prefix_cons.1 inside
      exact .cut (sym, code) (CodeMap.mem_child.2 mem) hin (by simpa using short)
    · exact .missing (fun e he hp => noCode _ (CodeMap.mem_child.1 he) (List.cons_prefix_cons.2 ⟨rfl, hp⟩))
        (fun e he hp => outside _ (CodeMap.mem_child.1 he) (List.cons_prefix_cons.2 ⟨rfl, hp⟩))
  · rintro (⟨e, mem, inside, short⟩ | ⟨noCode, outside⟩)
    · exact .cut _ (CodeMap.mem_child.1 mem) (List.cons_prefix_cons.2 ⟨rfl, inside⟩) (by simpa using short)
    · refine .missing (fun e he hp => ?_) (fun e he hp => ?_) <;> obtain ⟨sym, _ | ⟨b', code⟩⟩ := e
      · exact h _ he rfl
      · obtain ⟨rfl, hin⟩ := List.cons_prefix_cons.1 hp
        exact noCode (sym, code) (CodeMap.mem_child.2 he) hin
      · exact h _ he rfl
      · obtain ⟨rfl, hin⟩ := List.cons_prefix_cons.1 hp
        exact outside (sym, code) (CodeMap.mem_child.2 he) hin

theorem Trie.read_node_cons (c0 c1 : Trie) (b : Bool) (bs : Bits) :
    (Trie.node c0 c1).read (b :: bs) = (if b then c1 else c0).read bs := by cases b <;> rfl

/-- HUF_READ in the trie of such a table returns the symbol whose code the bits lead with, and what follows it. -/
theorem Trie.read_insertAll_eq_ok {p : CodeMap} (hp : p.Free) {bs rest : Bits} {sym : Byte} :
    (Trie.absent.insertAll p).read bs = .ok (sym, rest) ↔ ∃ code, (sym, code) ∈ p ∧ bs = code ++ rest := by
  induction bs generalizing p with
  | nil =>
    rcases hp.cases with rfl | ⟨sym', rfl⟩ | ⟨hne, hcodes⟩
    · simp [Trie.insertAll, Trie.read]
    · simp [Trie.insertAll, Trie.insert, Trie.read, eq_comm]
    · rw [Trie.insertAll_absent hne hcodes]
      refine ⟨fun h => by simp [Trie.read] at h, ?_⟩
      rintro ⟨code, he, h⟩
      exact absurd (List.append_eq_nil_iff.1 h.symm).1 (hcodes _ he)
  | cons b bs ih =>
    rcases hp.cases with rfl | ⟨sym', rfl⟩ | ⟨hne, hcodes⟩
    · simp [Trie.insertAll, Trie.read]
    · simp [Trie.insertAll, Trie.insert, Trie.read, eq_comm]
    · have hchild : (Trie.absent.insertAll p).read (b :: bs) = (Trie.absent.insertAll (p.child b)).read bs := by
        rw [Trie.insertAll_absent hne hcodes, Trie.read_node_cons]; cases b <;> rfl
      rw [hchild, ih (hp.child b)]
      constructor
      · rintro ⟨code, he, rfl⟩
        exact ⟨b :: code, CodeMap.mem_child.1 he, rfl⟩
      · rintro ⟨_ | ⟨b', code⟩, he, h⟩
        · exact absurd rfl (hcodes _ he)
        · obtain ⟨rfl, rfl⟩ := List.cons.inj h
          exact ⟨code, CodeMap.mem_child.2 he, rfl⟩

/-- HUF_READ in the trie of such a table raises exactly the errors of R111. -/
theorem Trie.read_insertAll_eq_error {p : CodeMap} (hp : p.Free) {bs : Bits} {c : ErrCode} :
    (Trie.absent.insertAll p).read bs = .error c ↔ HufFails p bs c := by
  have empty (bs : Bits) : (Trie.absent.insertAll []).read bs = .error c ↔ HufFails [] bs c := by
    constructor
    · intro h; cases h; exact .missing (by simp) (by simp)
    · rintro (⟨_, mem, _⟩ | _)
      · simp at mem
      · rfl
  have leaf (sym : Byte) (bs : Bits) :
      (Trie.absent.insertAll [(sym, [])]).read bs = .error c ↔ HufFails [(sym, [])] bs c := by
    constructor
    · intro h; cases h
    · rintro (⟨e, mem, _, short⟩ | ⟨noCode, _⟩)
      · rw [List.mem_singleton] at mem; subst mem; simp at short
      · exact absurd List.nil_prefix (noCode (sym, []) (by simp))
  induction bs generalizing p with
  | nil =>
    rcases hp.cases with rfl | ⟨sym, rfl⟩ | ⟨hne, hcodes⟩
    · exact empty _
    · exact leaf _ _
    · obtain ⟨e, he⟩ := List.exists_mem_of_ne_nil p hne
      rw [Trie.insertAll_absent hne hcodes]
      constructor
      · intro h; cases h
        exact .cut e he List.nil_prefix (List.length_pos_iff.2 (hcodes e he))
      · rintro (_ | ⟨_, outside⟩)
        · rfl
        · exact absurd List.nil_prefix (outside e he)
  | cons b bs ih =>
    rcases hp.cases with rfl | ⟨sym, rfl⟩ | ⟨hne, hcodes⟩
    · exact empty _
    · exact leaf _ _
    · rw [HufFails.child_iff hcodes, Trie.insertAll_absent hne hcodes, Trie.read_node_cons]
      cases b <;> exact ih (hp.child _)

/-- R111 in the trie of a table for which TABLE_OK holds: the symbol read. -/
theorem trieBuild_read_eq_ok {p : CodeMap} (h : tableOk p = true) {bs rest : Bits} {sym : Byte} :
    (trieBuild p).read bs = .ok (sym, rest) ↔ ∃ code, (sym, code) ∈ p ∧ bs = code ++ rest := by
  rw [trieBuild_eq h, Trie.read_insertAll_eq_ok ((tableOk_iff p).1 h).2.2]

/-- R111 in the trie of a table for which TABLE_OK holds: the error raised. -/
theorem trieBuild_read_eq_error {p : CodeMap} (h : tableOk p = true) {bs : Bits} {c : ErrCode} :
    (trieBuild p).read bs = .error c ↔ HufFails p bs c := by
  rw [trieBuild_eq h, Trie.read_insertAll_eq_error ((tableOk_iff p).1 h).2.2]

/-! ### TRIPLE_READ -/

/-- TRIPLE_READ returns a triple whose container form the bits lead with (R96, R97). -/
theorem tripleRead_eq_ok {p : CodeMap} (h : tableOk p = true) {bs rest : Bits} {o l : Nat} {sym : Byte} :
    tripleRead (trieBuild p) bs = .ok ((o, l, sym), rest) ↔
      o < 2 ^ 32 ∧ l < 2 ^ 32 ∧ ∃ code, (sym, code) ∈ p ∧ bs = tripleBits o l code ++ rest := by
  simp only [tripleRead_eq, bind_eq_ok, Prod.exists, eoRead_one_eq_ok, trieBuild_read_eq_ok h, Except.ok.injEq,
    Prod.mk.injEq, tripleBits]
  constructor
  · rintro ⟨_, _, ⟨ho, rfl⟩, _, _, ⟨hl, rfl⟩, _, _, ⟨code, he, rfl⟩, ⟨rfl, rfl, rfl⟩, rfl⟩
    exact ⟨ho, hl, code, he, by simp⟩
  · rintro ⟨ho, hl, code, he, rfl⟩
    exact ⟨o, _, ⟨ho, by rw [List.append_assoc, List.append_assoc]⟩, l, _, ⟨hl, rfl⟩, sym, rest, ⟨code, he, rfl⟩,
      ⟨rfl, rfl, rfl⟩, rfl⟩

/-- TRIPLE_READ raises exactly the errors of R97. -/
theorem tripleRead_eq_error {p : CodeMap} (h : tableOk p = true) {bs : Bits} {c : ErrCode} :
    tripleRead (trieBuild p) bs = .error c ↔ TripleFails p bs c := by
  simp only [tripleRead_eq, bind_eq_error, Prod.exists, eoRead_one_eq_ok, eoRead_eq_error, trieBuild_read_eq_error h]
  constructor
  · rintro (he | ⟨o, _, ⟨ho, rfl⟩, he | ⟨l, r, ⟨hl, rfl⟩, he | ⟨_, _, _, he⟩⟩⟩)
    · exact .offset _ _ he
    · exact .length _ _ _ ho he
    · rw [← List.append_assoc]; exact .symbol _ _ _ _ ho hl he
    · cases he
  · rintro (⟨_, _, he⟩ | ⟨o, r, _, ho, he⟩ | ⟨o, l, r, _, ho, hl, he⟩)
    · exact .inl he
    · exact .inr ⟨o, r, ⟨ho, rfl⟩, .inl he⟩
    · exact .inr ⟨o, eo1 l ++ r, ⟨ho, by rw [List.append_assoc]⟩, .inr ⟨l, r, ⟨hl, rfl⟩, .inl he⟩⟩

end Sys2Proof.Machine
end

section
/-! PROOFS. FRAME_PARSE: what each of its readers accepts and which error it raises (46_container.md R132). -/

namespace Sys2Proof.Machine

/-! ### Bytes -/

theorem readByte_eq_ok {b : Byte} {bs rest : Bits} : readByte bs = .ok (b, rest) ↔ bs = binFixed 8 b.toNat ++ rest := by
  constructor
  · intro h
    rcases readByte_cases bs with ⟨_, e⟩ | ⟨b', r, hbs, e⟩ <;> rw [e] at h <;> cases h
    exact hbs
  · rintro rfl; exact readByte_binFixed b rest

theorem readByte_eq_error {bs : Bits} {c : ErrCode} : readByte bs = .error c ↔ bs.length < 8 ∧ c = .truncated := by
  rcases readByte_cases bs with ⟨hl, e⟩ | ⟨b, r, rfl, e⟩ <;> rw [e]
  · simp [hl, eq_comm]
  · simp

/-- The filename's bytes as FRAME_BITS writes them (R128). -/
def nameBits (name : List Byte) : Bits := name.flatMap fun b => binFixed 8 b.toNat

theorem nameBits_length (name : List Byte) : (nameBits name).length = 8 * name.length := by
  induction name with
  | nil => rfl
  | cons b name ih =>
    rw [nameBits, List.flatMap_cons, List.length_append, binFixed_length, List.length_cons]
    unfold nameBits at ih
    omega

theorem readBytes_succ (n : Nat) (bs : Bits) :
    readBytes (n + 1) bs = (readByte bs >>= fun b => readBytes n b.2 >>= fun r => .ok (b.1 :: r.1, r.2)) := rfl

theorem readBytes_eq_ok {n : Nat} {name : List Byte} {bs rest : Bits} :
    readBytes n bs = .ok (name, rest) ↔ name.length = n ∧ bs = nameBits name ++ rest := by
  constructor
  · intro h
    induction n generalizing bs name with
    | zero => cases h; exact ⟨rfl, rfl⟩
    | succ n ih =>
      simp only [readBytes_succ, bind_eq_ok, Prod.exists, readByte_eq_ok, Except.ok.injEq, Prod.mk.injEq] at h
      obtain ⟨b, _, rfl, name, _, h, rfl, rfl⟩ := h
      obtain ⟨hl, rfl⟩ := ih h
      exact ⟨by rw [List.length_cons, hl], by simp [nameBits]⟩
  · rintro ⟨rfl, rfl⟩; exact readBytes_flatMap name rest

theorem readBytes_eq_error {n : Nat} {bs : Bits} {c : ErrCode} :
    readBytes n bs = .error c ↔ bs.length < 8 * n ∧ c = .truncated := by
  induction n generalizing bs with
  | zero => simp [readBytes]
  | succ n ih =>
    rw [readBytes_succ]
    rcases readByte_cases bs with ⟨hl, e⟩ | ⟨b, r, rfl, e⟩ <;> rw [e]
    · simp only [bind_error, Except.error.injEq, eq_comm (a := ErrCode.truncated)]
      exact ⟨fun h => ⟨by omega, h⟩, fun h => h.2⟩
    · simp only [bind_ok, bind_eq_error, ih, reduceCtorEq, and_false, exists_false, or_false, List.length_append,
        binFixed_length]
      rw [show r.length < 8 * n ↔ 8 + r.length < 8 * (n + 1) by omega]

/-! ### The metadata table -/

/-- Table entries as a container lists them, the symbols from `least` on (R128, R132). -/
structure CodeMap.ListedFrom (least : Nat) (p : CodeMap) : Prop where
  sorted : p.Pairwise fun a b => a.1.toNat < b.1.toNat
  above  : ∀ e ∈ p, least ≤ e.1.toNat
  sizes  : ∀ e ∈ p, 1 ≤ e.2.length ∧ e.2.length ≤ 255

theorem CodeMap.listedFrom_nil (least : Nat) : CodeMap.ListedFrom least [] := ⟨.nil, by simp, by simp⟩

theorem CodeMap.listedFrom_cons {least : Nat} {e : Byte × Bits} {p : CodeMap} :
    CodeMap.ListedFrom least (e :: p) ↔
      (1 ≤ e.2.length ∧ e.2.length ≤ 255) ∧ least ≤ e.1.toNat ∧ CodeMap.ListedFrom (e.1.toNat + 1) p := by
  constructor
  · rintro ⟨sorted, above, sizes⟩
    obtain ⟨hlt, hp⟩ := List.pairwise_cons.1 sorted
    exact ⟨sizes e (by simp), above e (by simp), hp, fun a ha => hlt a ha, fun a ha => sizes a (by simp [ha])⟩
  · rintro ⟨hsize, hleast, sorted, above, sizes⟩
    refine ⟨List.pairwise_cons.2 ⟨fun a ha => above a ha, sorted⟩, fun a ha => ?_, fun a ha => ?_⟩ <;>
      rcases List.mem_cons.1 ha with rfl | ha
    · exact hleast
    · have := above a ha; omega
    · exact hsize
    · exact sizes a ha

theorem CodeMap.listed_iff {p : CodeMap} : p.Listed ↔ (1 ≤ p.length ∧ p.length ≤ 256) ∧ CodeMap.ListedFrom 0 p :=
  ⟨fun ⟨hc, hs, hz⟩ => ⟨hc, hs, by simp, hz⟩, fun ⟨hc, hs, _, hz⟩ => ⟨hc, hs, hz⟩⟩

theorem entryBits_append (e : Byte × Bits) (r : Bits) :
    entryBits e ++ r = binFixed 8 e.1.toNat ++ (eo1 e.2.length ++ (e.2 ++ r)) := by simp [entryBits]

/-- The table reader accepts exactly the entries that a container lists. -/
theorem readEntries_eq_ok {n least : Nat} {p : CodeMap} {bs rest : Bits} :
    readEntries n least bs = .ok (p, rest) ↔
      p.length = n ∧ p.ListedFrom least ∧ bs = p.flatMap entryBits ++ rest := by
  induction n generalizing least bs rest p with
  | zero =>
    constructor
    · intro h; cases h; exact ⟨rfl, CodeMap.listedFrom_nil _, rfl⟩
    · rintro ⟨h, _, rfl⟩; rw [List.length_eq_zero_iff.1 h]; rfl
  | succ n ih =>
    simp only [readEntries_succ, bind_eq_ok, Prod.exists, readByte_eq_ok, eoRead_one_eq_ok, require_eq_ok, take_eq_ok,
      ih, Except.ok.injEq, Prod.mk.injEq, exists_const]
    constructor
    · rintro ⟨sym, _, rfl, len, r, ⟨_, rfl⟩, ⟨h0, h255⟩, hleast, code, _, ⟨hlen, rfl, rfl⟩, p, _,
        ⟨rfl, hp, hr⟩, rfl, rfl⟩
      refine ⟨rfl, CodeMap.listedFrom_cons.2 ⟨?_, hleast, hp⟩, ?_⟩
      · rw [List.length_take, Nat.min_eq_left hlen]; omega
      · rw [List.flatMap_cons, List.append_assoc, entryBits_append, ← hr, List.take_append_drop, List.length_take,
          Nat.min_eq_left hlen]
    · rintro ⟨hl, hp, rfl⟩
      obtain ⟨⟨sym, code⟩, p, rfl⟩ := List.exists_cons_of_length_eq_add_one hl
      obtain ⟨⟨hpos, htop⟩, hleast, hp⟩ := CodeMap.listedFrom_cons.1 hp
      dsimp only at hpos htop
      refine ⟨sym, _, ?_, code.length, code ++ (p.flatMap entryBits ++ rest), ⟨by omega, rfl⟩, ⟨by omega, htop⟩, hleast,
        code, p.flatMap entryBits ++ rest, ⟨by simp, by simp, by simp⟩, p, rest, ⟨by simpa using hl, hp, rfl⟩, rfl, rfl⟩
      rw [List.flatMap_cons, List.append_assoc, entryBits_append]

/-- The table reader raises exactly the errors of R132. -/
theorem readEntries_eq_error {n least : Nat} {bs : Bits} {c : ErrCode} :
    readEntries n least bs = .error c ↔ EntriesFail n least bs c := by
  induction n generalizing least bs with
  | zero => exact ⟨nofun, nofun⟩
  | succ n ih =>
    simp only [readEntries_succ, bind_eq_error, Prod.exists, readByte_eq_ok, readByte_eq_error, eoRead_one_eq_ok,
      eoRead_eq_error, require_eq_ok, require_eq_error, take_eq_ok, take_eq_error, ih, reduceCtorEq, and_false,
      exists_false, or_false, exists_const]
    constructor
    · rintro (⟨hl, rfl⟩ | ⟨sym, _, rfl, hf | ⟨len, r, ⟨h32, rfl⟩, ⟨hbad, rfl⟩ | ⟨⟨h0, h255⟩, ⟨hbad, rfl⟩ |
        ⟨hleast, ⟨hshort, rfl⟩ | ⟨code, _, ⟨hlen, rfl, rfl⟩, hf⟩⟩⟩⟩⟩)
      · exact .symbol _ _ _ hl
      · exact .length _ _ _ _ _ hf
      · rw [← List.append_assoc]; exact .badLength _ _ _ _ _ h32 (by omega)
      · rw [← List.append_assoc]; exact .order _ _ _ _ _ (by omega) h255 (by omega)
      · rw [← List.append_assoc]; exact .code _ _ _ _ _ (by omega) h255 hleast hshort
      · have hl : (r.take len).length = len := by rw [List.length_take, Nat.min_eq_left hlen]
        have := EntriesFail.next n least (sym, r.take len) (r.drop len) c (by dsimp only; omega) (by dsimp only; omega)
          hleast hf
        rwa [entryBits_append, List.take_append_drop, hl] at this
    · intro h
      cases h with
      | symbol _ _ _ hl => exact .inl ⟨hl, rfl⟩
      | length _ _ sym r _ hf => exact .inr ⟨sym, r, rfl, .inl hf⟩
      | badLength _ _ sym len r h32 hbad =>
        exact .inr ⟨sym, _, List.append_assoc _ _ _, .inr ⟨len, r, ⟨h32, rfl⟩, .inl ⟨by omega, rfl⟩⟩⟩
      | order _ _ sym len r pos top hbad =>
        exact .inr ⟨sym, _, List.append_assoc _ _ _, .inr ⟨len, r, ⟨by omega, rfl⟩,
          .inr ⟨⟨by omega, top⟩, .inl ⟨by omega, rfl⟩⟩⟩⟩
      | code _ _ sym len r pos top hleast short =>
        exact .inr ⟨sym, _, List.append_assoc _ _ _, .inr ⟨len, r, ⟨by omega, rfl⟩,
          .inr ⟨⟨by omega, top⟩, .inr ⟨hleast, .inl ⟨short, rfl⟩⟩⟩⟩⟩
      | next _ _ e r _ pos top hleast hf =>
        exact .inr ⟨e.1, _, entryBits_append e r, .inr ⟨e.2.length, e.2 ++ r, ⟨by omega, rfl⟩,
          .inr ⟨⟨by omega, top⟩, .inr ⟨hleast, .inr ⟨e.2, r, ⟨by simp, by simp, by simp⟩, hf⟩⟩⟩⟩⟩

/-! ### The triples -/

/-- A copy with no source, a source before the start, or a result past the limit is BAD_STREAM (R95). -/
theorem reconOne_of_bad {out : List Byte} {o l n : Nat} (c : Byte)
    (h : (o = 0 ∧ 0 < l) ∨ out.length < o ∨ n < out.length + l + 1) :
    reconOne out (o, l, c) n .badStream = .error .badStream := by
  unfold reconOne reconCheck
  simp only [bind_eq_error, require_eq_error, require_eq_ok, exists_const, reduceCtorEq, and_false, or_false, and_true]
  omega

/-- The triple loop raises exactly the errors of R95 and R132. -/
theorem readContent_eq_error {p : CodeMap} (hp : tableOk p = true) {n fuel : Nat} {out : List Byte} {bs : Bits}
    {c : ErrCode} (hf : n ≤ out.length + fuel) :
    readContent (trieBuild p) n fuel out bs = .error c ↔ TriplesFail p n out bs c := by
  induction fuel generalizing out bs with
  | zero =>
    refine ⟨nofun, fun h => ?_⟩
    cases h <;> omega
  | succ fuel ih =>
    rw [readContent_succ]
    split
    case isFalse hm =>
      refine ⟨nofun, fun h => ?_⟩
      cases h <;> omega
    case isTrue hm =>
      simp only [bind_eq_error, Prod.exists, tripleRead_eq_error hp, tripleRead_eq_ok hp]
      constructor
      · rintro (h | ⟨o, l, sym, r, ⟨ho, hl, code, he, rfl⟩, h⟩)
        · exact .read _ _ _ hm h
        · rcases reconOne_cases out o l sym n with ⟨hbad, e⟩ | ⟨out', e, hlen, _⟩ <;> rw [e] at h
          · rcases h with h | ⟨_, h, _⟩ <;> cases h
            exact .replay _ _ _ _ _ hm he ho hl hbad
          · rcases h with h | ⟨_, h, h'⟩ <;> cases h
            exact .next _ _ _ _ _ _ _ hm he ho hl e ((ih (by omega)).1 h')
      · rintro (⟨_, _, _, _, h⟩ | ⟨_, o, l, e, r, _, he, ho, hl, hbad⟩ |
        ⟨_, out', o, l, e, r, _, _, he, ho, hl, hgood, h⟩)
        · exact .inl h
        · refine .inr ⟨o, l, e.1, r, ⟨ho, hl, e.2, he, rfl⟩, .inl ?_⟩
          exact reconOne_of_bad _ hbad
        · refine .inr ⟨o, l, e.1, r, ⟨ho, hl, e.2, he, rfl⟩, .inr ⟨out', hgood, (ih ?_).2 h⟩⟩
          rcases reconOne_cases out o l e.1 n with ⟨_, h'⟩ | ⟨_, h', hlen, _⟩ <;> cases h'.symm.trans hgood
          omega

/-- The triple loop ends with the content length it was given (R132). -/
theorem readContent_length {root : Trie} {n fuel : Nat} {out x : List Byte} {bs rest : Bits} (hn : out.length ≤ n)
    (hf : n ≤ out.length + fuel) (h : readContent root n fuel out bs = .ok (x, rest)) : x.length = n := by
  induction fuel generalizing out bs with
  | zero => cases h; omega
  | succ fuel ih =>
    rw [readContent_succ] at h
    split at h
    · simp only [bind_eq_ok] at h
      obtain ⟨⟨⟨o, l, c⟩, r⟩, _, out', hr, h⟩ := h
      rcases reconOne_cases out o l c n with ⟨_, e⟩ | ⟨out', e, hlen, hle⟩ <;> cases e.symm.trans hr
      exact ih (by omega) (by omega) h
    · cases h; omega

/-! ### FRAME_PARSE -/

/-- The part of FRAME_PARSE from the table on, for a content of length `n` (R132). -/
def parseTable (name : List Byte) (n : Nat) : Reader Frame := fun bs =>
  eoRead 1 bs >>= fun d => require (d.1 ≠ 0 ∧ d.1 ≤ 256) .badTable >>= fun _ =>
    readEntries d.1 0 d.2 >>= fun p => require (tableOk p.1 = true) .badTable >>= fun _ =>
    readContent (trieBuild p.1) n n [] p.2 >>= fun x => .ok (⟨name, x.1, p.1⟩, x.2)

/-- FRAME_PARSE field by field (R132). -/
theorem frameParse_eq (cfg : Config) (bs : Bits) :
    frameParse cfg bs =
      (eoRead 1 bs >>= fun l => require (l.1 ≤ cfg.nameCap) .bufFull >>= fun _ => readBytes l.1 l.2 >>= fun a =>
        eoRead 1 a.2 >>= fun n => require (n.1 ≠ 0) .badStream >>= fun _ =>
        require (n.1 ≤ cfg.contentCap) .bufFull >>= fun _ => parseTable a.1 n.1 n.2) := rfl

/-- What FRAME_PARSE's table part accepts. -/
theorem parseTable_ok {name : List Byte} {n : Nat} {f : Frame} {bs rest : Bits}
    (h : parseTable name n bs = .ok (f, rest)) :
    f.name = name ∧ f.content.length = n ∧ f.codes.Listed ∧ tableOk f.codes = true := by
  simp only [parseTable, bind_eq_ok, require_eq_ok, exists_const, Prod.exists, readEntries_eq_ok, Except.ok.injEq,
    Prod.mk.injEq] at h
  obtain ⟨_, _, _, ⟨h0, h256⟩, p, _, ⟨rfl, hp, _⟩, hok, x, _, hx, rfl, _⟩ := h
  exact ⟨rfl, readContent_length (Nat.zero_le _) (by simp) hx,
    CodeMap.listed_iff.2 ⟨⟨Nat.pos_of_ne_zero h0, h256⟩, hp⟩, hok⟩

/-- A frame that FRAME_PARSE accepts fits the configuration, and its table is one for which TABLE_OK holds. -/
theorem frameParse_ok {cfg : Config} {f : Frame} {bs rest : Bits} (h : frameParse cfg bs = .ok (f, rest)) :
    f.name.length ≤ cfg.nameCap ∧ f.content.length ≤ cfg.contentCap ∧ f.codes.Listed ∧ tableOk f.codes = true := by
  simp only [frameParse_eq, bind_eq_ok, require_eq_ok, exists_const, Prod.exists, readBytes_eq_ok] at h
  obtain ⟨_, _, _, hname, name, _, ⟨rfl, _⟩, n, _, _, _, hcontent, h⟩ := h
  obtain ⟨rfl, rfl, hlisted, hok⟩ := parseTable_ok h
  exact ⟨hname, hcontent, hlisted, hok⟩

theorem parseTable_eq_error {name : List Byte} {n : Nat} {bs : Bits} {c : ErrCode} :
    parseTable name n bs = .error c ↔ TableFails n bs c := by
  simp only [parseTable, bind_eq_error, Prod.exists, eoRead_one_eq_ok, eoRead_eq_error, require_eq_ok, require_eq_error,
    readEntries_eq_ok, readEntries_eq_error, exists_const, reduceCtorEq, and_false, or_false]
  constructor
  · rintro (h | ⟨d, r, ⟨h32, rfl⟩, ⟨hbad, rfl⟩ | ⟨⟨h0, h256⟩, h | ⟨p, r, ⟨rfl, hp, rfl⟩, h⟩⟩⟩)
    · exact .size _ _ h
    · exact .badSize _ _ h32 (by omega)
    · exact .entries _ _ _ (by omega) h256 h
    · have hlisted : p.Listed := CodeMap.listed_iff.2 ⟨⟨by omega, h256⟩, hp⟩
      rw [← List.append_assoc]
      rcases h with ⟨hbad, rfl⟩ | ⟨hok, h⟩
      · exact .notOk _ _ hlisted (by simpa using hbad)
      · exact .triples _ _ _ hlisted hok ((readContent_eq_error hok (by simp)).1 h)
  · rintro (⟨_, _, h⟩ | ⟨d, r, h32, hbad⟩ | ⟨d, r, _, hpos, htop, h⟩ | ⟨p, r, hlisted, hbad⟩ |
      ⟨p, r, _, hlisted, hok, h⟩)
    · exact .inl h
    · exact .inr ⟨d, r, ⟨h32, rfl⟩, .inl ⟨by omega, rfl⟩⟩
    · exact .inr ⟨d, r, ⟨by omega, rfl⟩, .inr ⟨⟨by omega, htop⟩, .inl h⟩⟩
    · obtain ⟨⟨hpos, htop⟩, hp⟩ := CodeMap.listed_iff.1 hlisted
      exact .inr ⟨p.length, _, ⟨by omega, List.append_assoc _ _ _⟩,
        .inr ⟨⟨by omega, htop⟩, .inr ⟨p, r, ⟨rfl, hp, rfl⟩, .inl ⟨by simp [hbad], rfl⟩⟩⟩⟩
    · obtain ⟨⟨hpos, htop⟩, hp⟩ := CodeMap.listed_iff.1 hlisted
      exact .inr ⟨p.length, _, ⟨by omega, List.append_assoc _ _ _⟩,
        .inr ⟨⟨by omega, htop⟩, .inr ⟨p, r, ⟨rfl, hp, rfl⟩, .inr ⟨hok, (readContent_eq_error hok (by simp)).2 h⟩⟩⟩⟩

/-- FRAME_PARSE raises exactly the errors of R132, the first one in stream order. -/
theorem frameParse_eq_error {cfg : Config} {bs : Bits} {c : ErrCode} :
    frameParse cfg bs = .error c ↔ FrameFails cfg bs c := by
  simp only [frameParse_eq, bind_eq_error, Prod.exists, eoRead_one_eq_ok, eoRead_eq_error, require_eq_ok,
    require_eq_error, readBytes_eq_ok, readBytes_eq_error, parseTable_eq_error, exists_const]
  constructor
  · rintro (h | ⟨nl, r, ⟨hn, rfl⟩, ⟨hbad, rfl⟩ | ⟨hfit, ⟨hshort, rfl⟩ | ⟨name, r, ⟨rfl, rfl⟩, h⟩⟩⟩)
    · exact .nameLength _ _ h
    · exact .nameTooLong _ _ hn (by omega)
    · exact .name _ _ hn hfit hshort
    · rw [← List.append_assoc]
      rcases h with h | ⟨n, r, ⟨hc, rfl⟩, ⟨hz, rfl⟩ | ⟨hpos, ⟨hbig, rfl⟩ | ⟨hroom, h⟩⟩⟩
      · exact .contentLength _ _ _ hn hfit h
      · rw [← List.append_assoc, not_not.1 hz]; exact .contentEmpty _ _ hn hfit
      · rw [← List.append_assoc]; exact .contentTooLong _ _ _ hn hfit hc (by omega)
      · rw [← List.append_assoc]; exact .table _ _ _ _ hn hfit (by omega) hc hroom h
  · have afterName (name : List Byte) (bs : Bits) :
        eo1 name.length ++ name.flatMap (fun b => binFixed 8 b.toNat) ++ bs =
          eo1 name.length ++ (nameBits name ++ bs) :=
      List.append_assoc _ _ _
    rintro (⟨_, _, h⟩ | ⟨nl, r, hn, hbad⟩ | ⟨nl, r, hn, hfit, hshort⟩ | ⟨name, r, _, hn, hfit, h⟩ |
      ⟨name, r, hn, hfit⟩ | ⟨name, n, r, hn, hfit, hc, hbig⟩ | ⟨name, n, r, _, hn, hfit, hpos, hc, hroom, h⟩)
    · exact .inl h
    · exact .inr ⟨nl, r, ⟨hn, rfl⟩, .inl ⟨by omega, rfl⟩⟩
    · exact .inr ⟨nl, r, ⟨hn, rfl⟩, .inr ⟨hfit, .inl ⟨hshort, rfl⟩⟩⟩
    · exact .inr ⟨_, _, ⟨hn, afterName name r⟩, .inr ⟨hfit, .inr ⟨name, _, ⟨rfl, rfl⟩, .inl h⟩⟩⟩
    · rw [List.append_assoc _ (eo1 0)]
      exact .inr ⟨_, _, ⟨hn, afterName name _⟩, .inr ⟨hfit, .inr ⟨name, _, ⟨rfl, rfl⟩,
        .inr ⟨0, r, ⟨by decide, rfl⟩, .inl ⟨by simp, rfl⟩⟩⟩⟩⟩
    · rw [List.append_assoc _ (eo1 n)]
      exact .inr ⟨_, _, ⟨hn, afterName name _⟩, .inr ⟨hfit, .inr ⟨name, _, ⟨rfl, rfl⟩,
        .inr ⟨n, r, ⟨hc, rfl⟩, .inr ⟨by omega, .inl ⟨by omega, rfl⟩⟩⟩⟩⟩⟩
    · rw [List.append_assoc _ (eo1 n)]
      exact .inr ⟨_, _, ⟨hn, afterName name _⟩, .inr ⟨hfit, .inr ⟨name, _, ⟨rfl, rfl⟩,
        .inr ⟨n, r, ⟨hc, rfl⟩, .inr ⟨by omega, .inr ⟨hroom, h⟩⟩⟩⟩⟩⟩

end Sys2Proof.Machine
end

section
/-! PROOFS. What a command stores (the "Written" lists of files 40 to 46), and with it the invariants of the
memories and of the decode trie (10_state.md R38, R44; 20_memory.md R61). -/

namespace Sys2Proof.Machine

/-! ### What a command stores -/

/-- NAME and CONTENT as FRAME_D writes them (R135). -/
def State.writeFrame (s : State) (f : Frame) : State :=
  { s with mems := { s.mems with name := s.mems.name.writeList 0 f.name
                                 content := s.mems.content.writeList 0 f.content } }

/-- The memories, the trie and the draws that the updates of a command leave, with the bound that the command
has checked. -/
inductive State.Stores (s : State) : Mems → Option Trie → Nat → Prop where
  | nothing : s.Stores s.mems s.trie s.draws
  /-- Append (R122). -/
  | bits (i : Nat) (bs : Bits) (fits : i + bs.length ≤ s.cfg.bitbufCap) :
      s.Stores (s.writeBits i bs).mems s.trie s.draws
  /-- ZARRAY (R82). -/
  | zout (v : Word) (vs : List Word) (fits : 1 + vs.length ≤ s.cfg.zcap) :
      s.Stores { s.mems with zout := (s.mems.zout.write 0 v).writeList 1 vs } s.trie (s.draws + 1)
  /-- LZ_RECON (R99). -/
  | content (i : Nat) (vs : List Byte) (fits : i + vs.length ≤ s.cfg.contentCap) :
      s.Stores { s.mems with content := s.mems.content.writeList i vs } s.trie s.draws
  /-- HUF_BUILD (R112). -/
  | table (p : CodeMap) : s.Stores (s.writeTable p).mems none s.draws
  /-- HUF_TRIE (R114). -/
  | decodeTrie (ok : tableOk s.tablePairs = true) : s.Stores s.mems (some (trieBuild s.tablePairs)) s.draws
  /-- FRAME_C: a container of `n` bits with its pad bits, and the table (R130, R134). -/
  | container (n : Nat) (bs : Bits) (p : CodeMap) (fits : n ≤ s.cfg.bitbufCap) (size : bs.length = byteRound n) :
      s.Stores ((s.writeBits 0 bs).writeTable p).mems none s.draws
  /-- FRAME_D: what FRAME_PARSE returned (R135). -/
  | frame (f : Frame) (name : f.name.length ≤ s.cfg.nameCap) (content : f.content.length ≤ s.cfg.contentCap)
      (listed : f.codes.Listed) (ok : tableOk f.codes = true) :
      s.Stores ((s.writeFrame f).writeTable f.codes).mems (some (trieBuild f.codes)) s.draws
  /-- An execution-stage error of a frame command (R140). -/
  | lost (ms : List MemName) (n : Nat) (draws : s.draws + ms.length ≤ n) : s.Stores (s.redrawAll ms).mems none n

/-- What a state stores, as `t` holds it. -/
def State.StoresIn (s t : State) : Prop := s.Stores t.mems t.trie t.draws

theorem State.StoresIn.commitOk {s u : State} (h : s.StoresIn u) : s.StoresIn u.commitOk := h

theorem State.StoresIn.commitErr {s u : State} (h : s.StoresIn u) (c : ErrCode) : s.StoresIn (u.commitErr c) := h

theorem State.appendChecked_stores {s t : State} {bs : Bits} (h : s.appendChecked bs = .ok t) : s.StoresIn t := by
  rw [State.appendChecked_eq] at h
  split at h
  case isTrue hf => cases h; exact State.Stores.bits _ bs hf
  case isFalse => cases h

theorem zarray_stores {s t : State} (h : zarray s = .ok t) : s.StoresIn t := by
  simp only [zarray, bind_eq_ok, require_eq_ok] at h
  obtain ⟨_, hz, h⟩ := h
  split at h
  · cases h; exact State.Stores.nothing
  · cases h; exact State.Stores.zout _ _ (by simp; omega)

theorem lzRecon_stores {s t : State} (h : lzRecon s = .ok t) : s.StoresIn t := by
  simp only [lzRecon, reconCheck, bind_eq_ok, require_eq_ok] at h
  obtain ⟨_, _, _, ⟨_, _, _, _, hf⟩, h⟩ := h
  cases h; exact State.Stores.content _ _ (by simp [reconSymbols]; omega)

/-- A command stores what its last update stores: the checks and reads before it store nothing. -/
theorem State.StoresIn.of_bind {α : Type} {s t : State} {x : Except ErrCode α} {f : α → Except ErrCode State}
    (hf : ∀ a, f a = .ok t → s.StoresIn t) (h : (x >>= f) = .ok t) : s.StoresIn t := by
  obtain ⟨a, _, ha⟩ := bind_eq_ok.1 h
  exact hf a ha

theorem hufBuild_stores {s t : State} : hufBuild s = .ok t → s.StoresIn t :=
  .of_bind fun _ => .of_bind fun _ h => by cases h; exact State.Stores.table (hufCodes s.contentList)

theorem hufTrie_stores {s t : State} (h : hufTrie s = .ok t) : s.StoresIn t := by
  simp only [hufTrie, bind_eq_ok, require_eq_ok] at h
  obtain ⟨_, hok, h⟩ := h
  cases h; exact State.Stores.decodeTrie hok

theorem le_byteRound (n : Nat) : n ≤ byteRound n := by unfold byteRound; omega

theorem byteRound_le {n cap : Nat} (h : n ≤ cap) (h8 : cap % 8 = 0) : byteRound n ≤ cap := by
  unfold byteRound; omega

/-- The container with its pad bits, as FRAME_C writes it (R130, R134). -/
def State.paddedFrame (s : State) : Bits :=
  s.frameBits ++ List.replicate (byteRound s.frameBits.length - s.frameBits.length) false

theorem State.paddedFrame_length (s : State) : s.paddedFrame.length = byteRound s.frameBits.length := by
  rw [State.paddedFrame, List.length_append, List.length_replicate, Nat.add_sub_cancel' (le_byteRound _)]

/-- FRAME_C's updates, of any bits, length and table: with these free, no proof unfolds the container. -/
def State.putContainer (s : State) (bs : Bits) (n : Nat) (p : CodeMap) : State :=
  let u := ((s.writeBits 0 bs).writeTable p).setHufD p.length
  { u with trie := none
           regs := { u.regs with bvLen := BitVec.ofNat 32 n, bvRptr := 0, resultBits := BitVec.ofNat 32 n } }

theorem State.frameCOk_eq (s : State) :
    s.frameCOk = s.putContainer s.paddedFrame s.frameBits.length (hufCodes s.contentList) := rfl

theorem State.putContainer_stores {s : State} {bs : Bits} {n : Nat} (p : CodeMap) (h : n ≤ s.cfg.bitbufCap)
    (hsize : bs.length = byteRound n) : s.StoresIn (s.putContainer bs n p) :=
  State.Stores.container n bs p h hsize

theorem State.frameCOk_stores {s : State} (h : s.frameBits.length ≤ s.cfg.bitbufCap) : s.StoresIn s.frameCOk :=
  s.frameCOk_eq ▸ State.putContainer_stores _ h s.paddedFrame_length

theorem State.frameCLost_stores (s : State) : s.StoresIn s.frameCLost :=
  State.Stores.lost [.bitbuf, .hufCtl, .hufCode] _ (Nat.le_succ (s.draws + 3))

theorem State.frameDLost_stores (s : State) : s.StoresIn s.frameDLost :=
  State.Stores.lost [.name, .content, .hufCtl, .hufCode] _ (Nat.le_succ (s.draws + 4))

/-- FRAME_D's read is FRAME_PARSE of BITBUF from bit 0 (R135). -/
theorem State.frameRead_eq_ok {s : State} {f : Frame} {k : Nat} :
    s.frameRead = .ok (f, k) ↔
      ∃ rest, frameParse s.cfg (s.bitsFrom 0) = .ok (f, rest) ∧ k = s.regs.bvLen.toNat - rest.length := by
  simp only [State.frameRead, bind_eq_ok, Prod.exists, Except.ok.injEq, Prod.mk.injEq, State.bitsFrom_length,
    Nat.sub_zero]
  exact ⟨fun ⟨_, r, h, hf, hk⟩ => ⟨r, hf ▸ h, hk.symm⟩, fun ⟨r, h, hk⟩ => ⟨f, r, h, rfl, hk.symm⟩⟩

theorem State.frameRead_eq_error {s : State} {c : ErrCode} :
    s.frameRead = .error c ↔ frameParse s.cfg (s.bitsFrom 0) = .error c := by
  simp [State.frameRead, bind_eq_error]

theorem State.frameDOk_stores {s : State} {f : Frame} {k : Nat} (h : s.frameRead = .ok (f, k)) :
    s.StoresIn (s.frameDOk f k) := by
  obtain ⟨rest, hp, _⟩ := State.frameRead_eq_ok.1 h
  obtain ⟨hname, hcontent, hlisted, hok⟩ := frameParse_ok hp
  exact State.Stores.frame f hname hcontent hlisted hok

/-- An all-or-nothing command stores what its updates store, or nothing (R139). -/
theorem State.commit_stores {s : State} {r : Except ErrCode State} (hr : ∀ u, r = .ok u → s.StoresIn u) :
    s.StoresIn (s.commit r) := by
  rcases s.commit_cases r with ⟨u, hu, e⟩ | ⟨c, _, e⟩ <;> rw [e]
  · exact (hr u hu).commitOk
  · exact State.Stores.nothing

/-- What every command stores, whether it commits Ok or Err. -/
theorem exec_stores {i : Instr} {s t : State} (h : exec i s = .next t) : s.StoresIn t := by
  cases i
  case frameC =>
    rcases execFrameC_cases s with ⟨c, _, e⟩ | ⟨_, hf, e⟩ | ⟨_, _, e⟩ <;> cases e.symm.trans h
    · exact State.Stores.nothing
    · exact (State.frameCOk_stores hf).commitOk
    · exact s.frameCLost_stores.commitErr _
  case frameD =>
    rcases execFrameD_cases s with ⟨c, _, e⟩ | ⟨f, k, _, hr, e⟩ | ⟨c, _, _, e⟩ <;> cases e.symm.trans h
    · exact State.Stores.nothing
    · exact (State.frameDOk_stores hr).commitOk
    · exact s.frameDLost_stores.commitErr _
  all_goals cases h; apply State.commit_stores
  case nop | bvClear => intro u hu; cases hu; exact State.Stores.nothing
  case zarray => exact fun _ => zarray_stores
  case lzMatch | lzStep => exact fun u => .of_bind fun _ => .of_bind fun _ h => by cases h; exact State.Stores.nothing
  case lzRecon => exact fun _ => lzRecon_stores
  case triPut | hufEnc => exact fun _ => .of_bind fun _ => .of_bind fun _ => State.appendChecked_stores
  case eoEnc | bvPut => exact fun _ => .of_bind fun _ => .of_bind fun _ => State.appendChecked_stores
  case triGet | hufDec =>
    exact fun _ => .of_bind fun _ => .of_bind fun _ => .of_bind fun _ h => by cases h; exact State.Stores.nothing
  case eoDec | bvGet => exact fun _ => .of_bind fun _ => .of_bind fun _ h => by cases h; exact State.Stores.nothing
  case hufBuild => exact fun _ => hufBuild_stores
  case hufTrie => exact fun _ => hufTrie_stores

/-! ### The memories -/

/-- The invariant speaks of the parameters, the memories and the draws only. -/
theorem State.MemsOk.congr {s t : State} (h : s.MemsOk) (hc : t.cfg = s.cfg) (hm : t.mems = s.mems)
    (hd : s.draws ≤ t.draws) : t.MemsOk := by
  constructor <;> rw [hm] <;> try rw [hc]
  exacts [Mem.ok_mono h.name hd, Mem.ok_mono h.content hd, Mem.ok_mono h.bitbuf hd, Mem.ok_mono h.zin hd,
    Mem.ok_mono h.zout hd, Mem.ok_mono h.hufCtl hd, Mem.ok_mono h.hufCode hd]

theorem State.MemsOk.writeBits {s : State} (h : s.MemsOk) {i : Nat} {bs : Bits}
    (hf : i + bs.length ≤ s.cfg.bitbufCap) : (s.writeBits i bs).MemsOk :=
  { h with bitbuf := Mem.writeList_ok h.bitbuf (by simpa using hf) }

/-- A fold of block writes, each below the capacity, keeps the canonical form. -/
theorem Mem.foldl_writeList_ok {w cap n : Nat} {α : Type} (a : α → Nat) (g : α → List (BitVec w)) (l : List α)
    {m : Mem w} (hm : m.ok cap n) (hl : ∀ x ∈ l, a x + (g x).length ≤ cap) :
    (l.foldl (fun m x => m.writeList (a x) (g x)) m).ok cap n := by
  induction l generalizing m with
  | nil => exact hm
  | cons x l ih => exact ih (Mem.writeList_ok hm (hl x (by simp))) fun y hy => hl y (by simp [hy])

theorem State.MemsOk.writeTable {s : State} (h : s.MemsOk) (p : CodeMap) : (s.writeTable p).MemsOk :=
  { h with
    hufCtl := Mem.foldl_writeList_ok (fun e : Byte × Bits => e.1.toNat)
      (fun e => [packCtl true (BitVec.ofNat 8 e.2.length)]) p (Mem.zeros_ok _ _)
      fun e _ => Nat.succ_le_of_lt e.1.isLt
    hufCode := Mem.foldl_writeList_ok (fun e : Byte × Bits => 8 * e.1.toNat)
      (fun e => (List.range 8).map (packCode e.2)) p (Mem.zeros_ok _ _) fun e _ => by have := e.1.isLt; simp; omega }

theorem State.MemsOk.writeFrame {s : State} (h : s.MemsOk) {f : Frame} (hn : f.name.length ≤ s.cfg.nameCap)
    (hc : f.content.length ≤ s.cfg.contentCap) : (s.writeFrame f).MemsOk :=
  { h with name := Mem.writeList_ok h.name (by omega), content := Mem.writeList_ok h.content (by omega) }

theorem State.MemsOk.redraw {s : State} (h : s.MemsOk) (m : MemName) : (s.redraw m).MemsOk := by
  have hs : ({ s with draws := s.draws + 1 } : State).MemsOk := h.congr rfl rfl (Nat.le_succ _)
  have drawn {w cap : Nat} : (Mem.unspecified w s.draws).ok cap (s.draws + 1) := Mem.unspecified_ok (Nat.lt_succ_self _)
  cases m with
  | name => exact { hs with name := drawn }
  | content => exact { hs with content := drawn }
  | bitbuf => exact { hs with bitbuf := drawn }
  | zin => exact { hs with zin := drawn }
  | zout => exact { hs with zout := drawn }
  | hufCtl => exact { hs with hufCtl := drawn }
  | hufCode => exact { hs with hufCode := drawn }

theorem State.MemsOk.redrawAll {s : State} (h : s.MemsOk) (ms : List MemName) : (s.redrawAll ms).MemsOk := by
  induction ms generalizing s with
  | nil => exact h
  | cons m ms ih => exact ih (h.redraw m)

theorem State.MemsOk.softReset {s : State} (h : s.MemsOk) : s.softReset.MemsOk :=
  { h.redrawAll s.inFlightMems with hufCtl := Mem.zeros_ok _ _ }

theorem State.MemsOk.writeHuf {s : State} (h : s.MemsOk) {k : Nat} (hk : k < 4096) (v : Word) :
    (s.writeHuf k v).MemsOk := by
  unfold State.writeHuf
  dsimp only
  split
  · exact { h with hufCtl := Mem.write_ok h.hufCtl (by omega) _ }
  · split
    · exact { h with hufCode := Mem.write_ok h.hufCode (by omega) _ }
    · exact { h with }

theorem State.MemsOk.writeBytes {s : State} (h : s.MemsOk) {w : ByteWin} {i : Nat} {bs : List Byte}
    (hf : i + bs.length ≤ winCap s.cfg w) : (s.writeBytes i bs w).MemsOk := by
  cases w
  case name => exact { h with name := Mem.writeList_ok h.name hf }
  case content => exact { h with content := Mem.writeList_ok h.content hf }
  case bitbuf =>
    refine h.writeBits ?_
    have : (bs.flatMap fun b => binFixed 8 b.toNat).length = 8 * bs.length := nameBits_length bs
    have : i + bs.length ≤ s.cfg.bitbufCap / 8 := hf
    omega

/-- No access lists an entry outside its memory (R54, R61). -/
theorem State.BusMoves.memsOk {u v : State} (h : u.BusMoves v) (hu : u.MemsOk) : v.MemsOk := by
  cases h with
  | same => exact hu
  | drawn => exact hu.congr rfl rfl (Nat.le_succ _)
  | regs r _ _ => exact hu.congr rfl rfl (Nat.le_refl _)
  | accept w _ => exact hu.congr rfl rfl (Nat.le_refl _)
  | softReset => exact hu.softReset
  | huf k w hk => exact hu.writeHuf hk w
  | bytes w i bs hf => exact hu.writeBytes hf
  | zin i w hi => exact { hu with zin := Mem.write_ok hu.zin hi w }

/-- No command stores an entry outside its memory (R61). -/
theorem State.StoresIn.memsOk {s t : State} (h : s.StoresIn t) (hc : t.cfg = s.cfg) (hl : s.cfg.Legal)
    (hs : s.MemsOk) : t.MemsOk := by
  unfold State.StoresIn at h
  generalize hm : t.mems = m, ht : t.trie = tr, hd : t.draws = d at h
  cases h with
  | nothing => exact hs.congr hc hm hd.ge
  | decodeTrie => exact hs.congr hc hm hd.ge
  | bits i bs hf => exact (hs.writeBits hf).congr hc hm hd.ge
  | zout v vs hf =>
    have hz : ({ s with mems := { s.mems with zout := (s.mems.zout.write 0 v).writeList 1 vs } } : State).MemsOk :=
      { hs with zout := Mem.writeList_ok (Mem.write_ok hs.zout (by omega) v) hf }
    exact hz.congr hc hm (by rw [hd]; exact Nat.le_succ _)
  | content i vs hf =>
    have hx : ({ s with mems := { s.mems with content := s.mems.content.writeList i vs } } : State).MemsOk :=
      { hs with content := Mem.writeList_ok hs.content hf }
    exact hx.congr hc hm hd.ge
  | table p => exact (hs.writeTable p).congr hc hm hd.ge
  | container n bs p hf hsize =>
    have hpad : 0 + bs.length ≤ s.cfg.bitbufCap := by
      obtain ⟨_, _, _, h8, _⟩ := hl
      rw [Nat.zero_add, hsize]
      exact byteRound_le hf h8
    exact ((hs.writeBits hpad).writeTable p).congr hc hm hd.ge
  | frame f hname hcontent _ _ => exact ((hs.writeFrame hname hcontent).writeTable _).congr hc hm hd.ge
  | lost ms n hn =>
    obtain ⟨hcfg, _, _, _, _, _, _, hdraws, _⟩ := s.redrawAll_frame ms
    exact (hs.redrawAll ms).congr (hc.trans hcfg.symm) hm (by rw [hdraws, hd]; exact hn)

/-- Settles O53: each access and each command keeps the canonical form inside the capacity it has checked; a
reset draws the memories anew. -/
theorem stepKeepsMemoriesInCapacity : Obligations.StepKeepsMemoriesInCapacity := by
  intro s t hl hs h
  refine step_keeps (P := fun u => u.cfg.Legal ∧ u.MemsOk) ?_ ?_ ?_ ?_ ?_ ?_ ⟨hl, hs⟩ h
  · exact fun u v e ⟨hl, hu⟩ => ⟨e.cfg ▸ hl, hu.congr e.cfg e.mems e.draws⟩
  · exact fun u v e ⟨hl, hu⟩ => ⟨e.cfg_eq ▸ hl, e.memsOk hu⟩
  · exact fun u v i _ _ e ⟨hl, hu⟩ => ⟨exec_cfg e ▸ hl, (exec_stores e).memsOk (exec_cfg e) hl hu⟩
  · exact fun u _ _ ⟨hl, hu⟩ => ⟨hl, hu.congr rfl rfl (Nat.le_refl _)⟩
  · exact fun u ⟨hl, hu⟩ => ⟨hl, hu.congr rfl rfl (Nat.le_refl _)⟩
  · intro u hr ⟨hl, _⟩
    refine ⟨u.releaseReset_cfg ▸ hl, ?_⟩
    rw [State.releaseReset, hr]
    exact State.memsOk_of_mems_reset (e := u.draws) rfl (Nat.le_refl _)

/-! ### The decode trie -/

/-- The valid entries are read from HUF_TABLE only (R40, R109). -/
theorem State.tablePairs_congr {s t : State} (hctl : t.mems.hufCtl = s.mems.hufCtl)
    (hcode : t.mems.hufCode = s.mems.hufCode) : t.tablePairs = s.tablePairs := by
  unfold State.tablePairs State.hufBits State.hufLen State.hufCodeBit State.hufValid
  rw [hctl, hcode]

theorem State.TrieOk.congr {s t : State} (h : s.TrieOk) (htrie : t.trie = s.trie)
    (hctl : t.mems.hufCtl = s.mems.hufCtl) (hcode : t.mems.hufCode = s.mems.hufCode) : t.TrieOk := by
  unfold State.TrieOk
  rw [htrie, State.tablePairs_congr hctl hcode]
  exact h

/-- A host write of HUF_TABLE and a soft reset clear DEC_VALID; no other access reaches the table (R40, R152). -/
theorem State.BusMoves.trieOk {u v : State} (h : u.BusMoves v) (hu : u.TrieOk) : v.TrieOk := by
  cases h with
  | softReset => exact State.trieOk_of_trie_none rfl
  | huf k w _ => exact State.trieOk_of_trie_none rfl
  | bytes w i bs _ => cases w <;> exact hu.congr rfl rfl rfl
  | same | drawn | regs | accept | zin => exact hu.congr rfl rfl rfl

theorem CodeMap.Listed.ascending {p : CodeMap} (h : p.Listed) : p.Ascending := ⟨h.sorted, fun e he => (h.sizes e he).2⟩

/-- A command that writes HUF_TABLE leaves no trie, or the trie of what it wrote (R112, R114, R134, R135). -/
theorem State.StoresIn.trieOk {s t : State} (h : s.StoresIn t) (hs : s.TrieOk) : t.TrieOk := by
  unfold State.StoresIn at h
  generalize hm : t.mems = m, ht : t.trie = tr, hd : t.draws = d at h
  have pairs {u : State} (hu : t.mems = u.mems) : t.tablePairs = u.tablePairs :=
    State.tablePairs_congr (by rw [hu]) (by rw [hu])
  cases h with
  | nothing | bits | zout | content =>
    exact hs.congr ht (congrArg Mems.hufCtl hm :) (congrArg Mems.hufCode hm :)
  | table | container | lost => exact State.trieOk_of_trie_none ht
  | decodeTrie hok =>
    rintro _ e
    cases ht.symm.trans e
    rw [pairs hm]
    exact ⟨hok, rfl⟩
  | frame f _ _ hlisted hok =>
    rintro _ e
    cases ht.symm.trans e
    rw [pairs hm, State.tablePairs_writeTable _ hlisted.ascending]
    exact ⟨hok, rfl⟩

/-- Settles O55: each access and each command keeps the trie the table's, or drops it. -/
theorem decodeTrieMatchesTable : Obligations.DecodeTrieMatchesTable := by
  intro s t hs h
  refine step_keeps (P := State.TrieOk) ?_ ?_ ?_ ?_ ?_ ?_ hs h
  · exact fun u v e hu => hu.congr e.trie (by rw [e.mems]) (by rw [e.mems])
  · exact fun u v e => e.trieOk
  · exact fun u v i _ _ e => (exec_stores e).trieOk
  · exact fun u _ _ hu => hu.congr rfl rfl rfl
  · exact fun u hu => hu.congr rfl rfl rfl
  · intro u hr _
    rw [State.releaseReset, hr]
    exact State.trieOk_of_trie_none rfl

end Sys2Proof.Machine
end

section
/-! PROOFS. The turns of a step, and the registers CMD, CTRL and STATUS, IDLE and BUSY (10_state.md R19, R22 to
R37; 20_memory.md R59, R60). -/

namespace Sys2Proof.Machine

/-! ### Turns -/

theorem engineStep_of_ok {s : State} {i : Instr} (hb : s.busy = true) (hr : s.rstN = true)
    (hd : decode s.regs.cmd = .ok i) : engineStep s = exec i s := by
  simp [engineStep, hb, hr, hd]

theorem engineStep_of_error {s : State} {e : Illegal} (hb : s.busy = true) (hr : s.rstN = true)
    (hd : decode s.regs.cmd = .error e) : engineStep s = .next (s.commitErr .illegalCmd) := by
  simp [engineStep, hb, hr, hd]

theorem engineStep_of_idle {s : State} (h : s.engine = .idle ∨ s.rstN = false) : engineStep s = .next s := by
  rcases h with h | h
  · simp [engineStep, s.busy_eq_false.2 h]
  · simp [engineStep, h]

theorem State.hostStep_of_some {s : State} {op : HostOp} (h : s.host.prog[s.host.pc]? = some op) :
    s.hostStep = hostOp s op := by
  simp [State.hostStep, h]

theorem State.hostStep_of_none {s : State} (h : s.host.prog.length ≤ s.host.pc) : s.hostStep = s := by
  simp [State.hostStep, h]

/-- Settles O5: each clause is the arm of `agentStep` that the turn selects. -/
theorem stepRunsDecodedCommand : Obligations.StepRunsDecodedCommand := by
  have agent {s : State} {u : Turn} (ht : s.turn = u) : step s = agentStep s.takeTurn u := by rw [step_eq, ht]
  refine ⟨fun s i ht hb hr hd => ?_, fun s ht h => ?_, fun s op ht h => ?_, fun s ht h => ?_, fun s ht => agent ht,
    fun s ht => agent ht, fun s hr => if_pos hr, fun s u us h => ?_, fun s h => ?_⟩
  · exact (agent ht).trans (engineStep_of_ok (s := s.takeTurn) hb hr hd)
  · exact (agent ht).trans (engineStep_of_idle (s := s.takeTurn) h)
  · rw [agent ht, agentStep, State.hostStep_of_some (s := s.takeTurn) h]
  · rw [agent ht, agentStep, State.hostStep_of_none (s := s.takeTurn) h]
  · exact ⟨by rw [State.turn, h], by rw [State.takeTurn, h]; rfl⟩
  · exact ⟨by rw [State.turn, h], State.takeTurn_of_nil h⟩

/-! ### CMD -/

/-- A read of CMD returns the word last accepted, BUSY or not (R27). -/
theorem State.access_read_cmd {s : State} (h : s.rstN = true) : s.access ⟨0x010#24, 2#2, false, 0⟩ = (s, s.regs.cmd) :=
  (State.access_read_csr h .cmd 0).trans (by rw [s.readCsr_of_ne .cmd nofun nofun]; rfl)

/-- Settles O7: an access of CMD's offset reaches the register, and the arms of a CSR write say what it does. -/
theorem cmdWriteIssuesOrOverruns : Obligations.CmdWriteIssuesOrOverruns := by
  refine ⟨rfl, rfl, rfl, fun s w hr => ⟨fun hi => ⟨?_, rfl, rfl, ?_⟩, fun hb => ?_, State.access_read_cmd hr, ?_⟩⟩
  · exact congrArg Prod.fst (State.access_write_csr_idle hr hi .cmd w)
  · exact State.access_read_cmd (s := s.accept w) hr
  · exact congrArg Prod.fst (State.access_write_csr_busy hr hb .cmd w)
  · exact fun e hd => engineStep_of_error (s := s.accept w) rfl hr hd

/-! ### The layouts of STATUS and CTRL -/

/-- Bit by bit, STATUS is BUSY, DONE, ERR and OVR, and 0 above (R26). -/
theorem packStatus_getLsbD (ovr err done busy : Bool) (i : Nat) :
    (packStatus ovr err done busy).getLsbD i =
      (i == 0 && busy || i == 1 && done || i == 2 && err || i == 3 && ovr) := by
  by_cases h : i < 4
  · revert ovr err done busy
    interval_cases i <;> decide
  · obtain ⟨j, rfl⟩ := Nat.exists_eq_add_of_le' (Nat.not_lt.1 h)
    simp [packStatus]

/-- Bit by bit, CTRL is IRQ_EN in bit 1, and 0 elsewhere (R25). -/
theorem packCtrl_getLsbD (irqEn : Bool) (i : Nat) : (packCtrl irqEn).getLsbD i = (i == 1 && irqEn) := by
  rcases i with _ | _ | i
  · cases irqEn <;> rfl
  · cases irqEn <;> rfl
  · simp [packCtrl]

/-- The W1C mask of STATUS: bits 1 to 3 (R26). -/
theorem w1cMask_getLsbD : ∀ i < 32, (0x0000000E#32).getLsbD i = (i == 1 || i == 2 || i == 3) := by decide

/-- A write of STATUS clears exactly the W1C bits that it holds a 1 for (R26). -/
theorem writeStatus_csr (s : State) (v : Word) :
    ({ s with regs := s.regs.writeStatus v } : State).csr .status = s.csr .status &&& ~~~(v &&& 0x0000000E#32) := by
  apply BitVec.eq_of_getLsbD_eq
  intro i hi
  rw [BitVec.getLsbD_and, BitVec.getLsbD_not, BitVec.getLsbD_and, w1cMask_getLsbD i hi]
  show (packStatus _ _ _ _).getLsbD i = ((packStatus _ _ _ _).getLsbD i && _)
  rw [packStatus_getLsbD, packStatus_getLsbD]
  rcases i with _ | _ | _ | _ | i
  · simp [State.busy]
  · simp [Regs.writeStatus]
  · simp [Regs.writeStatus]
  · simp [Regs.writeStatus]
  · simp

/-- Settles O11: `packStatus_getLsbD` gives the bits of both reads, `writeStatus_csr` what a write clears. -/
theorem statusReadsAndClears : Obligations.StatusReadsAndClears := by
  intro s v hr
  refine ⟨fun i => packStatus_getLsbD _ _ _ _ i, State.access_read_csr hr .status 0, fun hi => State.readCsr_idle hi _,
    fun s0 i he => ?_, _, State.access_write_status hr v, writeStatus_csr s v, fun r hm => ?_, rfl, rfl, rfl, rfl, rfl,
    rfl, rfl, rfl⟩
  · have : s.readCsr .status = packStatus s0.ovr false false true := by simp [State.readCsr, he, State.snapCsr]
    rw [this, packStatus_getLsbD]; simp
  · cases r <;> first | rfl | exact absurd (by simp) hm

end Sys2Proof.Machine
end

section
/-! PROOFS. What a host read returns and a host write stores, IDLE and BUSY (10_state.md R22 to R41; 20_memory.md
R51 to R60; 70_reset_and_hazards.md R152). -/

namespace Sys2Proof.Machine

/-! ### Accesses while BUSY -/

/-- `s` with another IRQ_EN and OVR, DONE and ERR perhaps cleared, and another number of draws. -/
def State.touched (s : State) (irqEn done err ovr : Bool) (n : Nat) : State :=
  { s with regs := { s.regs with irqEn := irqEn, done := s.regs.done && done, err := s.regs.err && err, ovr := ovr }
           draws := n }

theorem State.touched_self (s : State) : s.touched s.regs.irqEn true true s.regs.ovr s.draws = s := by
  simp [State.touched]

theorem State.writeCtrl_of_false {s : State} {v : Word} (hv : v.getLsbD 0 = false) :
    s.writeCtrl v = { s with regs := { s.regs with irqEn := v.getLsbD 1 } } := by
  rw [State.writeCtrl, hv]; rfl

/-- While BUSY an access that performs no soft reset writes IRQ_EN and OVR, clears DONE or ERR, or uses up a draw,
and changes nothing else (R25 to R27, R59, R60). -/
theorem State.access_busy {s : State} (hb : s.busy = true) (a : Access)
    (hreset : ¬ (a.write = true ∧ locate s.cfg a = .csr 0x008 ∧ a.wdata.getLsbD 0 = true)) :
    ∃ irqEn done err ovr n, (s.access a).1 = s.touched irqEn done err ovr n := by
  rcases s.access_cases a with ⟨_, h⟩ | ⟨_, hw, h⟩ | ⟨_, _, h⟩ <;> rw [h]
  · exact ⟨_, _, _, _, _, s.touched_self.symm⟩
  · by_cases h8 : locate s.cfg a = .csr 0x008
    · have hv : a.wdata.getLsbD 0 = false := by simpa [hw, h8] using hreset
      rw [h8, State.busWrite_csr (r := .ctrl) rfl, if_pos hb, State.writeCsrBusy, State.writeCtrl_of_false hv]
      exact ⟨a.wdata.getLsbD 1, true, true, s.regs.ovr, s.draws, by simp [State.touched]⟩
    by_cases hc : locate s.cfg a = .csr 0x00C
    · rw [hc, State.busWrite_csr (r := .status) rfl, if_pos hb]
      exact ⟨s.regs.irqEn, _, _, _, s.draws, rfl⟩
    rw [State.busWrite_busy hb _ _ h8 hc]
    split
    · exact ⟨s.regs.irqEn, true, true, true, s.draws, by simp [State.touched]⟩
    · exact ⟨_, _, _, _, _, s.touched_self.symm⟩
  · rcases s.busRead_state (locate s.cfg a) with e | ⟨_, e⟩ <;> rw [e]
    · exact ⟨_, _, _, _, _, s.touched_self.symm⟩
    · exact ⟨s.regs.irqEn, true, true, s.regs.ovr, s.draws + 1, by simp [State.touched]⟩

/-- Settles O14: `State.access_busy` leaves everything that S0 and the command read but the bits of CTRL and
STATUS, which S0 holds copies of. -/
theorem snapshotIsFrozenWhileBusy : Obligations.SnapshotIsFrozenWhileBusy := by
  refine ⟨fun s w r => by cases r <;> rfl, fun s r v hr => State.access_read_csr hr r v, fun s => s.readCsr_of_ne, ?_,
    fun s a n hb hr hw hn hu hc => State.access_read_busy hb hr hw hn hu hc⟩
  intro s t a v hb ha hreset
  obtain ⟨irqEn, done, err, ovr, n, e⟩ := State.access_busy hb a hreset
  rw [ha] at e
  dsimp only at e
  obtain ⟨s0, he⟩ := s.busy_eq_true.1 hb
  subst e
  refine ⟨rfl, rfl, rfl, rfl, fun r => ?_, fun r hm => ?_, by simp [State.touched],
    by simp [State.touched]⟩
  · unfold State.readCsr State.touched
    rw [he]
    cases r <;> rfl
  · cases r <;> first | rfl | exact absurd (by simp) hm

/-! ### HUF_TABLE -/

theorem State.access_write {s : State} (hr : s.rstN = true) {a : Access} (hw : a.write = true) :
    s.access a = (s.busWrite a.wdata (locate s.cfg a), 0) := by
  simp [State.access, hr, hw]

theorem State.access_read {s : State} (hr : s.rstN = true) {a : Access} (hw : a.write = false) :
    s.access a = s.busRead (locate s.cfg a) := by
  simp [State.access, hr, hw]

/-- While IDLE a write of table word `k` is `writeHuf` (R40). -/
theorem State.access_write_huf {s : State} (hr : s.rstN = true) (hi : s.engine = .idle) {k : Nat} (hk : k < 4096)
    (v : Word) : s.access ⟨BitVec.ofNat 24 (0x004000 + 4 * k), 2#2, true, v⟩ = (s.writeHuf k v, 0) := by
  rw [State.access_write hr rfl, locate_huf _ hk]
  simp [State.busWrite, s.busy_eq_false.2 hi]

/-- While IDLE a read of table word `k` returns it and changes nothing (R40). -/
theorem State.access_read_huf {s : State} (hr : s.rstN = true) (hi : s.engine = .idle) {k : Nat} (hk : k < 4096)
    (v : Word) : s.access ⟨BitVec.ofNat 24 (0x004000 + 4 * k), 2#2, false, v⟩ = (s, s.readHuf k) := by
  rw [State.access_read hr rfl, locate_huf _ hk]
  simp [State.busRead, s.busy_eq_false.2 hi]

/-- A CTL word reads its VALID and LEN, 0 elsewhere (R40). -/
theorem packCtl_word (v : Word) :
    BitVec.ofBool ((packCtl (v.getLsbD 31) (v.extractLsb' 0 8)).getLsbD 8) ++ 0#23 ++
      (packCtl (v.getLsbD 31) (v.extractLsb' 0 8)).extractLsb' 0 8 = v &&& 0x800000FF#32 := by
  rw [packCtl_valid, packCtl_len]
  have mask : ∀ i < 32, (0x800000FF#32).getLsbD i = (i == 31 || decide (i < 8)) := by decide
  apply BitVec.eq_of_getLsbD_eq
  intro i hi
  rw [BitVec.getLsbD_and, mask i hi, BitVec.getLsbD_append, BitVec.getLsbD_append]
  by_cases h8 : i < 8
  · simp [h8]
  · by_cases h31 : i = 31
    · simp [h31]
    · simp [h8, h31, show i - 8 < 23 by omega]

/-- The word of the table that a write of word `k` leaves there: reserved bits and words read 0 (R40). -/
theorem State.readHuf_writeHuf_same {s : State} (hctl : s.mems.hufCtl.wf) (hcode : s.mems.hufCode.wf)
    (k : Nat) (v : Word) :
    (s.writeHuf k v).readHuf k = if k % 16 = 0 then v &&& 0x800000FF#32 else if k % 16 ≤ 8 then v else 0 := by
  unfold State.readHuf State.writeHuf State.hufValid
  split
  · simp only [Mem.read_write_same hctl, packCtl_word]
  · split
    · simp only [Mem.read_write_same hcode]
    · rfl

/-- No other word of the table reads otherwise after the write (R40). -/
theorem State.readHuf_writeHuf_ne {s : State} {k k' : Nat} (h : k' ≠ k) (v : Word) :
    (s.writeHuf k v).readHuf k' = s.readHuf k' := by
  unfold State.readHuf State.writeHuf State.hufValid
  by_cases hk : k % 16 = 0
  · simp only [hk, if_true]
    split
    · rw [Mem.read_write_ne (by omega)]
    · rfl
  · simp only [hk, if_false]
    split <;> split
    · rfl
    · rfl
    · split
      · rw [Mem.read_write_ne (by omega)]
      · rfl
    · rfl

theorem State.writeHuf_entry {s : State} (k : Nat) (v : Word) {m : MemName}
    (hm : ¬ (m = .hufCtl ∨ m = .hufCode)) (i : Nat) :
    (s.writeHuf k v).mems.entry m i = s.mems.entry m i := by
  unfold State.writeHuf
  dsimp only
  split
  · cases m <;> first | rfl | exact absurd (by simp) hm
  · split
    · cases m <;> first | rfl | exact absurd (by simp) hm
    · rfl

/-- Settles O18: `writeHuf` at the word, and what each word of the table reads after it. -/
theorem tableWriteClearsDecValid : Obligations.TableWriteClearsDecValid := by
  intro s k v hr hi hctl hcode hk
  refine ⟨s.writeHuf k v, State.access_write_huf hr hi hk v, rfl, ?_, fun h0 => ?_, fun j hj hj' h1 h8 => ?_,
    fun k' hne _ => State.readHuf_writeHuf_ne hne v, fun m i hm => State.writeHuf_entry k v hm i, fun r hm => ?_⟩
  · rw [State.access_read_huf (s := s.writeHuf k v) hr hi hk, State.readHuf_writeHuf_same hctl hcode]
  · have : (s.writeHuf k v).mems.hufCtl.read (k / 16) = packCtl (v.getLsbD 31) (v.extractLsb' 0 8) := by
      simp only [State.writeHuf, h0, if_true]
      exact Mem.read_write_same hctl _ _
    unfold State.hufValid State.hufLen
    rw [this, packCtl_valid, packCtl_len]
    exact ⟨rfl, rfl⟩
  · have : (s.writeHuf k v).mems.hufCode.read (8 * (k / 16) + j / 32) = v := by
      rw [show j / 32 = k % 16 - 1 by omega]
      simp only [State.writeHuf, if_neg (Nat.ne_of_gt h1), if_pos h8]
      exact Mem.read_write_same hcode _ _
    unfold State.hufCodeBit
    rw [this]
  · cases r <;> first | rfl | exact absurd (by simp) hm

/-! ### ZIN and ZOUT -/

/-- The low `n` bits of a word, zero-extended, are the word under the mask of those bits. -/
theorem setWidth_low_bits (v : Word) {n : Nat} {mask : Word}
    (hmask : ∀ i < 32, mask.getLsbD i = decide (i < n)) : (v.extractLsb' 0 n).setWidth 32 = v &&& mask := by
  apply BitVec.eq_of_getLsbD_eq
  intro i hi
  rw [BitVec.getLsbD_and, hmask i hi]
  by_cases h : i < n <;> simp [h, hi]

/-- Settles O19: the arms of a bus access at an entry of ZIN and of ZOUT. -/
theorem zinKeepsLowHalfAndZoutIsReadOnly : Obligations.ZinKeepsLowHalfAndZoutIsReadOnly := by
  intro s i v hr hi hl hz hcap
  have hz18 : s.cfg.zcap ≤ 262144 := by obtain ⟨_, _, _, _, _, _, _, _, h, _⟩ := hl; exact h
  have hb : s.busy = false := s.busy_eq_false.2 hi
  refine ⟨⟨{ s with mems := { s.mems with zin := s.mems.zin.write i (v.extractLsb' 0 16) } },
    ?_, ?_, ?_, ?_, ?_, rfl⟩, ?_, ?_⟩
  · rw [State.access_write hr rfl, locate_zin hcap hz18]
    simp [State.busWrite, hb]
  · rw [State.access_read (by exact hr) rfl, locate_zin (by exact hcap) hz18, State.busRead,
      if_neg (by simp [State.busy, hi]), ← setWidth_low_bits v (n := 16) (by decide)]
    simp only [Mem.read_write_same hz]
  · exact Mem.read_write_same hz _ _
  · intro m k hm
    cases m <;> try rfl
    have hk : k ≠ i := by rintro rfl; exact hm ⟨rfl, Nat.le_refl _, Nat.lt_succ_self _⟩
    simp only [Mems.entry, Mem.read_write_ne hk]
  · exact fun r _ => by cases r <;> rfl
  · rw [State.access_write hr rfl, locate_zout hcap hz18]
    rfl
  · rw [State.access_read hr rfl, locate_zout hcap hz18]
    simp [State.busRead, hb]

/-! ### The CSRs -/

/-- The reserved offsets read 0 and ignore writes (R23). -/
theorem State.access_reserved {s : State} {o : Nat} (h1 : 0x070 ≤ o) (h2 : o < 0x100) (b : Bool) (v : Word) :
    s.access ⟨BitVec.ofNat 24 o, 2#2, b, v⟩ = (s, 0) := by
  by_cases h4 : o % 4 = 0
  · unfold State.access
    simp only [locate_csr _ h2 h4, State.busWrite, State.busRead, csrAt_reserved h1, ite_self]
  · exact State.access_unmapped (locate_csr_misaligned _ h2 h4 b v)

theorem State.readCsr_ctrl_busy {s : State} {s0 : Snapshot} (h : s.engine = .busy s0) :
    s.readCsr .ctrl = packCtrl s0.irqEn := by simp [State.readCsr, h, State.snapCsr]

/-- The operand CSRs, which a host write stores in (R31 to R36). -/
def Csr.operands : List Csr :=
  [.windowSize, .lookaheadSize, .nlen, .clen, .pos, .bvLen, .bvRptr, .zlen, .triOffset, .triLength, .triSymbol, .arg]

/-- While IDLE an operand CSR holds the value written, TRI_SYMBOL its low byte, and nothing else changes. -/
theorem State.writeCsrIdle_operand {s : State} (v : Word) {r : Csr} (hr : r ∈ Csr.operands) :
    (s.writeCsrIdle v r).csr r = (if r = .triSymbol then v &&& 0x000000FF#32 else v) ∧
      SameCsrs [r] s (s.writeCsrIdle v r) ∧ (s.writeCsrIdle v r).mems = s.mems ∧ (s.writeCsrIdle v r).trie = s.trie ∧
      (s.writeCsrIdle v r).engine = s.engine ∧ (s.writeCsrIdle v r).rstN = s.rstN := by
  refine ⟨?_, fun q hq => ?_, ?_⟩
  · fin_cases hr <;> first | rfl | exact setWidth_low_bits v (by decide)
  · have hne : q ≠ r := fun h => hq (by simp [h])
    fin_cases hr <;> cases q <;> first | rfl | exact absurd rfl hne
  · fin_cases hr <;> exact ⟨rfl, rfl, rfl, rfl⟩

/-- Settles O20: each CSR's arm of `csr` and of `writeCsrIdle`, reached at its offset. -/
theorem operandCsrsStoreAnyValue : Obligations.OperandCsrsStoreAnyValue := by
  refine ⟨fun s => ?_,
    fun s v hr => ⟨packCtrl_getLsbD _, State.access_read_csr hr .ctrl 0, fun s0 i he => ?_, fun hv => ?_⟩,
    fun s v hr hi => ⟨fun p hp => ?_, fun r hm => ?_, fun r hm => ?_, fun o b h1 h2 => State.access_reserved h1 h2 b v⟩⟩
  · refine ⟨rfl, rfl, rfl, rfl, rfl, rfl, rfl, rfl, rfl, rfl, ?_, rfl, ?_, rfl, rfl, ?_, fun i => ?_,
      fun r hi => State.readCsr_idle hi r, s.readCsr_of_ne, fun r v hr => State.access_read_csr hr r v⟩
    · exact BitVec.toNat_setWidth_of_le (by decide)
    · exact BitVec.toNat_setWidth_of_le (by decide)
    · exact BitVec.toNat_setWidth_of_le (by decide)
    · rcases i with _ | i <;> cases h : s.trie <;> simp [State.csr, h]
  · rw [State.readCsr_ctrl_busy he, packCtrl_getLsbD]
  · rw [State.access_write_ctrl hr, State.writeCtrl_of_false hv]
  · fin_cases hp <;> exact State.access_write_csr_idle hr hi _ v
  · obtain ⟨hval, hsame, hmems, htrie, hengine, hrst⟩ := State.writeCsrIdle_operand (s := s) v (r := r) hm
    have hidle : (s.writeCsrIdle v r).engine = .idle := hengine.trans hi
    refine ⟨_, State.access_write_csr_idle hr hi r v, ?_, hsame, hmems, htrie, hidle⟩
    rw [State.access_read_csr (hrst.trans hr), State.readCsr_idle hidle, hval]
  · rw [State.access_write_csr_idle hr hi]
    fin_cases hm <;> rfl

/-! ### Soft reset -/

/-- Every memory but CTL is as the redraws left it (R152). -/
theorem State.softReset_entry (s : State) {m : MemName} (hm : m ≠ .hufCtl) (k : Nat) :
    s.softReset.mems.entry m k = (s.redrawAll s.inFlightMems).mems.entry m k := by
  cases m <;> first | rfl | exact absurd rfl hm

/-- A memory other than CTL that is drawn stays so when the CTL words become 0. -/
theorem Mems.redraw_of_ne_hufCtl {ms : Mems} {m : MemName} {e : Nat} (hm : m ≠ .hufCtl) (h : ms.redraw e m = ms)
    (c : Mem 9) : ({ ms with hufCtl := c } : Mems).redraw e m = { ms with hufCtl := c } := by
  have : ({ ms with hufCtl := c } : Mems).redraw e m = { ms.redraw e m with hufCtl := c } := by
    cases m <;> first | rfl | exact absurd rfl hm
  rw [this, h]

theorem State.inFlightMems_of_ok {s : State} {i : Instr} (hb : s.busy = true) (hd : decode s.regs.cmd = .ok i) :
    s.inFlightMems = writtenMems i := by
  obtain ⟨s0, he⟩ := s.busy_eq_true.1 hb
  simp [State.inFlightMems, he, hd]

theorem State.inFlightMems_of_error {s : State} {e : Illegal} (hd : decode s.regs.cmd = .error e) :
    s.inFlightMems = [] := by
  unfold State.inFlightMems
  rw [hd]
  cases s.engine <;> rfl

theorem State.inFlightMems_of_idle {s : State} (h : s.engine = .idle) : s.inFlightMems = [] := by
  simp [State.inFlightMems, h]

/-- Settles O23: the write of CTRL is the soft reset, which redraws the memories of the command in flight. -/
theorem softResetAbortsAndRestores : Obligations.SoftResetAbortsAndRestores := by
  refine ⟨fun i m hm => ?_, fun s v hr hv => ?_⟩
  · cases i <;> simp [writtenMems, hm]
  · obtain ⟨_, hrst, _, _, _, hhost, hturns, hdraws, hsame⟩ := s.redrawAll_frame s.inFlightMems
    refine ⟨s.softReset, ?_, rfl, fun r => ?_, fun k => rfl, rfl, fun m hm hn k => ?_, fun m hm hi => ?_,
      State.inFlightMems_of_idle, fun i => State.inFlightMems_of_ok, fun e => State.inFlightMems_of_error,
      hhost, s.softReset_cfg, hrst, hturns⟩
    · rw [State.access_write_ctrl hr, State.writeCtrl, if_pos hv]
    · rw [State.readCsr_idle rfl, State.readCsr_idle rfl]
      cases r <;> first | rfl | simp [State.csr, s.softReset_cfg, State.powerOn]
    · rw [s.softReset_entry hm, hsame m hn]
    · obtain ⟨e, hlow, hhigh, hdrawn⟩ := s.redrawAll_drawn s.inFlightMems m hi
      exact ⟨e, hlow, hdraws.symm ▸ hhigh, Mems.redraw_of_ne_hufCtl hm hdrawn _⟩

end Sys2Proof.Machine
end

section
/-! PROOFS. The code of a content as HUF_CODES returns it: its symbols and the bound on its lengths (43_huffman.md
R102 to R107). -/

namespace Sys2Proof.Machine

/-! ### The number of leaves -/

/-- The leaves of a Huffman tree. -/
def HTree.leaves : HTree → Nat
  | .leaf _ => 1
  | .node c0 c1 => c0.leaves + c1.leaves

theorem HTree.leaves_pos (t : HTree) : 1 ≤ t.leaves := by
  induction t with
  | leaf _ => exact Nat.le_refl 1
  | node c0 c1 h0 _ => exact Nat.le_add_right_of_le h0

/-- A path is shorter than the number of leaves: each vertex on it has a leaf on its other side. -/
theorem HTree.path?_length_lt {sym : Byte} {t : HTree} {bs : Bits} (h : t.path? sym = some bs) :
    bs.length < t.leaves := by
  induction t generalizing bs with
  | leaf s =>
    simp only [HTree.path?, Option.ite_none_right_eq_some, Option.some.injEq] at h
    rw [← h.2]; exact Nat.one_pos
  | node c0 c1 h0 h1 =>
    have hp0 := c0.leaves_pos
    have hp1 := c1.leaves_pos
    simp only [HTree.path?] at h
    cases hc : c0.path? sym with
    | some b0 =>
      rw [hc] at h
      cases h
      have := h0 hc
      simp only [List.length_cons, HTree.leaves]; omega
    | none =>
      rw [hc] at h
      obtain ⟨b1, hb, rfl⟩ := Option.map_eq_some_iff.1 h
      have := h1 hb
      simp only [List.length_cons, HTree.leaves]; omega

/-- The leaves of a queue's trees. -/
def queueLeaves (q : List QItem) : Nat := (q.map fun a => a.tree.leaves).sum

theorem queueLeaves_cons (a : QItem) (q : List QItem) : queueLeaves (a :: q) = a.tree.leaves + queueLeaves q := by
  simp [queueLeaves]

theorem queueLeaves_qInsert (a : QItem) (q : List QItem) :
    queueLeaves (qInsert a q) = a.tree.leaves + queueLeaves q := by
  induction q with
  | nil => exact queueLeaves_cons a []
  | cons b q ih =>
    unfold qInsert
    split
    · exact queueLeaves_cons a _
    · rw [queueLeaves_cons, ih, queueLeaves_cons]; omega

/-- A round of R104 loses no leaf. -/
theorem queueLeaves_hufMerge (fuel next : Nat) (q : List QItem) :
    queueLeaves (hufMerge fuel next q) = queueLeaves q := by
  induction fuel generalizing next q with
  | zero => rfl
  | succ fuel ih =>
    match q with
    | [] => rfl
    | [_] => rfl
    | a :: b :: q =>
      rw [hufMerge, ih, queueLeaves_qInsert, queueLeaves_cons, queueLeaves_cons]
      simp only [HTree.leaves]; omega

theorem queueLeaves_foldl_qInsert (l q : List QItem) :
    queueLeaves (l.foldl (fun q a => qInsert a q) q) = queueLeaves l + queueLeaves q := by
  induction l generalizing q with
  | nil => simp [queueLeaves]
  | cons a l ih => rw [List.foldl_cons, ih, queueLeaves_qInsert, queueLeaves_cons]; omega

theorem queueLeaves_hufLeaves (x : List Byte) : queueLeaves (hufLeaves x) = (alphabet x).length := by
  have : (hufLeaves x).map (fun a => a.tree.leaves) = List.replicate (alphabet x).length 1 := by
    rw [hufLeaves, List.map_map, List.eq_replicate_iff]
    refine ⟨by simp, fun n hn => ?_⟩
    obtain ⟨e, _, rfl⟩ := List.mem_map.1 hn
    rfl
  rw [queueLeaves, this, List.sum_replicate, smul_eq_mul, Nat.mul_one]

/-- HUF_TREE has the leaves of the alphabet (R104). -/
theorem queueLeaves_hufTree (x : List Byte) : queueLeaves (hufTree x) = (alphabet x).length := by
  unfold hufTree
  rw [queueLeaves_hufMerge, queueLeaves_foldl_qInsert, queueLeaves_hufLeaves]
  rfl

/-! ### The code map -/

theorem alphabet_length_le (x : List Byte) : (alphabet x).length ≤ 256 := by
  have : symbols.length = 256 := by simp [symbols]
  exact this ▸ List.length_filter_le _ _

theorem mem_alphabet {x : List Byte} {sym : Byte} : sym ∈ alphabet x ↔ sym ∈ x := by
  simp [alphabet, mem_symbols, freq]

theorem alphabet_ne_nil {x : List Byte} (h : x ≠ []) : alphabet x ≠ [] := by
  obtain ⟨sym, hs⟩ := List.exists_mem_of_ne_nil x h
  exact List.ne_nil_of_mem (mem_alphabet.2 hs)

/-- HUF_CODES is the code "0" of a single symbol, or each symbol's path in the one tree left (R105 to R107). -/
theorem hufCodes_cases {x : List Byte} (h : x ≠ []) :
    (∃ sym, alphabet x = [sym] ∧ hufCodes x = [(sym, [false])]) ∨
    ∃ root q, hufTree x = root :: q ∧
      hufCodes x = (alphabet x).map fun sym => (sym, (root.tree.path? sym).getD []) := by
  have hlen : 0 < queueLeaves (hufTree x) :=
    queueLeaves_hufTree x ▸ List.length_pos_iff.2 (alphabet_ne_nil h)
  cases ht : hufTree x with
  | nil => rw [ht] at hlen; exact absurd hlen (Nat.lt_irrefl 0)
  | cons root q =>
    unfold hufCodes
    rw [ht]
    split
    · exact .inl ⟨_, by assumption, rfl⟩
    · exact .inr ⟨_, _, rfl, by simp_all⟩
    · simp_all

/-- The symbols of HUF_CODES are the alphabet (R107). -/
theorem hufCodes_symbols {x : List Byte} (h : x ≠ []) : (hufCodes x).map (·.1) = alphabet x := by
  rcases hufCodes_cases h with ⟨sym, ha, hc⟩ | ⟨root, q, _, hc⟩
  · rw [hc, ha]; rfl
  · rw [hc, List.map_map]; simp [Function.comp_def]

theorem hufCodes_length {x : List Byte} (h : x ≠ []) : (hufCodes x).length = (alphabet x).length := by
  rw [← hufCodes_symbols h, List.length_map]

/-- No code is longer than 255 bits, as a tree has at most 256 leaves (R107). -/
theorem hufCodes_short {x : List Byte} (h : x ≠ []) {e : Byte × Bits} (he : e ∈ hufCodes x) : e.2.length ≤ 255 := by
  rcases hufCodes_cases h with ⟨sym, _, hc⟩ | ⟨root, q, ht, hc⟩ <;> rw [hc] at he
  · rw [List.mem_singleton.1 he]; simp
  · obtain ⟨sym, _, rfl⟩ := List.mem_map.1 he
    have hall : root.tree.leaves ≤ 256 := by
      have := queueLeaves_hufTree x
      rw [ht, queueLeaves_cons] at this
      have := alphabet_length_le x
      omega
    cases hp : root.tree.path? sym with
    | none => exact Nat.zero_le _
    | some bs => have := HTree.path?_length_lt hp; simp only [Option.getD_some]; omega

/-- HUF_CODES is a map that WRITE_TABLE can hold (R107, R108). -/
theorem hufCodes_ascending {x : List Byte} (h : x ≠ []) : (hufCodes x).Ascending where
  sorted := by
    have : (alphabet x).Pairwise fun a b => a.toNat < b.toNat := symbols_sorted.filter _
    rwa [← hufCodes_symbols h, List.pairwise_map] at this
  short _ he := hufCodes_short h he

end Sys2Proof.Machine
end

section
/-! PROOFS. FRAME_C and FRAME_D (46_container.md R134, R135; 60_exceptions.md R140). -/

namespace Sys2Proof.Machine

/-! ### Their words -/

/-- A word that decodes matches a row of the opcode map, and is that row's command (R71, R72). -/
theorem decode_row {w : Word} {i : Instr} (h : decode w = .ok i) :
    ∃ r ∈ opcodeMap, w &&& r.mask = r.base ∧ r.mnemonic.instr w = i := by
  unfold decode at h
  cases hf : opcodeMap.find? (fun r => r.opc == opcOf w) with
  | none => rw [hf] at h; cases h
  | some r =>
    rw [hf] at h
    simp only at h
    split_ifs at h with hm hn
    cases h
    exact ⟨r, List.mem_of_find?_eq_some hf, by simpa using hm, rfl⟩

/-- A command that gives no bit of its word to an operand has one word, its row's (R69, R72). -/
theorem decode_eq_ok_iff {m : Mnemonic} {i : Instr} {b : Word} (hi : ∀ m' w, Mnemonic.instr w m' = i → m' = m)
    (hrow : ∀ r ∈ opcodeMap, r.mnemonic = m → r.mask = 0xFFFFFFFF#32 ∧ r.base = b) (hb : decode b = .ok i) (w : Word) :
    decode w = .ok i ↔ w = b := by
  refine ⟨fun h => ?_, fun h => h ▸ hb⟩
  obtain ⟨r, hr, hm, he⟩ := decode_row h
  obtain ⟨hmask, hbase⟩ := hrow r hr (hi _ _ he)
  rw [← hbase, ← hm, hmask]
  exact BitVec.and_allOnes.symm

theorem decode_eq_frameC (w : Word) : decode w = .ok .frameC ↔ w = 0x60000000#32 :=
  decode_eq_ok_iff (m := .frameC) (fun m _ h => by cases m <;> first | rfl | cases h) (by decide) rfl w

theorem decode_eq_frameD (w : Word) : decode w = .ok .frameD ↔ w = 0x61000000#32 :=
  decode_eq_ok_iff (m := .frameD) (fun m _ h => by cases m <;> first | rfl | cases h) (by decide) rfl w

/-! ### The table they leave -/

/-- What HUF_TABLE holds is read from its own memories only. -/
theorem State.HoldsTable.congr {s t : State} {p : CodeMap} (h : s.HoldsTable p) (hctl : t.mems.hufCtl = s.mems.hufCtl)
    (hcode : t.mems.hufCode = s.mems.hufCode) : t.HoldsTable p where
  pairs := (State.tablePairs_congr hctl hcode).trans h.pairs
  zeros := by
    have := h.zeros
    unfold State.hufCodeBit at *
    rwa [hcode]
  others := by
    have := h.others
    unfold State.readHuf State.hufValid at *
    rwa [hctl, hcode]

/-- Which CSRs an update leaves is read off its registers. -/
theorem SameCsrs.of_regs {except : List Csr} {s t : State} (hcfg : t.cfg = s.cfg) (r : Regs) (hregs : t.regs = r)
    (h : ∀ e f, SameCsrs except s { s with regs := r, engine := e, trie := f }) : SameCsrs except s t := by
  subst hregs
  intro q hq
  rw [← h t.engine t.trie q hq]
  cases q
  case capContent | capName | capBitbuf | capZ | capWmax | capLmax => simp only [State.csr, hcfg]
  all_goals rfl

theorem State.redrawAll_regs (s : State) (ms : List MemName) : (s.redrawAll ms).regs = s.regs := by
  obtain ⟨_, _, _, hregs, _⟩ := s.redrawAll_frame ms
  exact hregs

/-- Losing HUF_TABLE changes no register but HUF_D (R140). -/
theorem State.loseTable_regs (s : State) : ∃ d, s.loseTable.regs = { s.regs with hufD := d } :=
  ⟨_, by simp only [State.loseTable, State.redrawAll_regs]; rfl⟩

theorem State.HoldsTable.commitOk {s : State} {p : CodeMap} (h : s.HoldsTable p) : s.commitOk.HoldsTable p :=
  h.congr rfl rfl

theorem State.commitOk_bit (s : State) (k : Nat) : s.commitOk.bit k = s.bit k := rfl

theorem SameEntries.commitOk {stored : MemName → Nat → Prop} {s t : State} (h : SameEntries stored s t) :
    SameEntries stored s t.commitOk := h

/-- WRITE_TABLE writes HUF_TABLE only. -/
theorem State.writeTable_entry (s : State) (p : CodeMap) {m : MemName} {k : Nat} (h : ¬ wholeTable m k) :
    (s.writeTable p).mems.entry m k = s.mems.entry m k := by
  cases m <;> first | rfl | exact absurd (by simp [wholeTable]) h

/-- A list written from entry 0 of a memory changes the entries of its own length only. -/
theorem Mem.read_writeList_of_not_entries {w : Nat} (mem : Mem w) {m : MemName} {vs : List (BitVec w)} {k : Nat}
    (h : ¬ entries m 0 vs.length m k) : (mem.writeList 0 vs).read k = mem.read k :=
  Mem.read_writeList_outside mem (.inr (by simpa [entries] using h))

/-! ### The outputs they lose -/

/-- Redrawn memories, and no other entry: each is drawn by an event that had not been used (R140). -/
theorem State.redrawAll_lost {s t : State} {ms : List MemName} (hm : t.mems = (s.redrawAll ms).mems)
    (hd : s.draws + ms.length ≤ t.draws) :
    SameEntries (fun m _ => m ∈ ms) s t ∧
      ∀ m ∈ ms, ∃ e, s.draws ≤ e ∧ e < t.draws ∧ t.mems.redraw e m = t.mems := by
  obtain ⟨_, _, _, _, _, _, _, _, hsame⟩ := s.redrawAll_frame ms
  refine ⟨fun m k hn => hm ▸ hsame m hn k, fun m hin => ?_⟩
  obtain ⟨e, hlow, hhigh, hdrawn⟩ := s.redrawAll_drawn ms m hin
  exact ⟨e, hlow, Nat.lt_of_lt_of_le hhigh hd, hm ▸ hdrawn⟩

/-! ### FRAME_C -/

/-- LZ_CHECK and the bound on NLEN, then that there is content (R134). -/
theorem State.frameCCheck_of_bounds {s : State} (hlz : s.lzCheck = .ok ()) (hn : s.regs.nlen.toNat ≤ s.cfg.nameCap) :
    s.frameCCheck = require (s.regs.clen.toNat ≠ 0) .emptyInput := by
  rw [State.frameCCheck, hlz, bind_ok, require_pos hn, bind_ok]

/-- A register out of its bounds is PARAM (R83, R134). -/
theorem State.frameCCheck_param {s : State} (h : s.lzCheck = .ok () → s.cfg.nameCap < s.regs.nlen.toNat) :
    s.frameCCheck = .error .param := by
  unfold State.frameCCheck
  cases hlz : s.lzCheck with
  | error c => rw [State.lzCheck_eq_error hlz]; rfl
  | ok _ => rw [bind_ok, require_neg (Nat.not_le.2 (h hlz))]; rfl

theorem execFrameC_of_error {s : State} {c : ErrCode} (h : s.frameCCheck = .error c) :
    execFrameC s = .next (s.commitErr c) := by
  rw [execFrameC, h]

theorem execFrameC_of_fits {s : State} (h : s.frameCCheck = .ok ()) (hf : s.frameBits.length ≤ s.cfg.bitbufCap) :
    execFrameC s = .next s.frameCOk.commitOk := by
  rw [execFrameC, h]
  exact if_pos hf

theorem execFrameC_of_full {s : State} (h : s.frameCCheck = .ok ()) (hf : s.cfg.bitbufCap < s.frameBits.length) :
    execFrameC s = .next (s.frameCLost.commitErr .bufFull) := by
  rw [execFrameC, h]
  exact if_neg (Nat.not_le.2 hf)

section
variable (s : State) (bs : Bits) (n : Nat) (p : CodeMap)

@[simp] theorem State.putContainer_bvLen : (s.putContainer bs n p).regs.bvLen = BitVec.ofNat 32 n := rfl
@[simp] theorem State.putContainer_bvRptr : (s.putContainer bs n p).regs.bvRptr = 0 := rfl
@[simp] theorem State.putContainer_resultBits : (s.putContainer bs n p).regs.resultBits = BitVec.ofNat 32 n := rfl
@[simp] theorem State.putContainer_hufD : (s.putContainer bs n p).regs.hufD = BitVec.ofNat 9 p.length := rfl
@[simp] theorem State.putContainer_trie : (s.putContainer bs n p).trie = none := rfl
@[simp] theorem State.putContainer_draws : (s.putContainer bs n p).draws = s.draws := rfl
@[simp] theorem State.putContainer_bit (k : Nat) : (s.putContainer bs n p).bit k = (s.writeBits 0 bs).bit k := rfl

theorem State.putContainer_sameCsrs :
    SameCsrs [.status, .bvLen, .bvRptr, .resultBits, .hufD, .hufState] s
      (s.putContainer bs n p).commitOk := by
  intro r hm
  cases r <;> first | (simp at hm; done) | rfl

theorem State.putContainer_sameEntries :
    SameEntries (fun m k => wholeTable m k ∨ entries .bitbuf 0 bs.length m k) s (s.putContainer bs n p) := by
  intro m k h
  refine ((s.writeBits 0 bs).writeTable_entry p fun hw => h (.inl hw)).trans ?_
  cases m
  case bitbuf =>
    refine congrArg (BitVec.setWidth 32)
      (s.mems.bitbuf.read_writeList_of_not_entries (m := .bitbuf) fun hk => h (.inr ?_))
    simpa using hk
  all_goals rfl

theorem State.putContainer_holds (hp : p.Ascending) : (s.putContainer bs n p).HoldsTable p :=
  ((s.writeBits 0 bs).writeTable_holds hp).congr rfl rfl

end

theorem State.contentList_ne_nil {s : State} (h : s.regs.clen.toNat ≠ 0) : s.contentList ≠ [] := by
  intro hnil
  have : s.contentList.length = s.regs.clen.toNat := Mem.slice_length _ _ _
  rw [hnil] at this
  exact h this.symm

theorem toNat_ofNat32 {n : Nat} (h : n < 2 ^ 32) : (BitVec.ofNat 32 n).toNat = n := by
  rw [BitVec.toNat_ofNat]; exact Nat.mod_eq_of_lt h

theorem toNat_ofNat9 {n : Nat} (h : n ≤ 256) : (BitVec.ofNat 9 n).toNat = n := by
  rw [BitVec.toNat_ofNat]; exact Nat.mod_eq_of_lt (by omega)

/-- The bits that a write from bit 0 begins with. -/
theorem State.bit_writeBits_append_left {s : State} (hm : s.mems.bitbuf.wf) (a b : Bits) {k : Nat} (hk : k < a.length) :
    (s.writeBits 0 (a ++ b)).bit k = a[k] := by
  have := State.bit_writeBits_inside hm (i := 0) (k := k) (bs := a ++ b) (by rw [List.length_append]; omega)
  rw [Nat.zero_add] at this
  exact this.trans (List.getElem_append_left hk)

/-- Zero bits written behind others read 0. -/
theorem State.bit_writeBits_append_zeros {s : State} (hm : s.mems.bitbuf.wf) (a : Bits) (n : Nat) {k : Nat}
    (hk : a.length ≤ k) (hn : k < a.length + n) : (s.writeBits 0 (a ++ List.replicate n false)).bit k = false := by
  have := State.bit_writeBits_inside hm (i := 0) (k := k) (bs := a ++ List.replicate n false) (by simpa using hn)
  rw [Nat.zero_add] at this
  exact this.trans ((List.getElem_append_right hk).trans (List.getElem_replicate _))

/-- FRAME_C's Ok commit, of any bits, length and code map. -/
theorem State.putContainer_okCommit (s : State) (bs : Bits) (n : Nat) (p : CodeMap) :
    OkCommit s (s.putContainer bs n p).commitOk :=
  LeavesControl.okCommit ⟨rfl, rfl, rfl, rfl, rfl, rfl, rfl, rfl, rfl⟩

theorem State.frameCLost_sameCsrs (s : State) (c : ErrCode) :
    SameCsrs [.status, .errcode, .bvLen, .bvRptr, .hufD, .hufState] s (s.frameCLost.commitErr c) := by
  obtain ⟨d, hd⟩ := (s.redraw .bitbuf).loseTable_regs
  have hregs : (s.frameCLost.commitErr c).regs =
      { s.regs with hufD := d, bvLen := 0, bvRptr := 0, errCode := c.code, err := true } := by
    simp only [State.commitErr, State.frameCLost, hd, State.redraw_regs]
  refine .of_regs ((State.commitErr_cfg _ c).trans s.frameCLost_leaves.cfg) _ hregs fun e f r hm => ?_
  cases r <;> first | (simp at hm; done) | rfl

theorem State.frameCLost_lost (s : State) :
    SameEntries (fun m _ => m ∈ [.bitbuf, .hufCtl, .hufCode]) s s.frameCLost ∧
      ∀ m ∈ [MemName.bitbuf, .hufCtl, .hufCode],
        ∃ e, s.draws ≤ e ∧ e < s.frameCLost.draws ∧ s.frameCLost.mems.redraw e m = s.frameCLost.mems :=
  State.redrawAll_lost rfl (Nat.le_succ (s.draws + 3))

/-- Settles O41: the check stage, then the container that fits or the outputs that are lost. -/
theorem frameCWritesTheContainer : Obligations.FrameCWritesTheContainer := by
  intro s bits hbits
  replace hbits : bits = s.frameBits := hbits
  subst hbits
  refine ⟨decode_eq_frameC, fun h => ?_, fun hl1 hl2 hw hc hn => ?_⟩
  · refine execFrameC_of_error (State.frameCCheck_param fun hlz => ?_)
    obtain ⟨⟨_, _⟩, _, _⟩ := State.lzCheck_eq_ok.1 hlz
    omega
  have hcheck := State.frameCCheck_of_bounds (State.lzCheck_eq_ok (u := ()).2 ⟨⟨by omega, hl2⟩, hw, hc⟩) hn
  refine ⟨fun h0 => ?_, fun h0 hfit hlegal hwf => ?_, fun h0 hfull => ?_⟩
  · exact execFrameC_of_error (hcheck.trans (require_neg (not_not.2 h0) _))
  · rw [require_pos h0] at hcheck
    have hx := State.contentList_ne_nil h0
    have hcap : s.frameBits.length < 2 ^ 32 := by
      obtain ⟨_, _, _, _, _, hb, _⟩ := hlegal; omega
    have hround : byteRound s.frameBits.length = 8 * ((s.frameBits.length + 7) / 8) := Nat.mul_comm _ _
    have hexec := execFrameC_of_fits hcheck hfit
    rw [s.frameCOk_eq] at hexec
    refine ⟨_, hexec, s.putContainer_okCommit _ _ _, fun k hk => ?_, fun k hk hk' => ?_, ?_, ?_, ?_, ?_, ?_, ?_,
      s.putContainer_sameCsrs _ _ _, ?_, ?_⟩
    · rw [State.commitOk_bit, State.putContainer_bit, State.paddedFrame]
      exact State.bit_writeBits_append_left hwf _ _ hk
    · rw [State.commitOk_bit, State.putContainer_bit, State.paddedFrame]
      exact State.bit_writeBits_append_zeros hwf _ _ hk (by omega)
    · rw [State.commitOk_bvLen, State.putContainer_bvLen]; exact toNat_ofNat32 hcap
    · rw [State.commitOk_bvRptr, State.putContainer_bvRptr]
    · rw [State.commitOk_resultBits, State.putContainer_resultBits]; exact toNat_ofNat32 hcap
    · exact (s.putContainer_holds s.paddedFrame _ _ (hufCodes_ascending hx)).commitOk
    · rw [State.commitOk_hufD, State.putContainer_hufD, hufCodes_length hx, toNat_ofNat9 (alphabet_length_le _)]
    · rw [State.commitOk_trie, State.putContainer_trie]
    · rw [← hround, ← s.paddedFrame_length]
      exact (s.putContainer_sameEntries s.paddedFrame _ _).commitOk
    · rw [State.commitOk_draws, State.putContainer_draws]
  · rw [require_pos h0] at hcheck
    obtain ⟨hsame, hdrawn⟩ := s.frameCLost_lost
    refine ⟨_, execFrameC_of_full hcheck hfull, s.frameCLost_leaves.commitFrame _, rfl, rfl, rfl, rfl, rfl, rfl,
      s.frameCLost_sameCsrs _, fun m k hm => hsame m k (by simpa using hm), fun m hm => hdrawn m (by simpa using hm)⟩

/-! ### FRAME_D -/

theorem State.frameDOk_mems (s : State) (f : Frame) (k : Nat) :
    (s.frameDOk f k).mems = ((s.writeFrame f).writeTable f.codes).mems := rfl

theorem execFrameD_of_error {s : State} {c : ErrCode} (h : s.regs.bvLen.toNat ≤ s.cfg.bitbufCap)
    (hr : s.frameRead = .error c) : execFrameD s = .next (s.frameDLost.commitErr c) := by
  rw [execFrameD, State.checkBvLen_eq_ok (u := ()).2 h, hr]

theorem execFrameD_of_ok {s : State} {f : Frame} {k : Nat} (h : s.regs.bvLen.toNat ≤ s.cfg.bitbufCap)
    (hr : s.frameRead = .ok (f, k)) : execFrameD s = .next (s.frameDOk f k).commitOk := by
  rw [execFrameD, State.checkBvLen_eq_ok (u := ()).2 h, hr]

/-- The name, the content and the table, and no other entry, are written. -/
theorem State.frameDOk_entry {s : State} {f : Frame} {n : Nat} {m : MemName} {k : Nat}
    (h : ¬ (wholeTable m k ∨ entries .name 0 f.name.length m k ∨ entries .content 0 f.content.length m k)) :
    (s.frameDOk f n).mems.entry m k = s.mems.entry m k := by
  rw [s.frameDOk_mems, State.writeTable_entry _ _ fun hw => h (.inl hw)]
  cases m
  case name =>
    exact congrArg (BitVec.setWidth 32) (s.mems.name.read_writeList_of_not_entries fun hk => h (.inr (.inl hk)))
  case content =>
    exact congrArg (BitVec.setWidth 32) (s.mems.content.read_writeList_of_not_entries fun hk => h (.inr (.inr hk)))
  all_goals rfl

theorem State.frameDLost_lost (s : State) :
    SameEntries (fun m _ => m ∈ [.name, .content, .hufCtl, .hufCode]) s s.frameDLost ∧
      ∀ m ∈ [MemName.name, .content, .hufCtl, .hufCode],
        ∃ e, s.draws ≤ e ∧ e < s.frameDLost.draws ∧ s.frameDLost.mems.redraw e m = s.frameDLost.mems :=
  State.redrawAll_lost rfl (Nat.le_succ (s.draws + 4))

theorem State.frameDLost_sameCsrs (s : State) (c : ErrCode) :
    SameCsrs [.status, .errcode, .nlen, .clen, .hufD, .hufState] s (s.frameDLost.commitErr c) := by
  obtain ⟨d, hd⟩ := (s.redrawAll [.name, .content]).loseTable_regs
  have hregs : (s.frameDLost.commitErr c).regs =
      { s.regs with hufD := d, nlen := 0, clen := 0, errCode := c.code, err := true } := by
    simp only [State.commitErr, State.frameDLost, hd, State.redrawAll_regs]
  refine .of_regs ((State.commitErr_cfg _ c).trans s.frameDLost_leaves.cfg) _ hregs fun e f r hm => ?_
  cases r <;> first | (simp at hm; done) | rfl

/-- Settles O42: FRAME_PARSE's value or error (`frameParse_eq_error`) decides which commit. -/
theorem frameDReadsTheContainer : Obligations.FrameDReadsTheContainer := by
  refine fun s => ⟨decode_eq_frameD, fun h => ?_, fun cfg bs c => frameParse_eq_error, fun c hb hp => ?_,
    fun f rest k hb hlegal hname hcontent hp hk => ?_⟩
  · rw [exec_frameD, execFrameD, State.checkBvLen_eq_error.2 ⟨h, rfl⟩]
  · obtain ⟨hsame, hdrawn⟩ := s.frameDLost_lost
    refine ⟨_, execFrameD_of_error hb (State.frameRead_eq_error.2 hp), s.frameDLost_leaves.commitFrame _, rfl, rfl, rfl,
      rfl, rfl, rfl, s.frameDLost_sameCsrs _, fun m k hm => hsame m k (by simpa using hm),
      fun m hm => hdrawn m (by simpa using hm)⟩
  · obtain ⟨hn, hx, hlisted, _⟩ := frameParse_ok hp
    obtain ⟨_, hcc, hnc, _⟩ := hlegal
    have hn32 := toNat_ofNat32 (n := f.name.length) (by omega)
    have hx32 := toNat_ofNat32 (n := f.content.length) (by omega)
    have hk32 : (BitVec.ofNat 32 k).toNat = k := toNat_ofNat32 (by have := s.regs.bvLen.isLt; omega)
    have hmems := s.frameDOk_mems f k
    refine ⟨_, execFrameD_of_ok hb (State.frameRead_eq_ok.2 ⟨rest, hp, hk⟩), (s.frameDOk_leaves f k).okCommit, ?_, ?_,
      hn32, hx32, ?_, toNat_ofNat9 hlisted.count.2, rfl, hk32, hk32, fun r hm => ?_, fun m i hm => ?_, rfl⟩
    · show (s.frameDOk f k).mems.name.slice 0 (BitVec.ofNat 32 f.name.length).toNat = f.name
      rw [hn32, hmems]
      exact Mem.slice_writeList hname 0 f.name
    · show (s.frameDOk f k).mems.content.slice 0 (BitVec.ofNat 32 f.content.length).toNat = f.content
      rw [hx32, hmems]
      exact Mem.slice_writeList hcontent 0 f.content
    · exact ((s.writeFrame f).writeTable_holds hlisted.ascending).congr (congrArg Mems.hufCtl hmems :)
        (congrArg Mems.hufCode hmems :)
    · cases r <;> first | (simp at hm; done) | rfl
    · exact State.frameDOk_entry (n := k) hm

end Sys2Proof.Machine
end

section
/-! PROOFS. Which accesses are unmapped, and the byte windows with their lanes, BITBUF's bits packed into bytes
among them (20_memory.md R51 to R55, R59). -/

namespace Sys2Proof.Machine

/-! ### Writes while BUSY -/

/-- Settles O13: `State.busWrite_busy` says what a write while BUSY does. -/
theorem busyWritesAreIgnored : Obligations.BusyWritesAreIgnored := by
  intro s a hr hb hw hctrl hstatus
  rw [State.access_write hr hw, State.busWrite_busy hb _ _ hctrl hstatus]
  exact ⟨fun h => by rw [if_neg h], fun h => by rw [if_pos h]⟩

/-! ### Unmapped accesses -/

/-- The reserved bus_size is of no width (R48). -/
theorem Access.bytes?_reserved {a : Access} (h : a.size = 3#2) : a.bytes? = none := by
  simp [Access.bytes?, h]

/-- Every other bus_size is of 1, 2 or 4 bytes (R48). -/
theorem Access.bytes?_of_ne {a : Access} (h : a.size ≠ 3#2) :
    a.bytes? = some (if a.size = 0#2 then 1 else if a.size = 1#2 then 2 else 4) := by
  unfold Access.bytes?
  generalize a.size = z at h ⊢
  revert z
  decide

theorem locate_of_bytes?_none {c : Config} {a : Access} (h : a.bytes? = none) : locate c a = .unmapped := by
  simp [locate, h]

/-- Outside the byte windows an access is unmapped in the reserved ranges, in a word window where it is no aligned
word, and in ZIN and ZOUT beyond ZCAP (R51, R52, R54). -/
theorem locate_unmapped {c : Config} {a : Access} {o n : Nat} (hn : a.bytes? = some n) (ho : o = a.addr.toNat)
    (h : (0x000100 ≤ o ∧ o < 0x004000) ∨ (0x009000 ≤ o ∧ o < 0x100000) ∨ (0x300000 ≤ o ∧ o < 0x400000) ∨
      ((o < 0x000100 ∨ (0x004000 ≤ o ∧ o < 0x008000) ∨ (0x100000 ≤ o ∧ o < 0x300000)) ∧ (n ≠ 4 ∨ o % 4 ≠ 0)) ∨
      (0x100000 ≤ o ∧ o < 0x200000 ∧ 0x100000 + 4 * c.zcap ≤ o) ∨
      (0x200000 ≤ o ∧ o < 0x300000 ∧ 0x200000 + 4 * c.zcap ≤ o)) : locate c a = .unmapped := by
  unfold locate
  rw [hn]
  dsimp only
  rw [← ho]
  split_ifs <;> first | rfl | omega

/-- In a byte window an access is unmapped where it is not aligned to its size or reaches beyond the capacity
(R53, R54). -/
theorem byteLoc_unmapped {c : Config} {w : ByteWin} {o n : Nat} (hbase : w.base ≤ o)
    (h : o % n ≠ 0 ∨ w.base + winCap c w < o + n) : byteLoc c w o n = .unmapped :=
  if_neg (by omega)

/-- Settles O15: by the kind of place, `locate_unmapped` and `byteLoc_unmapped` give the place, and an access there
does nothing. -/
theorem unmappedAccessesDoNothing : Obligations.UnmappedAccessesDoNothing := by
  intro s a o n ho hn h
  apply State.access_unmapped
  by_cases hz : a.size = 3#2
  · exact locate_of_bytes?_none (Access.bytes?_reserved hz)
  have hb : a.bytes? = some n := hn ▸ Access.bytes?_of_ne hz
  have window (w : ByteWin) := locate_window s.cfg w hb
  rw [← ho] at window
  rcases h with h | h | h | h | h | h | h | ⟨hlow, hhigh, h⟩ | ⟨hlow, hhigh, h⟩ | ⟨hlow, h⟩
  · exact absurd h hz
  · exact locate_unmapped hb ho (.inl h)
  · exact locate_unmapped hb ho (.inr (.inl h))
  · exact locate_unmapped hb ho (.inr (.inr (.inl h)))
  · exact locate_unmapped hb ho (.inr (.inr (.inr (.inl h))))
  · exact locate_unmapped hb ho (.inr (.inr (.inr (.inr (.inl h)))))
  · exact locate_unmapped hb ho (.inr (.inr (.inr (.inr (.inr h)))))
  · exact (window .name ⟨hlow, hhigh⟩).trans (byteLoc_unmapped hlow h)
  · exact (window .content ⟨hlow, hhigh⟩).trans (byteLoc_unmapped hlow h)
  · exact (window .bitbuf hlow).trans (byteLoc_unmapped hlow h)

/-! ### BITBUF's bits in its bytes -/

/-- Bit `7 − j` of a BITBUF byte is the bit vector's bit `8i + j` (R55). -/
theorem State.byteAt_bitbuf_getLsbD (s : State) (i : Nat) {j : Nat} (hj : j < 8) :
    (s.byteAt .bitbuf i).getLsbD (7 - j) = s.bit (8 * i + j) := by
  have h := val_testBit ((List.range 8).map fun k => s.bit (8 * i + k)) j (by simpa using hj)
  rw [List.getElem_map, List.getElem_range, List.length_map, List.length_range] at h
  rw [← h, State.byteAt, BitVec.getLsbD_ofNat, decide_eq_true (by omega), Bool.true_and]

/-- A BITBUF byte is the byte that has its eight bits, the first in bit 7 (R55). -/
theorem State.byteAt_bitbuf_eq {s : State} {i : Nat} {b : Byte}
    (h : ∀ j < 8, s.bit (8 * i + j) = b.getLsbD (7 - j)) : s.byteAt .bitbuf i = b := by
  apply BitVec.eq_of_getLsbD_eq
  intro p hp
  have hj : 7 - (7 - p) = p := by omega
  have := s.byteAt_bitbuf_getLsbD i (j := 7 - p) (by omega)
  rw [h _ (by omega), hj] at this
  exact this

/-- The bits that bytes are written as: bit `j` of byte `k` is its bit `7 − j` (R55). -/
theorem getElem?_flatMap_binFixed (bs : List Byte) {k j : Nat} (hk : k < bs.length) (hj : j < 8) :
    (bs.flatMap fun b => binFixed 8 b.toNat)[8 * k + j]? = some (bs[k].getLsbD (7 - j)) := by
  induction bs generalizing k with
  | nil => simp at hk
  | cons b bs ih =>
    rw [List.flatMap_cons]
    cases k with
    | zero =>
      rw [List.getElem?_append_left (by simpa using hj)]
      simp [binFixed, hj, BitVec.testBit_toNat]
    | succ k =>
      rw [List.getElem?_append_right (by simp; omega), binFixed_length, show 8 * (k + 1) + j - 8 = 8 * k + j by omega]
      exact ih (by simpa using hk)

/-! ### Bytes written and read back -/

/-- The byte `k` written is the byte at `i + k` (R53, R55). -/
theorem State.byteAt_writeBytes_inside {s : State} (hm : s.MemsOk) (win : ByteWin) (i : Nat) {k : Nat} {bs : List Byte}
    (hk : k < bs.length) : (s.writeBytes i bs win).byteAt win (i + k) = bs[k] := by
  cases win with
  | name => exact Mem.read_writeList_inside hm.name.1 hk
  | content => exact Mem.read_writeList_inside hm.content.1 hk
  | bitbuf =>
    refine State.byteAt_bitbuf_eq fun j hj => ?_
    have hlen : (bs.flatMap fun b => binFixed 8 b.toNat).length = 8 * bs.length := nameBits_length bs
    have hin : 8 * k + j < (bs.flatMap fun b => binFixed 8 b.toNat).length := by omega
    rw [show 8 * (i + k) + j = 8 * i + (8 * k + j) by omega]
    refine (State.bit_writeBits_inside hm.bitbuf.1 hin).trans ?_
    exact (List.getElem_eq_iff hin).2 (getElem?_flatMap_binFixed bs hk hj)

/-- Every other byte is as it was, in the window written and in the others (R53). -/
theorem State.byteAt_writeBytes_outside (s : State) {win win' : ByteWin} {i k : Nat} {bs : List Byte}
    (h : win' ≠ win ∨ k < i ∨ i + bs.length ≤ k) : (s.writeBytes i bs win).byteAt win' k = s.byteAt win' k := by
  by_cases hw : win' = win
  · subst hw
    have hk : k < i ∨ i + bs.length ≤ k := h.resolve_left fun hne => hne rfl
    cases win' with
    | name => exact Mem.read_writeList_outside _ hk
    | content => exact Mem.read_writeList_outside _ hk
    | bitbuf =>
      have hlen : (bs.flatMap fun b => binFixed 8 b.toNat).length = 8 * bs.length := nameBits_length bs
      refine State.byteAt_bitbuf_eq fun j hj => ?_
      rw [s.byteAt_bitbuf_getLsbD k hj]
      exact s.bit_writeBits_outside (by omega)
  · cases win <;> cases win' <;> first | rfl | exact absurd rfl hw

/-- A write of bytes is in the three byte memories only. -/
theorem State.writeBytes_entry (s : State) (i : Nat) (bs : List Byte) (win : ByteWin) {m : MemName}
    (hm : m = .zin ∨ m = .zout ∨ m = .hufCtl ∨ m = .hufCode) (k : Nat) :
    (s.writeBytes i bs win).mems.entry m k = s.mems.entry m k := by
  rcases hm with rfl | rfl | rfl | rfl <;> cases win <;> rfl

/-- A write of bytes changes the memories only. -/
theorem State.writeBytes_frame (s : State) (i : Nat) (bs : List Byte) (win : ByteWin) :
    ∃ ms, s.writeBytes i bs win = { s with mems := ms } := by
  cases win <;> exact ⟨_, rfl⟩

/-! ### Byte lanes -/

/-- Bit `j` of the lanes is bit `j mod 8` of the byte `j div 8`, and 0 above the bytes (R53). -/
theorem leWord_getLsbD (bs : List Byte) {j : Nat} (hj : j < 32) :
    (leWord bs).getLsbD j = (bs.getD (j / 8) 0).getLsbD (j % 8) := by
  induction bs generalizing j with
  | nil => simp [leWord]
  | cons b bs ih =>
    show ((leWord bs <<< 8) ||| b.setWidth 32).getLsbD j = _
    rw [BitVec.getLsbD_or, BitVec.getLsbD_shiftLeft, BitVec.getLsbD_setWidth]
    by_cases h8 : j < 8
    · simp [h8, hj, Nat.div_eq_of_lt h8, Nat.mod_eq_of_lt h8]
    · obtain ⟨p, rfl⟩ := Nat.exists_eq_add_of_le' (Nat.not_lt.1 h8)
      rw [Nat.add_div_right _ (by decide), Nat.add_mod_right, Nat.add_sub_cancel, ih (by omega)]
      simp [hj]

/-- The n bytes of a word, put back on their lanes, are the word zero-extended from n bytes (R53). -/
theorem leWord_leBytes (n : Nat) (v : Word) : leWord (leBytes n v) = v &&& BitVec.ofNat 32 (2 ^ (8 * n) - 1) := by
  apply BitVec.eq_of_getLsbD_eq
  intro j hj
  rw [leWord_getLsbD _ hj, BitVec.getLsbD_and, BitVec.getLsbD_ofNat, Nat.testBit_two_pow_sub_one]
  unfold leBytes
  by_cases h : j / 8 < n
  · have hv : 8 * (j / 8) + j % 8 = j := Nat.div_add_mod j 8
    have hn : j < 8 * n := by omega
    have hm : j % 8 < 8 := by omega
    simp [List.getD, h, hv, hj, hn, hm]
  · have hn : ¬ j < 8 * n := by omega
    simp [List.getD, h, hn]

/-! ### Accesses of a byte window -/

section
variable {s : State} (hr : s.rstN = true) (hi : s.engine = .idle) (hl : s.cfg.Legal)
  (win : ByteWin) {sz : BitVec 2} {i n : Nat}
include hr hi hl

/-- While IDLE an aligned write inside a byte window stores the bytes of its lanes (R53). -/
theorem State.access_write_bytes {v : Word} (hn : Access.bytes? ⟨0, sz, true, v⟩ = some n) (ha : i % n = 0)
    (hc : i + n ≤ winCap s.cfg win) :
    s.access ⟨BitVec.ofNat 24 (win.base + i), sz, true, v⟩ = (s.writeBytes i (leBytes n v) win, 0) := by
  rw [State.access_write hr rfl, locate_bytes hl win hn ha hc]
  simp [State.busWrite, s.busy_eq_false.2 hi]

/-- While IDLE an aligned read inside a byte window returns its bytes on their lanes and changes nothing (R53). -/
theorem State.access_read_bytes {v : Word} (hn : Access.bytes? ⟨0, sz, false, v⟩ = some n) (ha : i % n = 0)
    (hc : i + n ≤ winCap s.cfg win) :
    s.access ⟨BitVec.ofNat 24 (win.base + i), sz, false, v⟩ =
      (s, leWord ((List.range n).map fun k => s.byteAt win (i + k))) := by
  rw [State.access_read hr rfl, locate_bytes hl win hn ha hc]
  simp [State.busRead, s.busy_eq_false.2 hi]

end

/-- Bytes just written are read back. -/
theorem State.writeBytes_readBack {s : State} (hm : s.MemsOk) (win : ByteWin) (i : Nat) (bs : List Byte) :
    ((List.range bs.length).map fun k => (s.writeBytes i bs win).byteAt win (i + k)) = bs := by
  apply List.ext_getElem (by simp)
  intro k _ hk
  rw [List.getElem_map, List.getElem_range, State.byteAt_writeBytes_inside hm win i hk]

/-- Settles O16: the write is `writeBytes` of the lanes, which a read puts back on them. -/
theorem byteLanesAreLittleEndian : Obligations.ByteLanesAreLittleEndian := by
  intro s win sz i n v hr hi hl hm hn ha hc
  have hlen : (leBytes n v).length = n := by simp [leBytes]
  obtain ⟨ms, hms⟩ := s.writeBytes_frame i (leBytes n v) win
  refine ⟨_, State.access_write_bytes hr hi hl win hn ha hc, fun k hk => ?_, ?_, fun win' k hk => ?_,
    fun m k h => s.writeBytes_entry i _ win h k, fun r _ => ?_, ?_⟩
  · rw [State.byteAt_writeBytes_inside hm win i (by rwa [hlen])]
    simp [leBytes]
  · have back := State.writeBytes_readBack hm win i (leBytes n v)
    rw [hlen, hms] at back
    rw [hms, State.access_read_bytes (s := { s with mems := ms }) hr hi hl win hn ha hc, back, leWord_leBytes]
  · exact s.byteAt_writeBytes_outside (by rwa [hlen])
  · rw [hms]; cases r <;> rfl
  · rw [hms]

/-- Settles O17: `State.byteAt_bitbuf_getLsbD` at the index's byte and bit, which a byte read returns on its first
lane. -/
theorem bitIndexIsPackedMsbFirst : Obligations.BitIndexIsPackedMsbFirst := by
  intro s i
  have packed : (s.byteAt .bitbuf (i / 8)).getLsbD (7 - i % 8) = s.bit i := by
    rw [s.byteAt_bitbuf_getLsbD (i / 8) (Nat.mod_lt _ (by decide)), Nat.div_add_mod]
  refine ⟨packed, fun hr hi hl hcap => ?_⟩
  have hin : i / 8 + 1 ≤ winCap s.cfg .bitbuf := by
    obtain ⟨_, _, _, hmul, _⟩ := hl
    show i / 8 + 1 ≤ s.cfg.bitbufCap / 8
    omega
  have hread := State.access_read_bytes hr hi hl .bitbuf (sz := 0#2) (v := 0) (n := 1) rfl (Nat.mod_one _) hin
  have hbit : 7 - i % 8 < 8 := Nat.lt_succ_of_le (Nat.sub_le _ _)
  rw [show (0x800000 : Nat) = ByteWin.base .bitbuf from rfl, hread, leWord_getLsbD _ (Nat.lt_trans hbit (by decide)),
    Nat.div_eq_of_lt hbit, Nat.mod_eq_of_lt hbit]
  exact packed

end Sys2Proof.Machine
end

section
/-! PROOFS. The lines of a host program (20_memory.md R48, R50; 30_encoding.md R74, R76). -/

namespace Sys2Proof.Machine

/-! ### Accesses by the host -/

/-- A host write is the access, nothing of it kept by the host. -/
theorem State.hostAccess_write {s : State} {a : Access} (h : a.write = true) : s.hostAccess a = (s.access a).1 := by
  simp [State.hostAccess, h]

/-- A host read keeps the value read as its operand, changes no register and no memory, and stays at its line. -/
theorem State.hostAccess_read (s : State) {a : Access} (h : a.write = false) :
    (s.hostAccess a).host.operand = (s.access a).2 ∧ (s.hostAccess a).mems = s.mems ∧ (s.hostAccess a).regs = s.regs ∧
      (s.hostAccess a).host.pc = s.host.pc := by
  have hstate : (s.access a).1 = s ∨ (s.access a).1 = { s with draws := s.draws + 1 } := by
    rcases s.access_cases a with ⟨_, e⟩ | ⟨_, hw, _⟩ | ⟨_, _, e⟩
    · exact .inl (by rw [e])
    · exact absurd (h.symm.trans hw) nofun
    · rw [e]; exact (s.busRead_state _).imp_right And.right
  rcases hstate with e | e <;> simp [State.hostAccess, h, e]

/-- An access elsewhere on the platform leaves the block as it was but for a draw, and the host at its line. -/
theorem State.hostElsewhere_eq (s : State) (write : Bool) :
    ∃ n v, s.hostElsewhere write = ({ s with draws := n } : State).onHost { s.host with operand := v } := by
  cases write
  · exact ⟨s.draws + 1, Config.draw 32 s.draws 0, rfl⟩
  · exact ⟨s.draws, s.host.operand, rfl⟩

/-! ### Branches -/

/-- STATUS reads BUSY in bit 0 (R22, R26). -/
theorem State.readCsr_status_busy (s : State) : (s.readCsr .status).getLsbD 0 = s.busy := by
  unfold State.readCsr
  cases he : s.engine with
  | idle => exact (packStatus_getLsbD _ _ _ _ 0).trans (by simp)
  | busy s0 => exact (packStatus_getLsbD _ _ _ _ 0).trans (by simp [State.busy, he])

/-- A branch that goes to line `n` or on to the next one leaves the host there. -/
theorem State.branch_pc (t : State) (n : Nat) (p : Prop) [Decidable p] :
    (if p then t.goto n else t.nextLine).host.pc = if p then n else t.host.pc + 1 :=
  apply_ite (fun u : State => u.host.pc) ..

section
variable {s : State} (hr : s.rstN = true)
include hr

theorem hostOp_berr_pc (n : Nat) :
    (hostOp s (.berr n)).host.pc = if (s.readCsr .status).getLsbD 2 then n else s.host.pc + 1 := by
  rw [hostOp, State.branch_pc, State.hostRd_eq hr]
  rfl

theorem hostOp_wait_pc : (hostOp s .wait).host.pc = if s.busy then s.host.pc else s.host.pc + 1 := by
  rw [← s.readCsr_status_busy, hostOp, State.hostRd_eq hr]
  exact apply_ite (fun u : State => u.host.pc) ..

/-- The second access of a `blt` compares what the first one held with its own register, unsigned (R74). -/
theorem hostOp_blt_second_pc (r1 r2 : Csr) (n : Nat) (hsub : s.host.sub ≠ 0) :
    (hostOp s (.blt r1 r2 n)).host.pc =
      if s.host.held.toNat < (s.readCsr r2).toNat then n else s.host.pc + 1 := by
  rw [hostOp, if_neg hsub, State.branch_pc, State.hostRd_eq hr]
  rfl

/-- `blt` branches on the two registers' values, read one a step (R74). -/
theorem hostOp_blt_pc (r1 r2 : Csr) (n : Nat) (hsub : s.host.sub = 0) :
    (hostOp (hostOp s (.blt r1 r2 n)) (.blt r1 r2 n)).host.pc =
      if (s.readCsr r1).toNat < (s.readCsr r2).toNat then n else s.host.pc + 1 := by
  obtain ⟨g, hfirst, hheld, hsub1, hpc⟩ : ∃ g, hostOp s (.blt r1 r2 n) = s.onHost g ∧
      g.held = s.readCsr r1 ∧ g.sub = 1 ∧ g.pc = s.host.pc := by
    rw [hostOp, if_pos hsub, State.hostRd_eq hr]
    exact ⟨_, rfl, rfl, rfl, rfl⟩
  have hread : (s.onHost g).readCsr r2 = s.readCsr r2 := by cases r2 <;> rfl
  rw [hfirst, hostOp_blt_second_pc (s := s.onHost g) hr r1 r2 n (hsub1.trans_ne Nat.one_ne_zero), hread, ← hheld,
    ← hpc]
  rfl

end

/-! ### Lines of many accesses -/

/-- `wrb` writes its bytes in order, one a step (R74). -/
theorem hostOp_wrb (w : ByteWin) (i : Nat) (bs : List Byte) (s : State) (hsub : s.host.sub = 0) (hne : bs ≠ [])
    (hfit : w.base + i + bs.length ≤ 2 ^ 24) :
    (fun u => hostOp u (.wrb w i bs))^[bs.length] s =
      (bs.zipIdx.foldl
        (fun u b => (u.access ⟨BitVec.ofNat 24 (w.base + i + b.2), 0#2, true, b.1.setWidth 32⟩).1) s).nextLine := by
  refine runLine _ _ bs (fun s h b => congrArg Prod.fst (s.access_onHost h _)) (fun s b => s.access_host _)
    (fun s k b hk hb => ?_) s hsub hne
  subst hk
  have hlt : s.host.sub < bs.length := (List.getElem?_eq_some_iff.1 hb).1
  simp only [hostOp, hb]
  rw [s.memWrite_of_lt (by omega)]

/-- `wrw` writes its words in order, one a step (R74). -/
theorem hostOp_wrw (w : WordWin) (i : Nat) (ws : List Word) (s : State) (hsub : s.host.sub = 0) (hne : ws ≠ [])
    (hfit : w.base + 4 * (i + ws.length) ≤ 2 ^ 24) :
    (fun u => hostOp u (.wrw w i ws))^[ws.length] s =
      (ws.zipIdx.foldl
        (fun u v => (u.access ⟨BitVec.ofNat 24 (w.base + 4 * (i + v.2)), 2#2, true, v.1⟩).1) s).nextLine := by
  refine runLine _ _ ws (fun s h v => congrArg Prod.fst (s.access_onHost h _)) (fun s v => s.access_host _)
    (fun s k v hk hv => ?_) s hsub hne
  subst hk
  have hlt : s.host.sub < ws.length := (List.getElem?_eq_some_iff.1 hv).1
  simp only [hostOp, hv]
  rw [s.memWrite_of_lt (by omega)]

/-- Settles O24: line by line, the lemma that says what the line comes down to. -/
theorem hostLinesDoTheirAccesses : Obligations.HostLinesDoTheirAccesses := by
  intro s hr
  refine ⟨fun i => rfl, s.hostWr_eq, fun r => ?_, fun r v => rfl, fun r => rfl, fun a ha => ?_, fun a ha => ?_,
    fun p o ho hp => ?_, fun p hp => ?_, fun w i bs => hostOp_wrb w i bs s, fun w i ws => hostOp_wrw w i ws s,
    hostOp_berr_pc hr, hostOp_wait_pc hr, hostOp_blt_pc hr, rfl⟩
  · rw [State.hostRd_eq hr]
    refine ⟨rfl, rfl, rfl, ?_⟩
    split
    · next h => rw [h]; rfl
    · rfl
  · exact congrArg State.nextLine (State.hostAccess_write ha)
  · obtain ⟨hoperand, hmems, hregs, hpc⟩ := s.hostAccess_read ha
    exact ⟨hoperand, hmems, hregs, congrArg (· + 1) hpc⟩
  · exact congrArg State.nextLine (s.hostPlatform_inside p ho hp)
  · obtain ⟨n, v, he⟩ := s.hostElsewhere_eq p.write
    refine ⟨_, rfl, ?_⟩
    rw [hostOp, s.hostPlatform_outside p hp, he]
    exact ⟨rfl, rfl, rfl, rfl, rfl, rfl, rfl, rfl, rfl⟩

end Sys2Proof.Machine
end

section
/-! PROOFS. The opcode map and its decoder: a word as its opcode and its low bits, what selects a row, and encode and
decode as inverses (30_encoding.md R69 to R72). -/

namespace Sys2Proof

/-! ### The parts of a word -/

/-- A word is its opcode and its bits [23:0] (R69). -/
theorem word_eq_iff {a b : Word} : a = b ↔ opcOf a = opcOf b ∧ a.extractLsb' 0 24 = b.extractLsb' 0 24 := by
  refine ⟨fun h => h ▸ ⟨rfl, rfl⟩, fun ⟨hopc, hlow⟩ => ?_⟩
  calc a = opcOf a ++ a.extractLsb' 0 24 := (BitVec.extractLsb'_append_extractLsb' (w := 8) (len := 24)).symm
    _ = opcOf b ++ b.extractLsb' 0 24 := by rw [hopc, hlow]
    _ = b := BitVec.extractLsb'_append_extractLsb' (w := 8) (len := 24)

/-- A field in the low bits, zero-extended, is the word under the field's mask (R70). -/
theorem setWidth_extractLsb'_zero (n : Nat) (w : Word) :
    (w.extractLsb' 0 n).setWidth 32 = w &&& (BitVec.allOnes n).setWidth 32 := by
  apply BitVec.eq_of_getLsbD_eq
  intro i hi
  simp [hi, Bool.and_comm]

/-- A field laid over zero bits is read back (R69, R70). -/
theorem extractLsb'_or_setWidth {n : Nat} (hn : n ≤ 32) {b : Word} (hb : b.extractLsb' 0 n = 0) (x : BitVec n) :
    (b ||| x.setWidth 32).extractLsb' 0 n = x := by
  rw [BitVec.extractLsb'_or, hb, BitVec.extractLsb'_setWidth_of_le (by omega), BitVec.extractLsb'_eq_self]
  exact BitVec.zero_or

/-! ### The rows of the opcode map -/

/-- A row's mask is every bit but its format's field, and its match is its opcode over zeros (R69, R71). -/
theorem opcodeMap_shape : ∀ r ∈ opcodeMap, r.mask = ~~~r.format.fieldMask ∧ r.base = r.opc ++ 0#24 := by decide

theorem opcodeMap_base_and_mask : ∀ r ∈ opcodeMap, r.base &&& r.mask = r.base := by decide

/-- The OPC values of the rows differ (R71). -/
theorem opcodeMap_opc_injective : ∀ r ∈ opcodeMap, ∀ r' ∈ opcodeMap, r.opc = r'.opc → r = r' := by decide

theorem Mnemonic.exists_row (m : Mnemonic) : ∃ r ∈ opcodeMap, r.mnemonic = m := by cases m <;> decide

variable {r : OpRow} {w : Word}

/-- A word agrees with a row under its mask when it has its opcode and no must-be-zero bit is 1 (R71, R72). -/
theorem OpRow.and_mask_eq_base_iff (hr : r ∈ opcodeMap) :
    w &&& r.mask = r.base ↔
      r.opc = opcOf w ∧ w.extractLsb' 0 24 &&& ~~~r.format.fieldMask.extractLsb' 0 24 = 0 := by
  obtain ⟨hmask, hbase⟩ := opcodeMap_shape r hr
  have hopc : opcOf r.mask = BitVec.allOnes 8 := by rw [hmask]; cases r.format <;> rfl
  have hlow : r.mask.extractLsb' 0 24 = ~~~r.format.fieldMask.extractLsb' 0 24 := by
    rw [hmask]; cases r.format <;> rfl
  have hopc' : opcOf r.base = r.opc := by rw [hbase]; exact BitVec.extractLsb'_append_eq_left
  have hlow' : r.base.extractLsb' 0 24 = 0 := by rw [hbase]; exact BitVec.extractLsb'_append_eq_right
  have hand : opcOf (w &&& r.mask) = opcOf w := by
    rw [opcOf, BitVec.extractLsb'_and, ← opcOf, ← opcOf, hopc, BitVec.and_allOnes]
  rw [word_eq_iff, hand, hopc', hlow', BitVec.extractLsb'_and, hlow, eq_comm (a := r.opc)]

/-- A row's command is well formed where NBITS, if the row's format has it, is legal (R70). -/
theorem wellFormed_instr (hr : r ∈ opcodeMap) (w : Word) :
    (r.mnemonic.instr w).wellFormed = true ↔ (r.format = .n → nbitsLegal (nbitsOf w)) := by
  revert r
  simp [opcodeMap, Mnemonic.instr, Instr.wellFormed]

/-- A row selects a word where the two agree under the mask and the row's command is well formed (R71). -/
theorem OpRow.selects_iff (hr : r ∈ opcodeMap) :
    r.selects w = true ↔ w &&& r.mask = r.base ∧ (r.mnemonic.instr w).wellFormed = true := by
  rw [wellFormed_instr hr, OpRow.selects]
  simp [imp_iff_not_or]

theorem OpRow.opc_of_selects (hr : r ∈ opcodeMap) (h : r.selects w = true) : r.opc = opcOf w :=
  ((OpRow.and_mask_eq_base_iff hr).1 ((OpRow.selects_iff hr).1 h).1).1

/-- Rows that select one word have its opcode, so they are one row (R71). -/
theorem OpRow.eq_of_selects {r' : OpRow} (hr : r ∈ opcodeMap) (hr' : r' ∈ opcodeMap) (h : r.selects w = true)
    (h' : r'.selects w = true) : r = r' :=
  opcodeMap_opc_injective r hr r' hr' ((OpRow.opc_of_selects hr h).trans (OpRow.opc_of_selects hr' h').symm)

/-! ### Decode -/

/-- The row that decode looks up is the one with the word's opcode (R72). -/
theorem find?_opcOf_eq_some (hr : r ∈ opcodeMap) (hopc : r.opc = opcOf w) :
    opcodeMap.find? (fun r => r.opc == opcOf w) = some r := by
  cases hf : opcodeMap.find? (fun r => r.opc == opcOf w) with
  | none => exact absurd (by simpa using hopc) (List.find?_eq_none.1 hf r hr)
  | some r' =>
    have hopc' : r'.opc = opcOf w := by simpa using List.find?_some hf
    rw [opcodeMap_opc_injective r' (List.mem_of_find?_eq_some hf) r hr (hopc'.trans hopc.symm)]

/-- A word with a row's opcode decodes to the row's command where the row selects it, and not otherwise (R72). -/
theorem decode_eq_ok_iff_of_opc (hr : r ∈ opcodeMap) (hopc : r.opc = opcOf w) {i : Instr} :
    decode w = .ok i ↔ r.selects w = true ∧ r.mnemonic.instr w = i := by
  rw [decode, find?_opcOf_eq_some hr hopc, OpRow.selects]
  by_cases hm : w &&& r.mask = r.base
  · by_cases hn : r.format = .n
    · by_cases hl : nbitsLegal (nbitsOf w) <;> simp [hm, hn, hl]
    · simp [hm, hn]
  · simp [hm]

theorem exists_row_of_decode {i : Instr} (h : decode w = .ok i) : ∃ r ∈ opcodeMap, r.opc = opcOf w := by
  obtain ⟨r, hr, hm, _⟩ := Machine.decode_row h
  exact ⟨r, hr, ((OpRow.and_mask_eq_base_iff hr).1 hm).1⟩

/-- Decode is selection: a word decodes to the command of the row that selects it, and to no other (R71, R72). -/
theorem decode_eq_ok_iff_selects {i : Instr} :
    decode w = .ok i ↔ ∃ r ∈ opcodeMap, r.selects w = true ∧ r.mnemonic.instr w = i := by
  constructor
  · intro h
    obtain ⟨r, hr, hopc⟩ := exists_row_of_decode h
    exact ⟨r, hr, (decode_eq_ok_iff_of_opc hr hopc).1 h⟩
  · rintro ⟨r, hr, hs⟩
    exact (decode_eq_ok_iff_of_opc hr (OpRow.opc_of_selects hr hs.1)).2 hs

/-! ### Encode -/

/-- The word of a row's command is the row's match with the operand field of the format (R69, R71). -/
theorem encode_instr (hr : r ∈ opcodeMap) (w : Word) :
    encode (r.mnemonic.instr w) = r.base ||| (w &&& r.format.fieldMask) := by
  have hz : w &&& Format.z.fieldMask = 0 := BitVec.and_zero
  have hg : (genOf w).setWidth 32 = w &&& Format.g.fieldMask := setWidth_extractLsb'_zero 1 w
  have hn : (nbitsOf w).setWidth 32 = w &&& Format.n.fieldMask := setWidth_extractLsb'_zero 6 w
  have hs : (symOf w).setWidth 32 = w &&& Format.s.fieldMask := setWidth_extractLsb'_zero 8 w
  revert r
  simp [opcodeMap, Mnemonic.instr, encode, hz, hg, hn, hs]

/-- Every command is read back from its word by its mnemonic (R69, R70). -/
theorem exists_instr_encode : ∀ i : Instr, ∃ m : Mnemonic, m.instr (encode i) = i
  | .nop => ⟨.nop, rfl⟩
  | .zarray => ⟨.zarray, rfl⟩
  | .lzMatch => ⟨.lzMatch, rfl⟩
  | .lzStep => ⟨.lzStep, rfl⟩
  | .lzRecon => ⟨.lzRecon, rfl⟩
  | .triPut => ⟨.triPut, rfl⟩
  | .triGet => ⟨.triGet, rfl⟩
  | .hufBuild => ⟨.hufBuild, rfl⟩
  | .hufEnc sym => ⟨.hufEnc, congrArg Instr.hufEnc (extractLsb'_or_setWidth (by decide) rfl sym)⟩
  | .hufTrie => ⟨.hufTrie, rfl⟩
  | .hufDec => ⟨.hufDec, rfl⟩
  | .eoEnc gen => ⟨.eoEnc, congrArg Instr.eoEnc (extractLsb'_or_setWidth (by decide) rfl gen)⟩
  | .eoDec gen => ⟨.eoDec, congrArg Instr.eoDec (extractLsb'_or_setWidth (by decide) rfl gen)⟩
  | .bvClear => ⟨.bvClear, rfl⟩
  | .bvPut n => ⟨.bvPut, congrArg Instr.bvPut (extractLsb'_or_setWidth (by decide) rfl n)⟩
  | .bvGet n => ⟨.bvGet, congrArg Instr.bvGet (extractLsb'_or_setWidth (by decide) rfl n)⟩
  | .frameC => ⟨.frameC, rfl⟩
  | .frameD => ⟨.frameD, rfl⟩

/-- A selected word is its row's match with the operand field, which is the word of its command (R69, R71). -/
theorem encode_instr_of_match (hr : r ∈ opcodeMap) (hm : w &&& r.mask = r.base) : encode (r.mnemonic.instr w) = w := by
  obtain ⟨hmask, _⟩ := opcodeMap_shape r hr
  calc encode (r.mnemonic.instr w) = r.base ||| (w &&& r.format.fieldMask) := encode_instr hr w
    _ = (w &&& ~~~r.format.fieldMask) ||| (w &&& r.format.fieldMask) := by rw [← hm, hmask]
    _ = w := by rw [← BitVec.and_or_distrib_left, BitVec.not_or_self, BitVec.and_allOnes]

/-- The word of a row's command agrees with the row under its mask (R71). -/
theorem encode_instr_and_mask (hr : r ∈ opcodeMap) (w : Word) : encode (r.mnemonic.instr w) &&& r.mask = r.base := by
  obtain ⟨hmask, _⟩ := opcodeMap_shape r hr
  calc encode (r.mnemonic.instr w) &&& r.mask = (r.base ||| (w &&& r.format.fieldMask)) &&& r.mask := by
        rw [encode_instr hr]
    _ = (r.base &&& r.mask) ||| (w &&& (r.format.fieldMask &&& r.mask)) := by
        rw [BitVec.and_or_distrib_right, BitVec.and_assoc]
    _ = r.base ||| (w &&& 0) := by rw [opcodeMap_base_and_mask r hr, hmask, BitVec.and_not_self]
    _ = r.base := by simp

/-- Settles O2: the row of the command's mnemonic agrees with the command's word, and selects it. -/
theorem decodeInvertsEncode : Obligations.DecodeInvertsEncode := by
  intro i hwf
  obtain ⟨m, hm⟩ := exists_instr_encode i
  obtain ⟨r, hr, rfl⟩ := m.exists_row
  have hmatch := encode_instr_and_mask hr (encode i)
  rw [hm] at hmatch
  exact decode_eq_ok_iff_selects.2 ⟨r, hr, (OpRow.selects_iff hr).2 ⟨hmatch, by rwa [hm]⟩, hm⟩

/-- Settles O3: the row that selects the word has a well-formed command, whose word agrees with it in every bit. -/
theorem everyDecodedWordIsItsEncoding : Obligations.EveryDecodedWordIsItsEncoding := by
  intro w i h
  obtain ⟨r, hr, hs, rfl⟩ := decode_eq_ok_iff_selects.1 h
  obtain ⟨hmatch, hwf⟩ := (OpRow.selects_iff hr).1 hs
  exact ⟨hwf, encode_instr_of_match hr hmatch⟩

/-- A word decodes exactly when a row selects it (R71). -/
theorem exists_decode_iff_selects : (∃ i, decode w = .ok i) ↔ ∃ r ∈ opcodeMap, r.selects w = true := by
  constructor
  · rintro ⟨i, h⟩
    obtain ⟨r, hr, hs, _⟩ := decode_eq_ok_iff_selects.1 h
    exact ⟨r, hr, hs⟩
  · rintro ⟨r, hr, hs⟩
    exact ⟨_, decode_eq_ok_iff_selects.2 ⟨r, hr, hs, rfl⟩⟩

/-- Settles O4: decode is selection, and rows that select one word have its opcode. -/
theorem decodeAcceptsExactlySelectedWords : Obligations.DecodeAcceptsExactlySelectedWords :=
  ⟨fun _ => exists_decode_iff_selects, fun _ _ _ => OpRow.eq_of_selects⟩

/-- Settles O1: each word is decoded by its row, or refused where its row or its opcode refuses it. -/
theorem sampleWordsDecode : Obligations.SampleWordsDecode :=
  ⟨rfl, rfl, rfl, rfl, rfl, rfl, rfl, rfl, rfl, rfl, rfl, rfl, rfl⟩

end Sys2Proof
end

section
/-! PROOFS. Which words are illegal, and their commit (30_encoding.md R73). -/

namespace Sys2Proof

variable {w : Word}

/-- The OPC values that the opcode map leaves unassigned (R73). -/
theorem opc_unassigned_iff (b : Byte) {o : Nat} (ho : o = b.toNat) :
    (∀ r ∈ opcodeMap, r.opc ≠ b) ↔
      (0x01 ≤ o ∧ o ≤ 0x0F) ∨ (0x12 ≤ o ∧ o ≤ 0x1F) ∨ (0x24 ≤ o ∧ o ≤ 0x2F) ∨ (0x34 ≤ o ∧ o ≤ 0x3F) ∨
        (0x42 ≤ o ∧ o ≤ 0x4F) ∨ (0x53 ≤ o ∧ o ≤ 0x5F) ∨ (0x62 ≤ o ∧ o ≤ 0xFF) := by
  have hb : o < 256 := ho ▸ b.isLt
  simp only [opcodeMap, List.forall_mem_cons, ne_eq, ← BitVec.toNat_inj, ← ho, List.not_mem_nil,
    false_imp_iff, implies_true, and_true, BitVec.toNat_ofNat]
  omega

/-- A row refuses a word of its opcode where a must-be-zero bit is 1, or NBITS is 0 or above 32 (R73). -/
theorem OpRow.not_selects_iff {r : OpRow} (hr : r ∈ opcodeMap) (hopc : r.opc = opcOf w) :
    ¬ r.selects w = true ↔
      w.extractLsb' 0 24 &&& ~~~(r.format.fieldMask.extractLsb' 0 24) ≠ 0 ∨
        (r.format = .n ∧ ((nbitsOf w).toNat = 0 ∨ 32 < (nbitsOf w).toNat)) := by
  have hn : ¬ nbitsLegal (nbitsOf w) ↔ (nbitsOf w).toNat = 0 ∨ 32 < (nbitsOf w).toNat := by omega
  rw [OpRow.selects_iff hr, OpRow.and_mask_eq_base_iff hr, wellFormed_instr hr, not_and_or, Classical.not_imp, hn,
    and_iff_right hopc]

theorem exists_decode_error_iff : (∃ e, decode w = .error e) ↔ ∀ r ∈ opcodeMap, ¬ r.selects w = true := by
  have herr : (∃ e, decode w = .error e) ↔ ¬ ∃ i, decode w = .ok i := by cases decode w <;> simp
  rw [herr, exists_decode_iff_selects]
  simp only [not_exists, not_and]

/-- A word is illegal where no row has its opcode, or the row that has refuses it (R72, R73). -/
theorem decode_error_iff_of_opc :
    (∃ e, decode w = .error e) ↔
      (∀ r ∈ opcodeMap, r.opc ≠ opcOf w) ∨ ∃ r ∈ opcodeMap, r.opc = opcOf w ∧ ¬ r.selects w = true := by
  rw [exists_decode_error_iff]
  constructor
  · intro h
    by_cases hopc : ∃ r ∈ opcodeMap, r.opc = opcOf w
    · obtain ⟨r, hr, hopc⟩ := hopc
      exact .inr ⟨r, hr, hopc, h r hr⟩
    · exact .inl fun r hr he => hopc ⟨r, hr, he⟩
  · rintro (hnone | ⟨r, hr, hopc, hs⟩) r' hr' hs'
    · exact hnone r' hr' (OpRow.opc_of_selects hr' hs')
    · have := opcodeMap_opc_injective r hr r' hr' (hopc.trans (OpRow.opc_of_selects hr' hs').symm)
      exact hs (this ▸ hs')

end Sys2Proof

namespace Sys2Proof.Machine

/-- The commit of an error changes no CSR but STATUS and ERRCODE (R138). -/
theorem State.commitErr_sameCsrs (s : State) (c : ErrCode) : SameCsrs [.status, .errcode] s (s.commitErr c) := by
  intro r hm
  cases r <;> first | rfl | exact absurd (by simp) hm

/-- Settles O6: the rows say which words are illegal; an acceptance looks at no word, and `engineStep_of_error` gives
the commit. -/
theorem illegalWordCommitsIllegalCmd : Obligations.IllegalWordCommitsIllegalCmd := by
  refine ⟨fun w o ho => ?_, fun s w hr hi => ?_, fun s e ht hb hr hd => ?_⟩
  · rw [decode_error_iff_of_opc, opc_unassigned_iff _ ho]
    refine or_congr_right (exists_congr fun r => and_congr_right fun hr => and_congr_right fun hopc => ?_)
    exact OpRow.not_selects_iff hr hopc
  · exact congrArg Prod.fst (State.access_write_csr_idle hr hi .cmd w)
  · have hstep : step s = .next (s.takeTurn.commitErr .illegalCmd) := by
      rw [step_eq, ht]
      exact engineStep_of_error (s := s.takeTurn) hb hr hd
    exact ⟨_, hstep, rfl, rfl, rfl, rfl, State.commitErr_sameCsrs s.takeTurn _, rfl, rfl, rfl, rfl, rfl, rfl, rfl⟩

end Sys2Proof.Machine
end

section
/-! PROOFS. The control command (40_control.md R77). -/

namespace Sys2Proof.Machine

theorem decode_eq_nop (w : Word) : decode w = .ok .nop ↔ w = 0x00000000#32 := by
  refine decode_eq_ok_iff (m := .nop) (fun m' w' h => ?_) (by decide) rfl w
  cases m'
  case nop => rfl
  all_goals cases h

/-- The commit of Ok itself changes no CSR but STATUS (R138). -/
theorem State.commitOk_sameCsrs (s : State) : SameCsrs [.status] s s.commitOk := by
  intro r hr
  cases r
  case status => simp at hr
  all_goals rfl

/-- Settles O25: NOP commits Ok with no updates, so only the protocol's own commit changes the state. -/
theorem nopOnlyCommits : Obligations.NopOnlyCommits := by
  intro s
  have hexec (u : State) : exec .nop u = .next u.commitOk := exec_nop u
  refine ⟨decode_eq_nop, ⟨_, hexec s, ?_, s.commitOk_sameCsrs, ?_, ?_⟩, ⟨_, hexec _, ?_⟩, ?_⟩
  · exact (LeavesControl.refl s).okCommit
  · exact fun _ _ _ => rfl
  · exact ⟨s.commitOk_trie, s.commitOk_draws⟩
  · exact ⟨State.commitOk_done _, s.accept_err 0#32, s.accept_errCode 0#32, State.commitOk_engine _⟩
  · exact ⟨rfl, rfl⟩

end Sys2Proof.Machine
end

section
/-! PROOFS. The Z function: its contract and its mechanism (41_matcher.md R78, R80, R81). -/

namespace Sys2Proof.Machine

/-! ### How far two sequences agree -/

section
variable {α : Type} [DecidableEq α]

/-- Two sequences agree on their first k positions exactly for the k up to `lcp`. -/
theorem le_lcp_iff {a b : List α} {k : Nat} : k ≤ lcp a b ↔ k ≤ b.length ∧ ∀ t, t < k → a[t]? = b[t]? := by
  cases k with
  | zero => simp
  | succ k =>
    match a, b with
    | [], [] | _ :: _, [] => simp [lcp]
    | [], _ :: _ => simpa [lcp] using fun _ => ⟨0, by simp⟩
    | x :: a, y :: b =>
      rw [Nat.forall_lt_succ_left']
      by_cases h : x = y
      · simp [lcp, h, le_lcp_iff (a := a) (b := b)]
      · simp [lcp, h]

/-- Past the first m positions, on which they agree, they agree as far as before. -/
theorem lcp_drop {a b : List α} {m : Nat} (h : m ≤ lcp a b) : m + lcp (a.drop m) (b.drop m) = lcp a b := by
  induction m generalizing a b with
  | zero => simp
  | succ m ih =>
    match a, b with
    | [], _ | _ :: _, [] => simp [lcp] at h
    | x :: a, y :: b =>
      by_cases hxy : x = y
      · have hrest := ih (a := a) (b := b) (by simpa [lcp, hxy] using h)
        rw [lcp, if_pos hxy, ← hrest, List.drop_succ_cons, List.drop_succ_cons, Nat.add_right_comm]
      · simp [lcp, hxy] at h

/-! ### The contract -/

variable {pat : List α} {i k : Nat}

/-- z[i] is the largest k for which the first k symbols agree with those from i on (R78). -/
theorem le_zAt_iff : k ≤ zAt pat i ↔ k ≤ pat.length - i ∧ ∀ t, t < k → pat[t]? = pat[i + t]? := by
  simp [zAt, le_lcp_iff]

theorem zAt_le (pat : List α) (i : Nat) : zAt pat i ≤ pat.length - i := (le_zAt_iff.1 le_rfl).1

theorem getElem?_of_lt_zAt {t : Nat} (h : t < zAt pat i) : pat[t]? = pat[i + t]? := (le_zAt_iff.1 le_rfl).2 t h

/-- The agreement ends with the sequence or at two symbols that differ (R81). -/
theorem zAt_stops (hi : i ≤ pat.length) : i + zAt pat i = pat.length ∨ pat[zAt pat i]? ≠ pat[i + zAt pat i]? := by
  by_contra! ⟨hend, hsame⟩
  have hle := zAt_le pat i
  have hmore : zAt pat i + 1 ≤ zAt pat i :=
    le_zAt_iff.2 ⟨by omega, Nat.forall_lt_succ_right.2 ⟨fun t => getElem?_of_lt_zAt, hsame⟩⟩
  omega

end

/-- Settles O44: `le_zAt_iff` is the contract, and `zAt_stops` the self-check. -/
theorem zValuesMeetTheContract : Obligations.ZValuesMeetTheContract := by
  intro pat i _ hi
  have hle := zAt_le pat i
  refine ⟨by omega, fun t => getElem?_of_lt_zAt, fun k hk hsame => le_zAt_iff.2 ⟨by omega, hsame⟩, ?_⟩
  simpa [zCheck] using zAt_stops hi.le

/-! ### The mechanism -/

section
variable {α : Type} [DecidableEq α] {pat : List α} {k m : Nat}

/-- Comparing on from a known agreement of m symbols finds z[k] (R80). -/
theorem zExtend_eq (h : m ≤ zAt pat k) : zExtend pat k m = zAt pat k := by
  rw [zExtend, ← List.drop_drop]
  exact lcp_drop h

/-- Inside the box at l, the sequence from k repeats its start from k − l: the agreements there that do not leave the
box are those of k. -/
theorem le_zAt_iff_in_box {l : Nat} (hl : l < k) (hbox : k + m ≤ l + zAt pat l) :
    m ≤ zAt pat k ↔ m ≤ zAt pat (k - l) := by
  have hend := zAt_le pat l
  have hcopy : ∀ t, t < m → pat[k - l + t]? = pat[k + t]? := fun t ht => by
    rw [getElem?_of_lt_zAt (i := l) (by omega)]; congr 1; omega
  rw [le_zAt_iff, le_zAt_iff]
  refine and_congr (by omega) (forall₂_congr fun t ht => ?_)
  rw [hcopy t ht]

/-- An agreement at k − l that runs past the box ends at k with the box, whose next symbol differs (R80). -/
theorem zAt_of_past_box {l : Nat} (hl : l < k) (hbox : k + m = l + zAt pat l) (hm : 1 ≤ m)
    (hpast : m < zAt pat (k - l)) : zAt pat k = m := by
  have hend := zAt_le pat l
  have hge : m ≤ zAt pat k := (le_zAt_iff_in_box hl hbox.le).2 hpast.le
  by_contra hne
  have hlt : m < zAt pat k := by omega
  have hk := zAt_le pat k
  have hsame : pat[zAt pat l]? = pat[l + zAt pat l]? := by
    rw [← hbox, ← getElem?_of_lt_zAt hlt, getElem?_of_lt_zAt hpast]; congr 1; omega
  rcases zAt_stops (pat := pat) (i := l) (by omega) with h | h
  · omega
  · exact h hsame

/-- What the Z-box algorithm holds before its round k: the values below k, and a box that is used up or is the
agreement found at its left end (R80). -/
structure ZBox.Before (pat : List α) (k : Nat) (b : ZBox) : Prop where
  zs  : b.zs = (List.range' 1 (k - 1)).map (zAt pat)
  box : k ≤ b.r → 1 ≤ b.l ∧ b.l < k ∧ b.r + 1 = b.l + zAt pat b.l

theorem ZBox.Before.zs_concat {b : ZBox} (h : b.Before pat k) (hk : 1 ≤ k) :
    b.zs ++ [zAt pat k] = (List.range' 1 (k + 1 - 1)).map (zAt pat) := by
  obtain ⟨n, rfl⟩ := Nat.exists_eq_add_of_le hk
  rw [h.zs, show 1 + n + 1 - 1 = n + 1 by omega, List.range'_1_concat]
  simp

/-- z[k − l] of the box at l has been found before round k. -/
theorem ZBox.Before.zs_getD {b : ZBox} (h : b.Before pat k) {l : Nat} (hl : 1 ≤ l) (hlk : l < k) :
    b.zs.getD (k - l - 1) 0 = zAt pat (k - l) := by
  rw [h.zs, List.getD_eq_getElem _ _ (by simp; omega), List.getElem_map, List.getElem_range'_1]
  congr 1; omega

/-- A round of the Z-box algorithm finds z[k] (R80). -/
theorem zBoxStep_before {b : ZBox} (h : b.Before pat k) (hk : 1 ≤ k) : (zBoxStep pat b k).Before pat (k + 1) := by
  have found : ZBox.Before pat (k + 1) ⟨k, k + zAt pat k - 1, b.zs ++ [zAt pat k]⟩ :=
    ⟨h.zs_concat hk, fun hr => ⟨hk, by dsimp; omega, by dsimp at *; omega⟩⟩
  have kept (z : Nat) (hz : zAt pat k = z) : ZBox.Before pat (k + 1) ⟨b.l, b.r, b.zs ++ [z]⟩ :=
    ⟨hz ▸ h.zs_concat hk, fun hr => by have := h.box (by dsimp at hr; omega); dsimp; omega⟩
  unfold zBoxStep
  by_cases hr : b.r < k
  · rw [if_pos hr, zExtend_eq (Nat.zero_le _)]
    dsimp only
    split
    · exact found
    · exact kept _ rfl
  · obtain ⟨hl, hlk, hbox⟩ := h.box (by omega)
    have inBox {m : Nat} (hm : m ≤ b.r - k + 1) : m ≤ zAt pat k ↔ m ≤ zAt pat (k - b.l) :=
      le_zAt_iff_in_box hlk (by omega)
    rw [if_neg hr, h.zs_getD hl hlk]
    dsimp only
    split
    · next hin =>
      have hge := (inBox hin.le).2 le_rfl
      have hle := (inBox (m := zAt pat (k - b.l) + 1) hin).1
      exact kept _ (by omega)
    split
    · next hpast => exact kept _ (zAt_of_past_box hlk (by omega) (by omega) hpast)
    · next hnot hnpast =>
      rw [zExtend_eq ((inBox le_rfl).2 (by omega))]
      exact found

theorem zBoxStep_foldl_before (pat : List α) (n : Nat) :
    ((List.range' 1 n).foldl (zBoxStep pat) ⟨0, 0, []⟩).Before pat (n + 1) := by
  induction n with
  | zero => exact ⟨rfl, fun h => by simp at h⟩
  | succ n ih =>
    rw [List.range'_1_concat, List.foldl_concat, Nat.add_comm 1 n]
    exact zBoxStep_before ih (by omega)

end

/-- Settles O43: each round finds the next value, so the values after the last round are those of the contract. -/
theorem zBoxMeetsTheContract : Obligations.ZBoxMeetsTheContract :=
  fun pat => (zBoxStep_foldl_before pat _).zs

end Sys2Proof.Machine
end

section
/-! PROOFS. The match search through the concatenation is the direct definition (41_matcher.md R84 to R91). -/

namespace Sys2Proof.Machine

/-! ### The concatenation -/

/-- No byte is the sentinel (R86). -/
theorem setWidth_ne_sentinel (b : Byte) : b.setWidth 9 ≠ sentinel := by
  intro h
  have hnat : b.toNat = 256 := by rw [← BitVec.toNat_setWidth_of_le (by decide : 8 ≤ 9), h]; rfl
  have := b.isLt
  omega

theorem map_setWidth_inj {a b : Option Byte} : a.map (BitVec.setWidth 9) = b.map (BitVec.setWidth 9) ↔ a = b := by
  refine (Option.map_injective fun a b h => ?_).eq_iff
  simpa using congrArg (BitVec.setWidth 8) h

section
variable {x : List Byte} {p wp lp : Nat} (hw : wp ≤ p) (hl : p + lp ≤ x.length)
include hw

/-- The window and the lookahead behind it are one stretch of the content (R84, R86). -/
theorem matchSeq_eq : matchSeq x p wp lp =
    ((x.drop p).take lp).map (BitVec.setWidth 9) ++
      sentinel :: ((x.drop (p - wp)).take (wp + lp)).map (BitVec.setWidth 9) := by
  rw [List.take_add, List.drop_drop, Nat.sub_add_cancel hw]
  simp [matchSeq]

include hl

theorem matchSeq_length : (matchSeq x p wp lp).length = lp + 1 + wp + lp := by
  simp [matchSeq_eq hw]; omega

theorem matchSeq_ahead {t : Nat} (ht : t < lp) : (matchSeq x p wp lp)[t]? = x[p + t]?.map (BitVec.setWidth 9) := by
  rw [matchSeq_eq hw, List.getElem?_append_left (by simp; omega)]
  simp [ht]

theorem matchSeq_sentinel : (matchSeq x p wp lp)[lp]? = some sentinel := by
  rw [matchSeq_eq hw, List.getElem?_append_right (by simp)]
  simp [Nat.le_sub_of_add_le' hl]

theorem matchSeq_behind (i : Nat) : (matchSeq x p wp lp)[lp + 1 + i]? =
    ((x.drop (p - wp)).take (wp + lp))[i]?.map (BitVec.setWidth 9) := by
  rw [matchSeq_eq hw, List.getElem?_append_right (by simp; omega)]
  simp [Nat.le_sub_of_add_le' hl, Nat.add_assoc, Nat.add_comm 1 i, -List.map_take, -List.map_drop]

/-- The agreements in the concatenation at candidate j are those of R91 at the offset wp − j: the sentinel ends each
with the lookahead. -/
theorem le_zAt_matchSeq_iff {j k : Nat} (hj : j < wp) : k ≤ zAt (matchSeq x p wp lp) (lp + 1 + j) ↔
    k ≤ lp ∧ ∀ t, t < k → x[p - (wp - j) + t]? = x[p + t]? := by
  have hsym {t : Nat} (ht : t < lp) :
      (matchSeq x p wp lp)[t]? = (matchSeq x p wp lp)[lp + 1 + j + t]? ↔ x[p - (wp - j) + t]? = x[p + t]? := by
    have hpos : p - (wp - j) + t = p - wp + (j + t) := by omega
    rw [matchSeq_ahead hw hl ht, Nat.add_assoc, matchSeq_behind hw hl, map_setWidth_inj,
      List.getElem?_take_of_lt (by omega), List.getElem?_drop, hpos, eq_comm]
  have hsent : (matchSeq x p wp lp)[lp]? ≠ (matchSeq x p wp lp)[lp + 1 + j + lp]? := by
    rw [matchSeq_sentinel hw hl, Nat.add_assoc _ j, matchSeq_behind hw hl, Ne, eq_comm, Option.map_eq_some_iff]
    exact fun ⟨b, _, hb⟩ => setWidth_ne_sentinel b hb
  rw [le_zAt_iff, matchSeq_length hw hl]
  constructor
  · rintro ⟨_, hsame⟩
    have hk : k ≤ lp := Nat.le_of_not_lt fun h => hsent (hsame lp h)
    exact ⟨hk, fun t ht => (hsym (by omega)).1 (hsame t ht)⟩
  · rintro ⟨hk, hsame⟩
    exact ⟨by omega, fun t ht => (hsym (by omega)).2 (hsame t ht)⟩

end

/-! ### The first maximum -/

/-- The scan returns the largest length and, where it is not 0, the first candidate that has it (R88, R90). -/
theorem firstMax_spec (len : Nat → Nat) (n : Nat) :
    (∀ j, j < n → len j ≤ (firstMax len n).1) ∧
    (0 < (firstMax len n).1 → (firstMax len n).2 < n ∧ len (firstMax len n).2 = (firstMax len n).1 ∧
      ∀ j, j < (firstMax len n).2 → len j < (firstMax len n).1) := by
  induction n with
  | zero => simp [firstMax]
  | succ n ih =>
    obtain ⟨hmax, hfirst⟩ := ih
    have hsucc : firstMax len (n + 1) = if (firstMax len n).1 < len n then (len n, n) else firstMax len n := by
      rw [firstMax, List.range_succ, List.foldl_concat]; rfl
    rw [hsucc, Nat.forall_lt_succ_right]
    split
    · next hlt => exact ⟨⟨fun j hj => (hmax j hj).trans hlt.le, le_rfl⟩,
        fun _ => ⟨Nat.lt_succ_self n, rfl, fun j hj => (hmax j hj).trans_lt hlt⟩⟩
    · next hle =>
      refine ⟨⟨hmax, by omega⟩, fun hpos => ?_⟩
      obtain ⟨hn, hlen, hbefore⟩ := hfirst hpos
      exact ⟨by omega, hlen, hbefore⟩

/-! ### The match -/

/-- The z value of candidate j, the window start being candidate 0 (R87). -/
def candidateZ (x : List Byte) (p w l j : Nat) : Nat :=
  zAt (matchSeq x p (min p w) (min (x.length - p) l)) (min (x.length - p) l + 1 + j)

/-- The scan of MATCH at p: the longest agreement of a candidate, and the first candidate that has it (R90). -/
def scanMatch (x : List Byte) (p w l : Nat) : Nat × Nat := firstMax (candidateZ x p w l) (min p w)

/-- MATCH is what the scan finds; an empty window has no candidate, and its scan finds 0 (R90). -/
theorem findMatch_eq (x : List Byte) (p w l : Nat) : findMatch x p w l =
    if (scanMatch x p w l).1 = 0 then (0, 0, x.getD p 0)
    else (min p w - (scanMatch x p w l).2, shrink x.length p (scanMatch x p w l).1,
      x.getD (p + shrink x.length p (scanMatch x p w l).1) 0) := by
  by_cases hw : min p w = 0
  · simp [findMatch, scanMatch, firstMax, hw]
  · exact if_neg hw

section
variable {x : List Byte} {p w l : Nat} (hp : p < x.length)
include hp

/-- Candidate wp − o is the offset o: its z value is the longest agreement there (R87). -/
theorem agrees_iff_le_candidateZ {o k : Nat} (ho : 1 ≤ o) (how : o ≤ min p w) :
    Agrees x p l o k ↔ k ≤ candidateZ x p w l (min p w - o) := by
  rw [candidateZ, le_zAt_matchSeq_iff (by omega) (by omega) (by omega), Nat.sub_sub_self how, Agrees]

theorem le_scanMatch {o k : Nat} (ho : 1 ≤ o) (how : o ≤ min p w) (h : Agrees x p l o k) :
    k ≤ (scanMatch x p w l).1 :=
  ((agrees_iff_le_candidateZ hp ho how).1 h).trans ((firstMax_spec _ _).1 _ (by omega))

/-- The first candidate that has the longest agreement is the largest offset that has it (R88). -/
theorem scanMatch_found (hpos : 0 < (scanMatch x p w l).1) :
    (scanMatch x p w l).2 < min p w ∧
    Agrees x p l (min p w - (scanMatch x p w l).2) (scanMatch x p w l).1 ∧
    ∀ o, 1 ≤ o → o ≤ min p w → Agrees x p l o (scanMatch x p w l).1 → o ≤ min p w - (scanMatch x p w l).2 := by
  obtain ⟨hj, hbest, hbefore⟩ := (firstMax_spec (candidateZ x p w l) (min p w)).2 hpos
  rw [← scanMatch] at hj hbest hbefore
  refine ⟨hj, ?_, fun o ho how h => ?_⟩
  · rw [agrees_iff_le_candidateZ hp (by omega) (Nat.sub_le _ _), Nat.sub_sub_self hj.le]
    exact hbest.ge
  · have hreach := (agrees_iff_le_candidateZ hp ho how).1 h
    have hnot : ¬ min p w - o < (scanMatch x p w l).2 := fun hlt => (hbefore _ hlt).not_ge hreach
    omega

end

/-- The shrink leaves a symbol after the match (R89). -/
theorem add_shrink_lt {n p len : Nat} (hpos : 0 < len) (hfit : p + len ≤ n) : p + shrink n p len < n := by
  unfold shrink; split <;> omega

/-- Settles O45: the scan finds the longest agreement at the largest offset of the window that has it. -/
theorem matchMeetsTheDirectDefinition : Obligations.MatchMeetsTheDirectDefinition := by
  intro x p w l hp hl
  have hnext {i : Nat} (hi : i < x.length) : x[i]? = some (x.getD i 0) := by simp [hi]
  rw [findMatch_eq]
  split
  · next hzero =>
    exact .none _ (hnext hp) fun o k ho how h => Nat.le_zero.1 (hzero ▸ le_scanMatch hp ho how h)
  · next hne =>
    have hpos := Nat.pos_of_ne_zero hne
    obtain ⟨hj, hagrees, hlargest⟩ := scanMatch_found hp hpos
    have hfit : p + (scanMatch x p w l).1 ≤ x.length := by have := hagrees.1; omega
    exact .found _ _ _ _ hpos (Nat.sub_pos_of_lt hj) (Nat.sub_le _ _) hagrees
      (fun o k ho how h => le_scanMatch hp ho how h) hlargest rfl (hnext (add_shrink_lt hpos hfit))

end Sys2Proof.Machine
end

section
/-! PROOFS. The commands ZARRAY, LZ_MATCH and LZ_STEP (41_matcher.md R82, R83, R92; 42_lz77.md R98). -/

namespace Sys2Proof.Machine

theorem decode_eq_zarray (w : Word) : decode w = .ok .zarray ↔ w = 0x10000000#32 :=
  decode_eq_ok_iff (m := .zarray) (fun m _ h => by cases m <;> first | rfl | cases h) (by decide) rfl w

theorem decode_eq_lzMatch (w : Word) : decode w = .ok .lzMatch ↔ w = 0x11000000#32 :=
  decode_eq_ok_iff (m := .lzMatch) (fun m _ h => by cases m <;> first | rfl | cases h) (by decide) rfl w

theorem decode_eq_lzStep (w : Word) : decode w = .ok .lzStep ↔ w = 0x20000000#32 :=
  decode_eq_ok_iff (m := .lzStep) (fun m _ h => by cases m <;> first | rfl | cases h) (by decide) rfl w

/-! ### ZARRAY -/

/-- ZIN[0 .. ZLEN), the sequence of ZARRAY (R82). -/
def State.zinList (s : State) : List (BitVec 16) := s.mems.zin.slice 0 s.regs.zlen.toNat

@[simp] theorem State.zinList_length (s : State) : s.zinList.length = s.regs.zlen.toNat := Mem.slice_length _ _ _

theorem State.zinList_getElem? (s : State) {k : Nat} (hk : k < s.regs.zlen.toNat) :
    s.zinList[k]? = some (s.mems.zin.read k) := by
  simp [State.zinList, Mem.slice, hk]

/-- The z values of ZIN, as ZOUT holds them from entry 1 on (R82). -/
def State.zoutList (s : State) : List Word :=
  (List.range (s.regs.zlen.toNat - 1)).map fun i => BitVec.ofNat 32 (zAt s.zinList (i + 1))

@[simp] theorem State.zoutList_length (s : State) : s.zoutList.length = s.regs.zlen.toNat - 1 := by
  simp [State.zoutList]

/-- The updates of ZARRAY's Ok (R82). -/
def State.putZ (s : State) : State :=
  if s.regs.zlen.toNat = 0 then s
  else { s with
    mems := { s.mems with zout := (s.mems.zout.write 0 (Config.draw 32 s.draws 0)).writeList 1 s.zoutList }
    draws := s.draws + 1 }

theorem zarray_eq (s : State) :
    zarray s = (do require (s.regs.zlen.toNat ≤ s.cfg.zcap) .param; .ok s.putZ) := by
  unfold zarray State.putZ
  dsimp only
  split <;> rfl

theorem State.putZ_trie (s : State) : s.putZ.trie = s.trie := by unfold State.putZ; split <;> rfl

theorem State.putZ_csr (s : State) (r : Csr) : s.putZ.csr r = s.csr r := by unfold State.putZ; split <;> rfl

/-- Entry i ≥ 1 holds z[i], which fits its word (R7, R82). -/
theorem State.putZ_zout {s : State} (hm : s.mems.zout.wf) {i : Nat} (hi : 1 ≤ i) (hn : i < s.regs.zlen.toNat) :
    (s.putZ.mems.zout.read i).toNat = zAt s.zinList i := by
  obtain ⟨k, rfl⟩ := Nat.exists_eq_add_of_le hi
  have hk : k < s.zoutList.length := by rw [s.zoutList_length]; omega
  have hfits : zAt s.zinList (1 + k) < 2 ^ 32 := by
    have hle := zAt_le s.zinList (1 + k)
    have hword := s.regs.zlen.isLt
    rw [s.zinList_length] at hle
    omega
  rw [State.putZ, if_neg (by omega)]
  dsimp only
  rw [Mem.read_writeList_inside (Mem.write_wf hm _ _) hk]
  simpa only [State.zoutList, List.getElem_map, List.getElem_range, Nat.add_comm k 1] using toNat_ofNat32 hfits

theorem State.putZ_sameEntries (s : State) : SameEntries (entries .zout 0 s.regs.zlen.toNat) s s.putZ := by
  intro m k hk
  unfold State.putZ
  split
  · rfl
  cases m
  case zout =>
    have hout : s.regs.zlen.toNat ≤ k := by simpa [entries] using hk
    show Mem.read _ k = Mem.read _ k
    rw [Mem.read_writeList_outside _ (.inr (by rw [s.zoutList_length]; omega)), Mem.read_write_ne (by omega)]
  all_goals rfl

/-- Settles O26: ZOUT holds the z values of ZIN, whose contract, read symbol by symbol, is the claim. -/
theorem zarrayWritesPrefixLengths : Obligations.ZarrayWritesPrefixLengths := by
  intro s
  refine ⟨decode_eq_zarray, fun hcap => ?_, fun hcap _ hm => ?_⟩
  · rw [exec_zarray, zarray_eq, require_neg (by omega), bind_error, State.commit_error]
  have hok : zarray s = .ok s.putZ := by rw [zarray_eq, require_pos hcap, bind_ok]
  refine ⟨s.putZ.commitOk, by rw [exec_zarray, hok, State.commit_ok], (zarray_leaves hok).okCommit,
    fun r hr => (s.putZ.commitOk_sameCsrs r hr).trans (s.putZ_csr r), ?_, s.putZ_sameEntries.commitOk, s.putZ_trie,
    fun hn => by rw [State.commitOk_draws, State.putZ, if_pos hn]⟩
  rintro i z hi hn rfl
  rw [State.commitOk_mems, State.putZ_zout hm hi hn]
  have hle := zAt_le s.zinList i
  have hstop := zAt_stops (pat := s.zinList) (i := i)
  rw [s.zinList_length] at hle hstop
  refine ⟨by omega, fun k hk => ?_, or_iff_not_imp_left.2 fun hne => ?_⟩
  · have hsame := getElem?_of_lt_zAt hk
    rwa [s.zinList_getElem? (by omega), s.zinList_getElem? (by omega), Option.some_inj] at hsame
  · have hdiff := (hstop hn.le).resolve_left hne
    rwa [s.zinList_getElem? (by omega), s.zinList_getElem? (by omega), Ne, Option.some_inj] at hdiff

/-! ### The checks of LZ_MATCH and LZ_STEP -/

/-- What LZ_MATCH and LZ_STEP require of the registers (R83, R92, R98). -/
structure State.MatchReady (s : State) : Prop where
  lookahead : s.regs.lookaheadSize.toNat ≠ 0 ∧ s.regs.lookaheadSize.toNat ≤ s.cfg.lmax
  window    : s.regs.windowSize.toNat ≤ s.cfg.wmax
  content   : s.regs.clen.toNat ≤ s.cfg.contentCap
  inside    : s.regs.pos.toNat < s.regs.clen.toNat

theorem State.matchChecks_pos {s : State} (h : s.MatchReady) {α : Type} (next : Except ErrCode α) :
    (do s.lzCheck; require (s.regs.pos.toNat < s.regs.clen.toNat) .param; next) = next := by
  rw [State.lzCheck_eq_ok (u := ()).2 ⟨h.lookahead, h.window, h.content⟩, bind_ok, require_pos h.inside, bind_ok]

/-- Each of the checks raises PARAM (R83, R92). -/
theorem State.matchChecks_neg {s : State} (h : ¬ s.MatchReady) {α : Type} (next : Except ErrCode α) :
    (do s.lzCheck; require (s.regs.pos.toNat < s.regs.clen.toNat) .param; next) = .error .param := by
  cases hlz : s.lzCheck with
  | error c => rw [State.lzCheck_eq_error hlz, bind_error]
  | ok u =>
    obtain ⟨hl, hw, hc⟩ := State.lzCheck_eq_ok.1 hlz
    rw [bind_ok, require_neg fun hp => h ⟨hl, hw, hc, hp⟩, bind_error]

/-- A command is ready where no PARAM cause of R83 and R92 holds. -/
theorem State.matchReady_iff {s : State} : s.MatchReady ↔
    ¬ (s.regs.lookaheadSize.toNat = 0 ∨ s.cfg.lmax < s.regs.lookaheadSize.toNat ∨
      s.cfg.wmax < s.regs.windowSize.toNat ∨ s.cfg.contentCap < s.regs.clen.toNat ∨
      s.regs.clen.toNat ≤ s.regs.pos.toNat) :=
  ⟨fun ⟨⟨_, _⟩, _, _, _⟩ => by omega, fun h => ⟨by omega, by omega, by omega, by omega⟩⟩

/-! ### The match at POS -/

/-- A match starts in the content before p and leaves a symbol after it. -/
theorem IsMatch.bounds {x : List Byte} {p w l o len : Nat} {c : Byte} (h : IsMatch x p w l o len c) :
    o ≤ p ∧ p + len < x.length := by
  cases h with
  | none _ next _ => exact ⟨Nat.zero_le p, (List.getElem?_eq_some_iff.1 next).1⟩
  | found _ _ _ _ _ _ upper _ _ _ _ next => exact ⟨by omega, (List.getElem?_eq_some_iff.1 next).1⟩

section
variable {s : State} (h : s.MatchReady)
include h

theorem State.MatchReady.isMatch :
    IsMatch s.contentList s.regs.pos.toNat s.regs.windowSize.toNat s.regs.lookaheadSize.toNat
      s.matchAtPos.1 s.matchAtPos.2.1 s.matchAtPos.2.2 := by
  refine matchMeetsTheDirectDefinition _ _ _ _ ?_ (Nat.pos_of_ne_zero h.lookahead.1)
  rw [State.contentList, Mem.slice_length]
  exact h.inside

theorem State.MatchReady.bounds :
    s.matchAtPos.1 < 2 ^ 32 ∧ s.regs.pos.toNat + s.matchAtPos.2.1 < s.regs.clen.toNat := by
  obtain ⟨ho, hlen⟩ := h.isMatch.bounds
  rw [State.contentList, Mem.slice_length] at hlen
  exact ⟨ho.trans_lt s.regs.pos.isLt, hlen⟩

theorem State.MatchReady.triLength : (BitVec.ofNat 32 s.matchAtPos.2.1).toNat = s.matchAtPos.2.1 := by
  obtain ⟨_, hlen⟩ := h.bounds
  have hword := s.regs.clen.isLt
  exact toNat_ofNat32 (by omega)

/-- The TRI registers hold the match at POS. -/
theorem State.MatchReady.isMatch_setTriple :
    IsMatch s.contentList s.regs.pos.toNat s.regs.windowSize.toNat s.regs.lookaheadSize.toNat
      (s.setTriple s.matchAtPos).regs.triOffset.toNat (s.setTriple s.matchAtPos).regs.triLength.toNat
      (s.setTriple s.matchAtPos).regs.triSymbol := by
  rw [State.setTriple_triOffset, State.setTriple_triLength, h.triLength, toNat_ofNat32 h.bounds.1]
  exact h.isMatch

end

/-! ### LZ_MATCH -/

theorem lzMatch_of_ready {s : State} (h : s.MatchReady) : lzMatch s = .ok (s.setTriple s.matchAtPos) :=
  State.matchChecks_pos h _

/-- Settles O27: the match at POS is that of R91, and fits the TRI registers. -/
theorem lzMatchFindsTheMatch : Obligations.LzMatchFindsTheMatch := by
  intro s
  refine ⟨decode_eq_lzMatch, fun hcause => ?_, fun hl1 hl hw hc hp => ?_⟩
  · have hparam : lzMatch s = .error .param := State.matchChecks_neg (fun h => State.matchReady_iff.1 h hcause) _
    rw [exec_lzMatch, hparam, State.commit_error]
  · have hready : s.MatchReady := ⟨⟨Nat.ne_of_gt hl1, hl⟩, hw, hc, hp⟩
    have hok := lzMatch_of_ready hready
    refine ⟨_, by rw [exec_lzMatch, hok, State.commit_ok], (lzMatch_leaves hok).okCommit, hready.isMatch_setTriple,
      fun r hr => ?_, fun _ _ _ => rfl, rfl, rfl⟩
    cases r
    case status | triOffset | triLength | triSymbol => simp at hr
    all_goals rfl

/-! ### LZ_STEP -/

/-- LZ_STEP's updates: the triple, and POS past the match and the symbol after it (R98). -/
def State.putStep (s : State) : State :=
  { s.setTriple s.matchAtPos with
    regs := { (s.setTriple s.matchAtPos).regs with
      pos := BitVec.ofNat 32 (s.regs.pos.toNat + s.matchAtPos.2.1 + 1) } }

theorem lzStep_of_ready {s : State} (h : s.MatchReady) : lzStep s = .ok s.putStep := State.matchChecks_pos h _

theorem State.MatchReady.putStep_pos {s : State} (h : s.MatchReady) :
    s.putStep.regs.pos.toNat = s.regs.pos.toNat + s.putStep.regs.triLength.toNat + 1 ∧
      s.putStep.regs.pos.toNat ≤ s.regs.clen.toNat := by
  obtain ⟨_, hlen⟩ := h.bounds
  have hword := s.regs.clen.isLt
  have hpos : s.putStep.regs.pos.toNat = s.regs.pos.toNat + s.matchAtPos.2.1 + 1 := toNat_ofNat32 (by omega)
  have hlength : s.putStep.regs.triLength.toNat = s.matchAtPos.2.1 := h.triLength
  omega

/-- Settles O28: as LZ_MATCH, and the match leaves a symbol, so POS past both is at most CLEN. -/
theorem lzStepMatchesAndAdvances : Obligations.LzStepMatchesAndAdvances := by
  intro s
  refine ⟨decode_eq_lzStep, fun hcause => ?_, fun hl1 hl hw hc hp => ?_⟩
  · have hparam : lzStep s = .error .param := State.matchChecks_neg (fun h => State.matchReady_iff.1 h hcause) _
    rw [exec_lzStep, hparam, State.commit_error]
  · have hready : s.MatchReady := ⟨⟨Nat.ne_of_gt hl1, hl⟩, hw, hc, hp⟩
    have hok := lzStep_of_ready hready
    obtain ⟨hpos, hend⟩ := hready.putStep_pos
    refine ⟨_, by rw [exec_lzStep, hok, State.commit_ok], (lzStep_leaves hok).okCommit, hready.isMatch_setTriple,
      hpos, hend, fun r hr => ?_, fun _ _ _ => rfl, rfl, rfl⟩
    cases r
    case status | triOffset | triLength | triSymbol | pos => simp at hr
    all_goals rfl

end Sys2Proof.Machine
end

section
/-! PROOFS. ERRCODE holds NONE or a code of R136 other than ASSERT (41_matcher.md R81; 60_exceptions.md R136). -/

namespace Sys2Proof.Machine

/-! ### Answers that do not raise ASSERT -/

/-- The answer is a value, or an error other than ASSERT (R81). -/
def NoAssert {α : Type} (r : Except ErrCode α) : Prop := ∀ c, r = .error c → c ≠ .assert

section
variable {α β : Type}

theorem NoAssert.ok (a : α) : NoAssert (.ok a) := nofun

theorem NoAssert.error {c : ErrCode} (h : c ≠ .assert) : NoAssert (.error c : Except ErrCode α) := by
  rintro _ ⟨⟩; exact h

theorem NoAssert.bind {x : Except ErrCode α} {f : α → Except ErrCode β} (hx : NoAssert x) (hf : ∀ a, NoAssert (f a)) :
    NoAssert (x >>= f) := fun c h => (bind_eq_error.1 h).elim (hx c) fun ⟨a, _, ha⟩ => hf a c ha

theorem NoAssert.lastCheck {p : Prop} [Decidable p] {c : ErrCode} (h : c ≠ .assert := by decide) :
    NoAssert (require p c) :=
  fun _ he => (require_eq_error.1 he).2 ▸ h

theorem NoAssert.check {p : Prop} [Decidable p] {c : ErrCode} {next : Except ErrCode α} (hn : NoAssert next)
    (h : c ≠ .assert := by decide) : NoAssert (do require p c; next) := (NoAssert.lastCheck h).bind fun _ => hn

end

/-! ### The readers -/

theorem EoFails.ne_assert {off ell : Nat} {bs : Bits} {c : ErrCode} (h : EoFails off ell bs c) : c ≠ .assert := by
  induction h with
  | cut | long | big => nofun
  | next _ _ _ _ _ _ _ ih => exact ih

theorem HufFails.ne_assert {p : CodeMap} {bs : Bits} {c : ErrCode} (h : HufFails p bs c) : c ≠ .assert := by
  cases h <;> nofun

theorem TripleFails.ne_assert {p : CodeMap} {bs : Bits} {c : ErrCode} (h : TripleFails p bs c) : c ≠ .assert := by
  cases h with
  | offset _ _ fails | length _ _ _ _ fails => exact fails.ne_assert
  | symbol _ _ _ _ _ _ fails => exact fails.ne_assert

theorem TriplesFail.ne_assert {p : CodeMap} {n : Nat} {out : List Byte} {bs : Bits} {c : ErrCode}
    (h : TriplesFail p n out bs c) : c ≠ .assert := by
  induction h with
  | read _ _ _ _ fails => exact fails.ne_assert
  | replay => nofun
  | next _ _ _ _ _ _ _ _ _ _ _ _ _ ih => exact ih

theorem EntriesFail.ne_assert {n least : Nat} {bs : Bits} {c : ErrCode} (h : EntriesFail n least bs c) :
    c ≠ .assert := by
  induction h with
  | symbol | badLength | order | code => nofun
  | length _ _ _ _ _ fails => exact fails.ne_assert
  | next _ _ _ _ _ _ _ _ _ ih => exact ih

theorem TableFails.ne_assert {n : Nat} {bs : Bits} {c : ErrCode} (h : TableFails n bs c) : c ≠ .assert := by
  cases h with
  | badSize | notOk => nofun
  | size _ _ fails => exact fails.ne_assert
  | entries _ _ _ _ _ fails => exact fails.ne_assert
  | triples _ _ _ _ _ fails => exact fails.ne_assert

theorem FrameFails.ne_assert {cfg : Config} {bs : Bits} {c : ErrCode} (h : FrameFails cfg bs c) : c ≠ .assert := by
  cases h with
  | nameTooLong | name | contentEmpty | contentTooLong => nofun
  | nameLength _ _ fails | contentLength _ _ _ _ _ fails => exact fails.ne_assert
  | table _ _ _ _ _ _ _ _ _ fails => exact fails.ne_assert

theorem take_noAssert (n : Nat) (bs : Bits) : NoAssert (take n bs) := fun _ h => (take_eq_error.1 h).2 ▸ nofun

theorem eoRead_noAssert (off : Nat) (bs : Bits) : NoAssert (eoRead off bs) := fun _ h => (eoRead_eq_error.1 h).ne_assert

/-- Any trie, also one that no table builds. -/
theorem Trie.read_noAssert (t : Trie) (bs : Bits) : NoAssert (t.read bs) := by
  induction t generalizing bs with
  | absent => exact .error nofun
  | leaf sym => exact .ok _
  | node c0 c1 ih0 ih1 =>
    match bs with
    | [] => exact .error nofun
    | false :: rest => exact ih0 rest
    | true :: rest => exact ih1 rest

theorem tripleRead_noAssert (t : Trie) (bs : Bits) : NoAssert (tripleRead t bs) :=
  (eoRead_noAssert 1 bs).bind fun _ => (eoRead_noAssert 1 _).bind fun _ => (Trie.read_noAssert t _).bind fun _ => .ok _

/-! ### The commands -/

section
variable (s : State)

theorem State.readStream_noAssert {α : Type} {r : Reader α} (h : ∀ bs, NoAssert (r bs)) : NoAssert (s.readStream r) :=
  (h _).bind fun _ => .ok _

theorem State.checkBvLen_noAssert : NoAssert s.checkBvLen := .lastCheck

theorem State.lzCheck_noAssert : NoAssert s.lzCheck := fun _ h => State.lzCheck_eq_error h ▸ nofun

theorem State.checkCode_noAssert (sym : Nat) : NoAssert (s.checkCode sym) :=
  .check .lastCheck

theorem State.needTrie_noAssert : NoAssert s.needTrie := fun _ h => (State.needTrie_eq_error.1 h).2 ▸ nofun

theorem State.appendChecked_noAssert (bs : Bits) : NoAssert (s.appendChecked bs) :=
  .check (.ok _)

theorem zarray_noAssert : NoAssert (zarray s) := zarray_eq s ▸ .check (.ok _)

theorem lzMatch_noAssert : NoAssert (lzMatch s) :=
  s.lzCheck_noAssert.bind fun _ => .check (.ok _)

theorem lzStep_noAssert : NoAssert (lzStep s) :=
  s.lzCheck_noAssert.bind fun _ => .check (.ok _)

theorem lzRecon_noAssert : NoAssert (lzRecon s) :=
  .check (.bind (.check (.check .lastCheck)) fun _ => .ok _)

theorem triPut_noAssert : NoAssert (triPut s) :=
  s.checkBvLen_noAssert.bind fun _ => (s.checkCode_noAssert _).bind fun _ => s.appendChecked_noAssert _

theorem triGet_noAssert : NoAssert (triGet s) :=
  s.checkBvLen_noAssert.bind fun _ => s.needTrie_noAssert.bind fun t =>
    (s.readStream_noAssert (tripleRead_noAssert t)).bind fun _ => .ok _

theorem hufBuild_noAssert : NoAssert (hufBuild s) :=
  .check (.check (.ok _))

theorem hufEnc_noAssert (sym : Byte) : NoAssert (hufEnc sym s) :=
  s.checkBvLen_noAssert.bind fun _ => (s.checkCode_noAssert _).bind fun _ => s.appendChecked_noAssert _

theorem hufTrie_noAssert : NoAssert (hufTrie s) := .check (.ok _)

theorem hufDec_noAssert : NoAssert (hufDec s) :=
  s.checkBvLen_noAssert.bind fun _ => s.needTrie_noAssert.bind fun t =>
    (s.readStream_noAssert (Trie.read_noAssert t)).bind fun _ => .ok _

theorem eoEnc_noAssert (g : Nat) : NoAssert (eoEnc g s) :=
  s.checkBvLen_noAssert.bind fun _ => .check (s.appendChecked_noAssert _)

theorem eoDec_noAssert (g : Nat) : NoAssert (eoDec g s) :=
  s.checkBvLen_noAssert.bind fun _ => (s.readStream_noAssert (eoRead_noAssert g)).bind fun _ => .ok _

theorem bvPut_noAssert (n : Nat) : NoAssert (bvPut n s) :=
  s.checkBvLen_noAssert.bind fun _ => .check (s.appendChecked_noAssert _)

theorem bvGet_noAssert (n : Nat) : NoAssert (bvGet n s) :=
  s.checkBvLen_noAssert.bind fun _ => (s.readStream_noAssert (take_noAssert n)).bind fun _ => .ok _

theorem State.frameCCheck_noAssert : NoAssert s.frameCCheck :=
  s.lzCheck_noAssert.bind fun _ => .check .lastCheck

theorem State.frameRead_noAssert : NoAssert s.frameRead :=
  fun _ h => (frameParse_eq_error.1 (State.frameRead_eq_error.1 h)).ne_assert

end

/-! ### ERRCODE after a commit -/

/-- `t` has the ERRCODE of `s`, or a code of R136 other than ASSERT. -/
def State.ReportsTo (s t : State) : Prop :=
  t.regs.errCode = s.regs.errCode ∨ ∃ c : ErrCode, c ≠ .assert ∧ t.regs.errCode = c.code

theorem State.ReportsTo.errCodeOk {s t : State} (h : s.ReportsTo t) (hs : s.ErrCodeOk) : t.ErrCodeOk :=
  h.elim (fun e => by rwa [State.ErrCodeOk, e]) .inr

section
variable {s : State}

theorem LeavesControl.reportsTo {t : State} (h : LeavesControl s t) : s.ReportsTo t.commitOk := .inl h.errCode

theorem State.reportsTo_commitErr (t : State) {c : ErrCode} (h : c ≠ .assert) : s.ReportsTo (t.commitErr c) :=
  .inr ⟨c, h, rfl⟩

theorem State.commit_reportsTo {r : Except ErrCode State} (hr : NoAssert r) (ho : ∀ u, r = .ok u → LeavesControl s u) :
    s.ReportsTo (s.commit r) := by
  rcases s.commit_cases r with ⟨u, hu, e⟩ | ⟨c, hc, e⟩ <;> rw [e]
  · exact (ho u hu).reportsTo
  · exact State.reportsTo_commitErr _ (hr c hc)

theorem exec_reportsTo {i : Instr} {t : State} (h : exec i s = .next t) : s.ReportsTo t := by
  cases i
  case frameC =>
    rcases execFrameC_cases s with ⟨c, hc, e⟩ | ⟨_, _, e⟩ | ⟨_, _, e⟩ <;> cases e.symm.trans h
    · exact State.reportsTo_commitErr _ (s.frameCCheck_noAssert c hc)
    · exact s.frameCOk_leaves.reportsTo
    · exact State.reportsTo_commitErr _ nofun
  case frameD =>
    rcases execFrameD_cases s with ⟨c, hc, e⟩ | ⟨f, k, _, _, e⟩ | ⟨c, _, hc, e⟩ <;> cases e.symm.trans h
    · exact State.reportsTo_commitErr _ (s.checkBvLen_noAssert c hc)
    · exact (s.frameDOk_leaves f k).reportsTo
    · exact State.reportsTo_commitErr _ (s.frameRead_noAssert c hc)
  case nop => cases h; exact .inl rfl
  case bvClear => cases h; exact .inl rfl
  case zarray => cases h; exact State.commit_reportsTo (zarray_noAssert s) fun _ => zarray_leaves
  case lzMatch => cases h; exact State.commit_reportsTo (lzMatch_noAssert s) fun _ => lzMatch_leaves
  case lzStep => cases h; exact State.commit_reportsTo (lzStep_noAssert s) fun _ => lzStep_leaves
  case lzRecon => cases h; exact State.commit_reportsTo (lzRecon_noAssert s) fun _ => lzRecon_leaves
  case triPut => cases h; exact State.commit_reportsTo (triPut_noAssert s) fun _ => triPut_leaves
  case triGet => cases h; exact State.commit_reportsTo (triGet_noAssert s) fun _ => triGet_leaves
  case hufBuild => cases h; exact State.commit_reportsTo (hufBuild_noAssert s) fun _ => hufBuild_leaves
  case hufEnc => cases h; exact State.commit_reportsTo (hufEnc_noAssert s _) fun _ => hufEnc_leaves
  case hufTrie => cases h; exact State.commit_reportsTo (hufTrie_noAssert s) fun _ => hufTrie_leaves
  case hufDec => cases h; exact State.commit_reportsTo (hufDec_noAssert s) fun _ => hufDec_leaves
  case eoEnc => cases h; exact State.commit_reportsTo (eoEnc_noAssert s _) fun _ => eoEnc_leaves
  case eoDec => cases h; exact State.commit_reportsTo (eoDec_noAssert s _) fun _ => eoDec_leaves
  case bvPut => cases h; exact State.commit_reportsTo (bvPut_noAssert s _) fun _ => bvPut_leaves
  case bvGet => cases h; exact State.commit_reportsTo (bvGet_noAssert s _) fun _ => bvGet_leaves

end

/-- Settles O10: no check and no reader raises ASSERT. -/
theorem assertIsNeverRaised : Obligations.AssertIsNeverRaised := fun _ _ _ => exec_reportsTo

/-! ### ERRCODE after a step -/

/-- A write leaves ERRCODE, or clears it: an acceptance or a soft reset (R28, R138, R152). -/
theorem State.busWrite_errCode (s : State) (v : Word) (l : Loc) :
    (s.busWrite v l).regs.errCode = s.regs.errCode ∨ (s.busWrite v l).regs.errCode = 0 := by
  have hctrl : (s.writeCtrl v).regs.errCode = s.regs.errCode ∨ (s.writeCtrl v).regs.errCode = 0 := by
    unfold State.writeCtrl; split
    · exact .inr rfl
    · exact .inl rfl
  cases l with
  | unmapped | zout => exact .inl rfl
  | csr off =>
    cases hc : csrAt off with
    | none => left; simp only [State.busWrite, hc]
    | some r =>
      rw [State.busWrite_csr hc]
      split <;> cases r
      case isTrue.ctrl | isFalse.ctrl => exact hctrl
      case isFalse.cmd => exact .inr rfl
      all_goals exact .inl rfl
  | huf | zin => left; unfold State.busWrite; dsimp only; split <;> rfl
  | bytes w => left; cases w <;> (unfold State.busWrite; dsimp only; split <;> rfl)

theorem State.access_errCodeOk {s : State} (h : s.ErrCodeOk) (a : Access) : (s.access a).1.ErrCodeOk := by
  rcases s.access_cases a with ⟨_, e⟩ | ⟨_, _, e⟩ | ⟨_, _, e⟩ <;> rw [e]
  · exact h
  · rcases s.busWrite_errCode a.wdata (locate s.cfg a) with e | e
    · rwa [State.ErrCodeOk, e]
    · exact .inl e
  · rcases s.busRead_state (locate s.cfg a) with e | ⟨_, e⟩ <;> rw [e] <;> exact h

theorem engineStep_errCodeOk {s t : State} (hs : s.ErrCodeOk) (h : engineStep s = .next t) : t.ErrCodeOk := by
  rcases engineStep_cases s with ⟨_, _, i, _, e⟩ | ⟨_, _, _, e⟩ | ⟨_, e⟩ <;> rw [e] at h
  · exact (exec_reportsTo h).errCodeOk hs
  · cases h; exact .inr ⟨.illegalCmd, nofun, rfl⟩
  · cases h; exact hs

/-- Settles O56: an access leaves or clears ERRCODE, a commit reports to it, and an edge of rst_n leaves or clears
it. -/
theorem stepKeepsErrCodeReported : Obligations.StepKeepsErrCodeReported := by
  intro s t hs h
  have hu : s.takeTurn.ErrCodeOk := hs
  rcases step_cases h with rfl | h | rfl | rfl
  · obtain ⟨g, e | e | ⟨a, e⟩⟩ := s.takeTurn.hostStep_moves <;> rw [e]
    · exact hu
    · exact hu
    · exact State.access_errCodeOk hu a
  · exact engineStep_errCodeOk hu h
  · exact hu
  · unfold State.releaseReset
    split
    · exact hu
    · exact .inl rfl

end Sys2Proof.Machine
end

section
/-! PROOFS. Replaying a triple, and replaying the triples of PARSE (42_lz77.md R94, R95). -/

namespace Sys2Proof.Machine

/-! ### One triple -/

theorem reconCheck_eq_ok {m limit : Nat} {t : Triple} {e : ErrCode} {u : Unit} :
    reconCheck m t limit e = .ok u ↔ ¬ (t.1 = 0 ∧ 0 < t.2.1) ∧ t.1 ≤ m ∧ m + t.2.1 + 1 ≤ limit := by
  simp only [reconCheck, bind_eq_ok, require_eq_ok, exists_const]

@[simp] theorem reconSymbols_length (out : Nat → Byte) (m : Nat) (t : Triple) :
    (reconSymbols out m t).length = t.2.1 + 1 := by simp [reconSymbols]

theorem reconSymbols_getElem?_copy (out : Nat → Byte) (m : Nat) (t : Triple) {i : Nat} (hi : i < t.2.1) :
    (reconSymbols out m t)[i]? = some (out (m - t.1 + i % t.1)) := by
  rw [reconSymbols, List.getElem?_append_left (by simpa using hi)]
  simp [hi]

theorem reconSymbols_getElem?_next (out : Nat → Byte) (m : Nat) (t : Triple) :
    (reconSymbols out m t)[t.2.1]? = some t.2.2 := by
  simp [reconSymbols]

theorem reconOne_eq_ok {out out' : List Byte} {t : Triple} {limit : Nat} {e : ErrCode} :
    reconOne out t limit e = .ok out' ↔
      (¬ (t.1 = 0 ∧ 0 < t.2.1) ∧ t.1 ≤ out.length ∧ out.length + t.2.1 + 1 ≤ limit) ∧
        out' = out ++ reconSymbols (fun i => out.getD i 0) out.length t := by
  simp only [reconOne, bind_eq_ok, reconCheck_eq_ok, exists_const, Except.ok.injEq, eq_comm (b := out')]

/-! ### The tiling -/

/-- From p on, for `len` places, each symbol repeats the one o places before it. -/
def ForwardCopy (x : List Byte) (p o len : Nat) : Prop := ∀ i, i < len → x[p + i]? = x[p + i - o]?

/-- What RECON_ONE appends is a forward copy: symbol i repeats one of the source for i < o, else one of the copy, which
the tiling makes the same (R95). -/
theorem reconSymbols_forwardCopy {out : List Byte} {t : Triple} (ho : 1 ≤ t.1) (hm : t.1 ≤ out.length) :
    ForwardCopy (out ++ reconSymbols (fun k => out.getD k 0) out.length t) out.length t.1 t.2.1 := by
  intro i hi
  rw [List.getElem?_append_right (Nat.le_add_right _ _), Nat.add_sub_cancel_left, reconSymbols_getElem?_copy _ _ _ hi]
  rcases Nat.lt_or_ge i t.1 with hlt | hge
  · have hsrc : out.length + i - t.1 < out.length := by omega
    rw [List.getElem?_append_left hsrc, Nat.mod_eq_of_lt hlt, ← Nat.sub_add_comm hm, List.getElem?_eq_getElem hsrc,
      ← List.getD_eq_getElem _ 0 hsrc]
  · rw [List.getElem?_append_right (by omega), show out.length + i - t.1 - out.length = i - t.1 by omega,
      reconSymbols_getElem?_copy _ _ _ (by omega), Nat.mod_eq_sub_mod hge]

/-- Settles O47: each symbol is read off what RECON_ONE appends, the copied ones by `reconSymbols_forwardCopy`. -/
theorem tilingIsAForwardCopy : Obligations.TilingIsAForwardCopy := by
  intro out out' o l limit c e ho h
  obtain ⟨⟨_, hm, _⟩, rfl⟩ := reconOne_eq_ok.1 h
  refine ⟨by simp [Nat.add_assoc], fun i hi => List.getElem?_append_left hi, reconSymbols_forwardCopy ho hm, ?_⟩
  rw [List.getElem?_append_right (Nat.le_add_right _ _), Nat.add_sub_cancel_left]
  exact reconSymbols_getElem?_next _ _ (o, l, c)

/-! ### The triples of PARSE -/

/-- A match at offset o is a forward copy, its source read from p − o on (R91). -/
theorem Agrees.forwardCopy {x : List Byte} {p l o k len : Nat} (h : Agrees x p l o k) (ho : o ≤ p) (hlen : len ≤ k) :
    ForwardCopy x p o len := by
  obtain ⟨_, hsame⟩ := h
  intro i hi
  rw [← hsame i (by omega), Nat.sub_add_comm ho]

/-- What stands before a forward copy determines it. -/
theorem ForwardCopy.unique {x y : List Byte} {p o len : Nat} (hx : ForwardCopy x p o len) (hy : ForwardCopy y p o len)
    (ho : 1 ≤ o) (hop : o ≤ p) (hbefore : ∀ i, i < p → y[i]? = x[i]?) {i : Nat} (hi : i < p + len) : y[i]? = x[i]? := by
  induction i using Nat.strong_induction_on with
  | _ i ih =>
    rcases Nat.lt_or_ge i p with hlt | hge
    · exact hbefore i hlt
    · obtain ⟨k, rfl⟩ := Nat.exists_eq_add_of_le hge
      rw [hx k (by omega), hy k (by omega)]
      exact ih _ (by omega) (by omega)

/-- RECON_ONE of the match at p continues the content before p by the match and the symbol after it. -/
theorem IsMatch.reconOne_eq {x : List Byte} {p w l o len : Nat} {c : Byte} (h : IsMatch x p w l o len c) :
    reconOne (x.take p) (o, len, c) x.length .badStream = .ok (x.take (p + len + 1)) := by
  obtain ⟨hop, hend⟩ := h.bounds
  have hp : (x.take p).length = p := List.length_take_of_le (by omega)
  cases h with
  | none _ next _ =>
    rw [reconOne_eq_ok]
    refine ⟨⟨by simp, Nat.zero_le _, by dsimp only; omega⟩, ?_⟩
    simp [reconSymbols, List.take_add_one, next]
  | found _ best _ _ _ lower _ agrees _ _ shrunk next =>
    have hlen : len ≤ best := by rw [shrunk]; split <;> omega
    obtain ⟨y, hy⟩ : ∃ y, reconOne (x.take p) (o, len, c) x.length .badStream = .ok y :=
      ⟨_, reconOne_eq_ok.2 ⟨⟨by dsimp only; omega, by dsimp only; omega, by dsimp only; omega⟩, rfl⟩⟩
    obtain ⟨hlength, hbefore, hcopy, hnext⟩ := tilingIsAForwardCopy _ _ _ _ _ _ _ lower hy
    rw [hp] at hlength hbefore hcopy hnext
    rw [hy]
    congr 1
    refine List.ext_getElem? fun i => ?_
    obtain hi | rfl | hi : i < p + len ∨ i = p + len ∨ p + len < i := by omega
    · rw [List.getElem?_take_of_lt (by omega)]
      refine (agrees.forwardCopy hop hlen).unique hcopy lower hop (fun k hk => ?_) hi
      rw [hbefore k hk, List.getElem?_take_of_lt hk]
    · rw [hnext, List.getElem?_take_of_lt (Nat.lt_succ_self _), next]
    · rw [List.getElem?_eq_none (by omega), List.getElem?_eq_none (by simp; omega)]

/-- Each round of PARSE replays to the content up to its next position, so what is left of PARSE replays to the
rest (R94). -/
theorem parseFrom_replays {x : List Byte} {w l fuel p : Nat} (hl : 1 ≤ l) (hp : p ≤ x.length)
    (hfuel : x.length ≤ p + fuel) :
    (parseFrom x w l fuel p).foldlM (fun out t => reconOne out t x.length .badStream) (x.take p) = .ok x ∧
      ((parseFrom x w l fuel p).map (fun t => t.2.1 + 1)).sum = x.length - p := by
  induction fuel generalizing p with
  | zero =>
    obtain rfl : p = x.length := by omega
    simp [parseFrom, pure, Except.pure]
  | succ fuel ih =>
    unfold parseFrom
    split
    · next hlt =>
      have hmatch := matchMeetsTheDirectDefinition x p w l hlt hl
      obtain ⟨_, hend⟩ := hmatch.bounds
      obtain ⟨hreplay, hsum⟩ := ih (p := p + (findMatch x p w l).2.1 + 1) (by omega) (by omega)
      refine ⟨?_, ?_⟩
      · rw [List.foldlM_cons, hmatch.reconOne_eq, bind_ok, hreplay]
      · rw [List.map_cons, List.sum_cons, hsum]; omega
    · obtain rfl : p = x.length := by omega
      simp [pure, Except.pure]

/-- Settles O46: PARSE is its loop from position 0; each triple stands for one symbol or more, so there are no more
triples than symbols. -/
theorem reconstructionInvertsParse : Obligations.ReconstructionInvertsParse := by
  intro x w l hl
  obtain ⟨hreplay, hsum⟩ := parseFrom_replays (x := x) (w := w) (fuel := x.length) hl (Nat.zero_le _) (by omega)
  refine ⟨hreplay, ?_, hsum⟩
  have hcount := List.length_le_sum_of_one_le ((parse x w l).map fun t => t.2.1 + 1)
    (List.forall_mem_map.2 fun _ _ => Nat.le_add_left 1 _)
  rw [List.length_map] at hcount
  exact hcount.trans_eq hsum

end Sys2Proof.Machine
end

section
/-! PROOFS. What every command's statement shares: the word of a command, and the memory entries and CSRs that an
append to BITBUF leaves (30_encoding.md R69 to R72; 45_bitvector.md R122). -/

namespace Sys2Proof.Machine

/-- A well-formed command has one word, the one that encode gives it (R72). -/
theorem decode_eq_ok_iff_encode {i : Instr} (hi : i.wellFormed = true) (w : Word) :
    decode w = .ok i ↔ w = encode i :=
  ⟨fun h => (everyDecodedWordIsItsEncoding w i h).2.symm, fun h => h ▸ decodeInvertsEncode i hi⟩

/-- A list written from entry a of a memory changes the entries of its own length only. -/
theorem Mem.read_writeList_of_not_mem_entries {w : Nat} (mem : Mem w) {m : MemName} {a k : Nat} {vs : List (BitVec w)}
    (h : ¬ entries m a vs.length m k) : (mem.writeList a vs).read k = mem.read k := by
  refine Mem.read_writeList_outside mem ?_
  simp only [entries, true_and] at h
  omega

/-- What an appending command's Ok commit does with its bits (R122): they are the bits from BV_LEN on, BV_LEN grows
by their number, RESULT_BITS is that number, and nothing else changes. -/
structure State.Appended (s : State) (bits : Bits) (t : State) : Prop where
  okCommit    : OkCommit s t
  bit         : ∀ k (h : k < bits.length), t.bit (s.regs.bvLen.toNat + k) = bits[k]
  bvLen       : t.regs.bvLen.toNat = s.regs.bvLen.toNat + bits.length
  resultBits  : t.regs.resultBits.toNat = bits.length
  sameCsrs    : SameCsrs [.status, .bvLen, .resultBits] s t
  sameEntries : SameEntries (entries .bitbuf s.regs.bvLen.toNat bits.length) s t
  trie        : t.trie = s.trie
  draws       : t.draws = s.draws

section
variable {s : State} {bits : Bits}

theorem State.appendChecked_of_full (h : s.cfg.bitbufCap < s.regs.bvLen.toNat + bits.length) :
    s.appendChecked bits = .error .bufFull := by
  rw [State.appendChecked_eq, if_neg (by omega)]

theorem State.appended_of_fits (hfit : s.regs.bvLen.toNat + bits.length ≤ s.cfg.bitbufCap) (hc : s.cfg.Legal)
    (hm : s.mems.bitbuf.wf) : s.Appended bits (s.commit (s.appendChecked bits)) := by
  have hcap : s.cfg.bitbufCap ≤ 67108864 := by omega
  rw [State.appendChecked_eq, if_pos hfit, State.commit_ok]
  refine ⟨LeavesControl.okCommit ⟨rfl, rfl, rfl, rfl, rfl, rfl, rfl, rfl, rfl⟩, fun k hk => ?_, ?_, ?_, fun r hr => ?_,
    fun m k hk => ?_, rfl, rfl⟩
  · exact State.bit_writeBits_inside hm hk
  · exact toNat_ofNat32 (by omega)
  · exact toNat_ofNat32 (by omega)
  · cases r
    case status | bvLen | resultBits => simp at hr
    all_goals rfl
  · cases m
    case bitbuf =>
      refine congrArg (BitVec.setWidth 32) (Mem.read_writeList_of_not_mem_entries (m := .bitbuf) _ ?_)
      rwa [List.length_map]
    all_goals rfl

end

end Sys2Proof.Machine
end

section
/-! PROOFS. The commands LZ_RECON, TRI_PUT and TRI_GET (42_lz77.md R99 to R101). -/

namespace Sys2Proof.Machine

/-! ### LZ_RECON -/

/-- What LZ_RECON appends to CONTENT (R99). -/
def State.reconList (s : State) : List Byte := reconSymbols s.mems.content.read s.regs.clen.toNat s.triple

@[simp] theorem State.reconList_length (s : State) : s.reconList.length = s.regs.triLength.toNat + 1 :=
  reconSymbols_length _ _ _

/-- LZ_RECON's updates (R99). -/
def State.putRecon (s : State) : State :=
  { s with
    mems := { s.mems with content := s.mems.content.writeList s.regs.clen.toNat s.reconList }
    regs := { s.regs with clen := BitVec.ofNat 32 (s.regs.clen.toNat + s.reconList.length) } }

theorem lzRecon_eq (s : State) :
    lzRecon s = (do
      require (s.regs.clen.toNat ≤ s.cfg.contentCap) .param
      reconCheck s.regs.clen.toNat s.triple s.cfg.contentCap .bufFull
      .ok s.putRecon) := rfl

/-- Entry CLEN + k holds the k-th symbol appended. -/
theorem State.putRecon_content {s : State} (hm : s.mems.content.wf) {k : Nat} {b : Byte}
    (hb : s.reconList[k]? = some b) : s.putRecon.mems.content.read (s.regs.clen.toNat + k) = b := by
  obtain ⟨hk, hget⟩ := List.getElem?_eq_some_iff.1 hb
  exact (Mem.read_writeList_inside hm hk).trans hget

theorem State.putRecon_clen (s : State) (h : s.regs.clen.toNat + s.regs.triLength.toNat + 1 < 2 ^ 32) :
    s.putRecon.regs.clen.toNat = s.regs.clen.toNat + s.regs.triLength.toNat + 1 := by
  rw [Nat.add_assoc, ← s.reconList_length] at h ⊢
  exact toNat_ofNat32 h

theorem State.putRecon_sameEntries (s : State) :
    SameEntries (entries .content s.regs.clen.toNat (s.regs.triLength.toNat + 1)) s s.putRecon := by
  intro m k hk
  cases m
  case content =>
    refine congrArg (BitVec.setWidth 32) (Mem.read_writeList_of_not_mem_entries (m := .content) _ ?_)
    rwa [s.reconList_length]
  all_goals rfl

theorem State.putRecon_sameCsrs (s : State) : SameCsrs [.status, .clen] s s.putRecon.commitOk := by
  intro r hr
  cases r
  case status | clen => simp at hr
  all_goals rfl

/-- A copy with no source, or a source before the start, is BAD_STREAM (R95). -/
theorem reconCheck_badStream {m limit : Nat} {t : Triple} {e : ErrCode} (h : (t.1 = 0 ∧ 0 < t.2.1) ∨ m < t.1) :
    reconCheck m t limit e = .error .badStream := by
  simp only [reconCheck, bind_eq_error, require_eq_error, require_eq_ok, exists_const, and_true]
  omega

/-- A result past the limit, its source being good, is the caller's error (R95). -/
theorem reconCheck_overrun {m limit : Nat} {t : Triple} {e : ErrCode} (h0 : ¬ (t.1 = 0 ∧ 0 < t.2.1)) (hm : t.1 ≤ m)
    (h : limit < m + t.2.1 + 1) : reconCheck m t limit e = .error e := by
  rw [reconCheck, require_pos h0, bind_ok, require_pos hm, bind_ok, require_neg (by omega)]

/-- Settles O29: the checks in their order, and what `reconSymbols` says of each symbol appended. -/
theorem lzReconReplaysTheTriple : Obligations.LzReconReplaysTheTriple := by
  rintro s o l m rfl rfl rfl
  refine ⟨decode_eq_ok_iff_encode rfl, fun hcap => ?_, fun hcap hbad => ?_, fun hcap h0 hom hfull => ?_,
    fun h0 hom hfit hc hm => ?_⟩
  · rw [exec_lzRecon, lzRecon_eq, require_neg (by omega), bind_error, State.commit_error]
  · rw [exec_lzRecon, lzRecon_eq, require_pos hcap, bind_ok, reconCheck_badStream hbad, bind_error, State.commit_error]
  · rw [exec_lzRecon, lzRecon_eq, require_pos hcap, bind_ok, reconCheck_overrun h0 hom hfull, bind_error,
      State.commit_error]
  · have hok : lzRecon s = .ok s.putRecon := by
      rw [lzRecon_eq, require_pos (by omega), bind_ok, reconCheck_eq_ok (u := ()).2 ⟨h0, hom, hfit⟩, bind_ok]
    have hcap : s.cfg.contentCap ≤ 4194304 := hc.2.1
    refine ⟨_, by rw [exec_lzRecon, hok, State.commit_ok], (lzRecon_leaves hok).okCommit,
      fun i hi => State.putRecon_content hm (reconSymbols_getElem?_copy _ _ s.triple hi),
      State.putRecon_content hm (reconSymbols_getElem?_next _ _ s.triple), ?_,
      s.putRecon_sameCsrs, s.putRecon_sameEntries.commitOk, rfl, rfl⟩
    rw [State.commitOk_clen, s.putRecon_clen (by omega)]

/-! ### TRI_PUT -/

/-- TRI_PUT's checks, then its append (R100). -/
theorem triPut_eq {s : State} {bits : Bits}
    (hbits : bits = eo1 s.regs.triOffset.toNat ++ eo1 s.regs.triLength.toNat ++ s.hufBits s.regs.triSymbol.toNat) :
    triPut s = (do s.checkBvLen; s.checkCode s.regs.triSymbol.toNat; s.appendChecked bits) := by
  rw [hbits]; rfl

/-- Settles O30: the checks in their order, then the append of R122. -/
theorem triPutAppendsTheTriple : Obligations.TriPutAppendsTheTriple := by
  rintro s c bits rfl hbits
  have happend (hlen : s.regs.bvLen.toNat ≤ s.cfg.bitbufCap) (hv : s.hufValid s.regs.triSymbol.toNat = true)
      (hl : s.hufLen s.regs.triSymbol.toNat ≠ 0) : triPut s = s.appendChecked bits := by
    rw [triPut_eq hbits, State.checkBvLen_eq_ok (u := ()).2 hlen, bind_ok,
      State.checkCode_eq_ok (u := ()).2 ⟨hv, hl⟩, bind_ok]
  refine ⟨decode_eq_ok_iff_encode rfl, fun hlen => ?_, fun hlen hv => ?_, fun hlen hv hl => ?_,
    fun hlen hv hl hfull => ?_, fun hv hl hfit hc hm => ?_⟩
  · rw [exec_triPut, triPut_eq hbits, State.checkBvLen_eq_error.2 ⟨hlen, rfl⟩, bind_error, State.commit_error]
  · rw [exec_triPut, triPut_eq hbits, State.checkBvLen_eq_ok (u := ()).2 hlen, bind_ok,
      State.checkCode_eq_error.2 (.inl ⟨hv, rfl⟩), bind_error, State.commit_error]
  · rw [exec_triPut, triPut_eq hbits, State.checkBvLen_eq_ok (u := ()).2 hlen, bind_ok,
      State.checkCode_eq_error.2 (.inr ⟨hv, hl, rfl⟩), bind_error, State.commit_error]
  · rw [exec_triPut, happend hlen hv hl, State.appendChecked_of_full hfull, State.commit_error]
  · obtain ⟨hok, hbit, hbv, hres, hcsr, hent, htrie, hdraws⟩ := State.appended_of_fits hfit hc hm
    exact ⟨_, by rw [exec_triPut, happend (by omega) hv hl], hok, hbit, hbv, hres, hcsr, hent, htrie, hdraws⟩

/-! ### TRI_GET -/

/-- The valid entries of HUF_TABLE, each with its code (R109). -/
theorem State.mem_tablePairs {s : State} {sym : Byte} {code : Bits} :
    (sym, code) ∈ s.tablePairs ↔ s.hufValid sym.toNat = true ∧ code = s.hufBits sym.toNat := by
  simp only [State.tablePairs, List.mem_map, List.mem_filter, mem_symbols, true_and, Prod.mk.injEq]
  constructor
  · rintro ⟨_, hv, rfl, rfl⟩; exact ⟨hv, rfl⟩
  · rintro ⟨hv, rfl⟩; exact ⟨sym, hv, rfl, rfl⟩

/-- A reader that consumes `bits` of the stream at BV_RPTR (R123). -/
theorem State.readStream_of_append {α : Type} {s : State} {r : Reader α} {v : α} {bits rest : Bits}
    (hs : s.bitsFrom s.regs.bvRptr.toNat = bits ++ rest) (hr : r (bits ++ rest) = .ok (v, rest)) :
    s.readStream r = .ok (v, bits.length) :=
  State.readStream_eq_ok.2 ⟨rest, by rw [hs, hr], by rw [hs, List.length_append, Nat.add_sub_cancel]⟩

/-- BV_RPTR past bits that a stream leads with fits its word: they end at or before BV_LEN (R33, R123). -/
theorem State.bvRptr_add_lt {s : State} {bits rest : Bits} (hs : s.bitsFrom s.regs.bvRptr.toNat = bits ++ rest) :
    s.regs.bvRptr.toNat + bits.length < 2 ^ 32 := by
  have hlen := congrArg List.length hs
  rw [s.bitsFrom_length, List.length_append] at hlen
  have := s.regs.bvLen.isLt
  have := s.regs.bvRptr.isLt
  omega

/-- With BV_LEN and the trie in order, TRI_GET is its read (R101). -/
theorem triGet_of_trie {s : State} (hlen : s.regs.bvLen.toNat ≤ s.cfg.bitbufCap) {root : Trie}
    (ht : s.trie = some root) :
    triGet s = (s.readStream (tripleRead root) >>= fun a => .ok ((s.setTriple a.1).consume a.2)) := by
  rw [triGet, State.checkBvLen_eq_ok (u := ()).2 hlen, bind_ok, State.needTrie_eq_ok.2 ht, bind_ok]

/-- Settles O31: `tripleRead_eq_ok` and `tripleRead_eq_error` say what TRIPLE_READ does in the trie of the table. -/
theorem triGetReadsTheTriple : Obligations.TriGetReadsTheTriple := by
  intro s
  refine ⟨decode_eq_ok_iff_encode rfl, fun hlen => ?_, fun hlen ht => ?_, fun root c hlen ht he => ?_,
    fun p bs c hp => tripleRead_eq_error hp, ?_⟩
  · rw [exec_triGet, triGet, State.checkBvLen_eq_error.2 ⟨hlen, rfl⟩, bind_error, State.commit_error]
  · rw [exec_triGet, triGet, State.checkBvLen_eq_ok (u := ()).2 hlen, bind_ok, State.needTrie_eq_error.2 ⟨ht, rfl⟩,
      bind_error, State.commit_error]
  · rw [exec_triGet, triGet_of_trie hlen ht, State.readStream_eq_error.2 he, bind_error, State.commit_error]
  · rintro o l c bits rest hlen hsome hok ho hl hv hbits hs
    obtain ⟨root, ht⟩ := Option.isSome_iff_exists.1 hsome
    obtain ⟨htable, rfl⟩ := hok root ht
    have hread : tripleRead (trieBuild s.tablePairs) (bits ++ rest) = .ok ((o, l, c), rest) :=
      (tripleRead_eq_ok htable).2 ⟨ho, hl, _, State.mem_tablePairs.2 ⟨hv, rfl⟩, congrArg (· ++ rest) hbits⟩
    have hget : triGet s = .ok ((s.setTriple (o, l, c)).consume bits.length) := by
      rw [triGet_of_trie hlen ht, State.readStream_of_append hs hread, bind_ok]
    have hword := State.bvRptr_add_lt hs
    refine ⟨_, by rw [exec_triGet, hget, State.commit_ok], (triGet_leaves hget).okCommit, toNat_ofNat32 ho,
      toNat_ofNat32 hl, rfl, toNat_ofNat32 hword, toNat_ofNat32 (by omega), fun r hr => ?_, fun _ _ _ => rfl, rfl, rfl⟩
    cases r
    case status | triOffset | triLength | triSymbol | bvRptr | resultBits => simp at hr
    all_goals rfl

end Sys2Proof.Machine
end

section
/-! PROOFS. The Huffman tree: the sorted queue is the queue of R104, and the paths of the tree that it leaves are a
complete code of which none leads another (43_huffman.md R102 to R107). -/

namespace Sys2Proof.Machine

/-! ### The queue -/

theorem QItem.before_iff_smaller {a b : QItem} : a.before b = true ↔ a.Smaller b := by
  simp [QItem.before, QItem.Smaller]

theorem QItem.Smaller.trans {a b c : QItem} (hab : a.Smaller b) (hbc : b.Smaller c) : a.Smaller c := by
  unfold QItem.Smaller at *; omega

/-- A later creation number decides where the weights do not (R103). -/
theorem QItem.smaller_of_not_before {a b : QItem} (hseq : b.seq < a.seq) (h : ¬ a.before b = true) : b.Smaller a := by
  rw [QItem.before_iff_smaller] at h
  unfold QItem.Smaller at *; omega

/-- The list that stands for the queue: the smallest vertex first, and only creation numbers below the next one. -/
structure QueueOk (next : Nat) (q : List QItem) : Prop where
  sorted : q.Pairwise QItem.Smaller
  below  : ∀ a ∈ q, a.seq < next

theorem queueOk_nil (next : Nat) : QueueOk next [] := ⟨.nil, by simp⟩

theorem QueueOk.tail {next : Nat} {a : QItem} {q : List QItem} (h : QueueOk next (a :: q)) : QueueOk next q :=
  ⟨h.sorted.of_cons, fun b hb => h.below b (List.mem_cons_of_mem a hb)⟩

theorem QueueOk.head_smaller {next : Nat} {a : QItem} {q : List QItem} (h : QueueOk next (a :: q)) :
    ∀ b ∈ q, a.Smaller b := (List.pairwise_cons.1 h.sorted).1

theorem qInsert_perm (a : QItem) (q : List QItem) : (qInsert a q).Perm (a :: q) := by
  induction q with
  | nil => exact .refl _
  | cons b q ih =>
    rw [qInsert]
    split
    · exact .refl _
    · exact (ih.cons b).trans (.swap a b q)

/-- Inserting the vertex just created keeps the order. -/
theorem QueueOk.qInsert {next : Nat} {q : List QItem} (h : QueueOk next q) {a : QItem} (ha : a.seq = next) :
    QueueOk (next + 1) (qInsert a q) where
  sorted := by
    induction q with
    | nil => exact List.pairwise_singleton _ a
    | cons b q ih =>
      rw [Machine.qInsert]
      split
      · next hab =>
        have hab := QItem.before_iff_smaller.1 hab
        refine List.pairwise_cons.2 ⟨List.forall_mem_cons.2 ⟨hab, fun c hc => ?_⟩, h.sorted⟩
        exact hab.trans (h.head_smaller c hc)
      · next hab =>
        refine List.pairwise_cons.2 ⟨fun c hc => ?_, ih h.tail⟩
        rcases List.mem_cons.1 ((qInsert_perm a q).mem_iff.1 hc) with rfl | hc
        · exact QItem.smaller_of_not_before (by have := h.below b List.mem_cons_self; omega) hab
        · exact h.head_smaller c hc
  below c hc := by
    rcases List.mem_cons.1 ((qInsert_perm a q).mem_iff.1 hc) with rfl | hc
    · omega
    · have := h.below c hc; omega

/-- The loop of HUF_TREE takes the rounds of R104, whatever order the queue's vertices are listed in. -/
theorem hufMerge_merges {fuel next : Nat} {q : List QItem} (hq : QueueOk next q) (hne : q ≠ [])
    (hfuel : q.length ≤ fuel + 1) :
    ∃ root, hufMerge fuel next q = [root] ∧ ∀ q' : List QItem, q'.Perm q → Merges next q' root.tree := by
  have single (fuel next : Nat) (a : QItem) :
      ∃ root, hufMerge fuel next [a] = [root] ∧ ∀ q' : List QItem, q'.Perm [a] → Merges next q' root.tree :=
    ⟨a, by cases fuel <;> rfl, fun q' h => List.perm_singleton.1 h ▸ .done next a⟩
  induction fuel generalizing next q with
  | zero =>
    obtain ⟨a, rfl⟩ := List.length_eq_one_iff.1 (Nat.le_antisymm hfuel (List.length_pos_iff.2 hne))
    exact single 0 next a
  | succ fuel ih =>
    match q with
    | [] => exact absurd rfl hne
    | [a] => exact single _ next a
    | a :: b :: q =>
      have hok := hq.tail.tail.qInsert (a := ⟨a.weight + b.weight, next, .node a.tree b.tree⟩) rfl
      have hperm := qInsert_perm ⟨a.weight + b.weight, next, .node a.tree b.tree⟩ q
      have hlen := hperm.length_eq
      simp only [List.length_cons] at hfuel hlen
      obtain ⟨root, hroot, hmerges⟩ := ih hok (List.ne_nil_of_length_pos (by omega)) (by omega)
      exact ⟨root, hroot, fun q' h => .round next q' q a b _ h hq.head_smaller hq.tail.head_smaller
        (hmerges _ hperm.symm)⟩

/-- The leaves, inserted in creation order (R103, R104). -/
theorem QueueOk.insertLeaves {next : Nat} {q : List QItem} (h : QueueOk next q) (x l : List Byte) :
    QueueOk (next + l.length)
      (((l.zipIdx next).map fun e => ⟨freq x e.1, e.2, .leaf e.1⟩).foldl (fun q a => Machine.qInsert a q) q) := by
  induction l generalizing next q with
  | nil => exact h
  | cons sym l ih =>
    have := ih (h.qInsert (a := ⟨freq x sym, next, .leaf sym⟩) rfl)
    rwa [Nat.add_right_comm] at this

theorem foldl_qInsert_perm (l q : List QItem) : (l.foldl (fun q a => qInsert a q) q).Perm (l ++ q) := by
  induction l generalizing q with
  | nil => exact .refl _
  | cons a l ih => exact (ih _).trans (((qInsert_perm a q).append_left l).trans List.perm_middle)

/-- HUF_TREE leaves the one tree that the rounds of R104 make of the leaves. -/
theorem hufTree_merges {x : List Byte} (h : x ≠ []) :
    ∃ root, hufTree x = [root] ∧ Merges (alphabet x).length (hufLeaves x) root.tree := by
  have hperm := foldl_qInsert_perm (hufLeaves x) []
  rw [List.append_nil] at hperm
  have hlen : (hufLeaves x).length = (alphabet x).length := by simp [hufLeaves]
  have hok := (queueOk_nil 0).insertLeaves x (alphabet x)
  rw [Nat.zero_add, ← hlen] at hok
  have hpos : 0 < (hufLeaves x).length := hlen ▸ List.length_pos_iff.2 (alphabet_ne_nil h)
  obtain ⟨root, hroot, hmerges⟩ := hufMerge_merges (fuel := (hufLeaves x).length) hok
    (List.ne_nil_of_length_pos (hperm.length_eq ▸ hpos)) (hperm.length_eq.le.trans (Nat.le_succ _))
  exact ⟨root, hroot, hlen ▸ hmerges _ hperm.symm⟩

/-! ### The leaves of the tree -/

/-- The symbols of a tree's leaves. -/
def HTree.symbols : HTree → List Byte
  | .leaf sym => [sym]
  | .node c0 c1 => c0.symbols ++ c1.symbols

theorem HTree.symbols_length (t : HTree) : t.symbols.length = t.leaves := by
  induction t with
  | leaf _ => rfl
  | node c0 c1 h0 h1 => rw [HTree.symbols, List.length_append, h0, h1, HTree.leaves]

/-- Merging loses no leaf and adds none (R104). -/
theorem Merges.symbols_perm {next : Nat} {q : List QItem} {root : HTree} (h : Merges next q root) :
    root.symbols.Perm (q.flatMap fun a => a.tree.symbols) := by
  induction h with
  | done next a => simp
  | round next q rest a b root taken _ _ _ ih =>
    refine ih.trans (.trans ?_ (taken.symm.flatMap_right _))
    simp [HTree.symbols]

theorem symbols_hufLeaves (x : List Byte) : ((hufLeaves x).flatMap fun a => a.tree.symbols) = alphabet x := by
  rw [hufLeaves, List.flatMap_map]
  exact List.map_eq_flatMap.symm.trans (List.zipIdx_map_fst 0 _)

theorem alphabet_sorted (x : List Byte) : (alphabet x).Pairwise fun a b => a.toNat < b.toNat :=
  symbols_sorted.filter _

theorem alphabet_nodup (x : List Byte) : (alphabet x).Nodup :=
  (alphabet_sorted x).imp fun hlt he => by subst he; omega

/-! ### The paths of the tree -/

theorem LeafPath.mem_symbols {sym : Byte} {t : HTree} {bs : Bits} (h : LeafPath sym t bs) : sym ∈ t.symbols := by
  induction h with
  | here => exact List.mem_singleton_self sym
  | child0 _ _ _ _ ih => exact List.mem_append_left _ ih
  | child1 _ _ _ _ ih => exact List.mem_append_right _ ih

theorem HTree.leafPath_of_path? {sym : Byte} {t : HTree} {bs : Bits} (h : t.path? sym = some bs) :
    LeafPath sym t bs := by
  induction t generalizing bs with
  | leaf s =>
    simp only [HTree.path?, Option.ite_none_right_eq_some, Option.some.injEq] at h
    obtain ⟨rfl, rfl⟩ := h
    exact .here
  | node c0 c1 h0 h1 =>
    rw [HTree.path?] at h
    split at h
    · next b0 hb => cases h; exact .child0 _ _ _ (h0 hb)
    · obtain ⟨b1, hb, rfl⟩ := Option.map_eq_some_iff.1 h
      exact .child1 _ _ _ (h1 hb)

theorem HTree.path?_eq_none {sym : Byte} {t : HTree} (h : sym ∉ t.symbols) : t.path? sym = none :=
  Option.eq_none_iff_forall_ne_some.2 fun _ hp => h (HTree.leafPath_of_path? hp).mem_symbols

/-- In a tree of distinct symbols, `path?` finds the one path to a symbol's leaf (R105). -/
theorem HTree.path?_eq_some_iff {sym : Byte} {t : HTree} (ht : t.symbols.Nodup) {bs : Bits} :
    t.path? sym = some bs ↔ LeafPath sym t bs := by
  refine ⟨HTree.leafPath_of_path?, fun h => ?_⟩
  induction h with
  | here => exact if_pos rfl
  | child0 c0 c1 bs _ ih => rw [HTree.path?, ih ht.of_append_left]
  | child1 c0 c1 bs below ih =>
    have hnot : sym ∉ c0.symbols := fun h0 => List.disjoint_of_nodup_append ht h0 below.mem_symbols
    rw [HTree.path?, HTree.path?_eq_none hnot, ih ht.of_append_right]; rfl

theorem HTree.exists_leafPath {sym : Byte} {t : HTree} (h : sym ∈ t.symbols) : ∃ bs, LeafPath sym t bs := by
  induction t with
  | leaf s => exact ⟨[], List.mem_singleton.1 h ▸ .here⟩
  | node c0 c1 h0 h1 =>
    rcases List.mem_append.1 h with h | h
    · obtain ⟨bs, hpath⟩ := h0 h
      exact ⟨_, .child0 c0 c1 bs hpath⟩
    · obtain ⟨bs, hpath⟩ := h1 h
      exact ⟨_, .child1 c0 c1 bs hpath⟩

/-- Leaves do not lie on the path to another leaf (R107). -/
theorem LeafPath.eq_of_prefix {sym sym' : Byte} {t : HTree} {a b : Bits} (ha : LeafPath sym t a)
    (hb : LeafPath sym' t b) (hab : a <+: b) : sym = sym' := by
  induction ha generalizing b with
  | here => cases hb; rfl
  | child0 _ _ _ _ ih =>
    cases hb with
    | child0 _ _ _ below => exact ih below (List.cons_prefix_cons.1 hab).2
    | child1 => exact nomatch (List.cons_prefix_cons.1 hab).1
  | child1 _ _ _ _ ih =>
    cases hb with
    | child0 => exact nomatch (List.cons_prefix_cons.1 hab).1
    | child1 _ _ _ below => exact ih below (List.cons_prefix_cons.1 hab).2

/-- Bits enough to leave the tree follow the path to some leaf: every internal vertex has both children (R107). -/
theorem HTree.exists_leafPath_prefix (t : HTree) {bs : Bits} (h : t.leaves ≤ bs.length + 1) :
    ∃ sym code, LeafPath sym t code ∧ code <+: bs := by
  induction t generalizing bs with
  | leaf sym => exact ⟨sym, [], .here, List.nil_prefix⟩
  | node c0 c1 h0 h1 =>
    have hp0 := c0.leaves_pos
    have hp1 := c1.leaves_pos
    rw [HTree.leaves] at h
    match bs with
    | [] => rw [List.length_nil] at h; omega
    | false :: bs =>
      obtain ⟨sym, code, hpath, hpre⟩ := h0 (bs := bs) (by rw [List.length_cons] at h; omega)
      exact ⟨sym, _, .child0 _ _ _ hpath, List.cons_prefix_cons.2 ⟨rfl, hpre⟩⟩
    | true :: bs =>
      obtain ⟨sym, code, hpath, hpre⟩ := h1 (bs := bs) (by rw [List.length_cons] at h; omega)
      exact ⟨sym, _, .child1 _ _ _ hpath, List.cons_prefix_cons.2 ⟨rfl, hpre⟩⟩

/-! ### The code -/

/-- A single symbol has the code "0" (R106). -/
theorem hufCodes_of_single {x : List Byte} {sym : Byte} (h : alphabet x = [sym]) : hufCodes x = [(sym, [false])] := by
  unfold hufCodes; rw [h]

/-- For two symbols or more, HUF_CODES is the paths of the tree that R104 builds (R105, R107). -/
theorem exists_huffmanTree {x : List Byte} (h : 2 ≤ (alphabet x).length) :
    ∃ root, Merges (alphabet x).length (hufLeaves x) root ∧ root.symbols.Perm (alphabet x) ∧
      ∀ e, e ∈ hufCodes x ↔ LeafPath e.1 root e.2 := by
  have hx : x ≠ [] := by rintro rfl; simp [alphabet, freq] at h
  obtain ⟨⟨_, _, root⟩, hroot, hmerges⟩ := hufTree_merges hx
  have hsymbols : root.symbols.Perm (alphabet x) := symbols_hufLeaves x ▸ hmerges.symbols_perm
  have hpath {sym : Byte} {bs : Bits} := HTree.path?_eq_some_iff (sym := sym) (bs := bs)
    (hsymbols.nodup_iff.2 (alphabet_nodup x))
  refine ⟨root, hmerges, hsymbols, fun e => ?_⟩
  rcases hufCodes_cases hx with ⟨sym, ha, _⟩ | ⟨root', q, hroot', hcodes⟩
  · rw [ha] at h; simp at h
  · cases hroot.symm.trans hroot'
    rw [hcodes, List.mem_map]
    constructor
    · rintro ⟨sym, hs, rfl⟩
      obtain ⟨bs, hbs⟩ := HTree.exists_leafPath (hsymbols.mem_iff.2 hs)
      rwa [hpath.2 hbs]
    · intro he
      exact ⟨e.1, hsymbols.mem_iff.1 he.mem_symbols, by rw [hpath.2 he]; rfl⟩

/-- Settles O60: HUF_TREE takes the rounds of R104, and the codes are the paths of the tree it leaves. -/
theorem huffmanTreeMergesTheSmallest : Obligations.HuffmanTreeMergesTheSmallest := by
  intro x hx
  refine ⟨alphabet_sorted x, fun sym => mem_alphabet, fun sym ha => hufCodes_of_single ha, fun h2 => ?_⟩
  obtain ⟨root, hmerges, _, hcodes⟩ := exists_huffmanTree h2
  exact ⟨root, hmerges, hufCodes_symbols hx, fun e he => (hcodes e).1 he⟩

/-- TABLE_OK holds of HUF_CODES: distinct leaves have paths of which none leads another, and the root of two leaves
or more is no leaf (R107, R109). -/
theorem tableOk_hufCodes {x : List Byte} (hx : x ≠ []) : tableOk (hufCodes x) = true := by
  obtain ⟨sym, ha⟩ | h2 : (∃ sym, alphabet x = [sym]) ∨ 2 ≤ (alphabet x).length := by
    have := List.length_pos_iff.2 (alphabet_ne_nil hx)
    rw [← List.length_eq_one_iff]; omega
  · rw [hufCodes_of_single ha]; rfl
  · obtain ⟨root, _, hsymbols, hcodes⟩ := exists_huffmanTree h2
    have hne : hufCodes x ≠ [] := List.ne_nil_of_length_pos (by rw [hufCodes_length hx]; omega)
    refine (tableOk_iff _).2 ⟨hne, fun e he hnil => ?_, (hufCodes_ascending hx).sorted.imp_of_mem fun he he' hlt => ?_⟩
    · have hpath := hnil ▸ (hcodes e).1 he
      cases hpath
      have := hsymbols.length_eq
      simp only [HTree.symbols, List.length_singleton] at this
      omega
    · have hp := (hcodes _).1 he
      have hp' := (hcodes _).1 he'
      exact ⟨fun h => by rw [hp.eq_of_prefix hp' h] at hlt; omega,
        fun h => by rw [hp'.eq_of_prefix hp h] at hlt; omega⟩

/-- Settles O50: `tableOk_hufCodes`, the bound on the paths, and a path to a leaf along any bits. -/
theorem huffmanCodeIsPrefixFree : Obligations.HuffmanCodeIsPrefixFree := by
  intro x hx
  have hok := tableOk_hufCodes hx
  obtain ⟨_, hne, _⟩ := (tableOk_iff _).1 hok
  refine ⟨hufCodes_symbols hx, hok, fun e he => ⟨List.length_pos_iff.2 (hne e he), hufCodes_short hx he⟩,
    fun h2 bs hbs => ?_⟩
  obtain ⟨root, _, hsymbols, hcodes⟩ := exists_huffmanTree h2
  have hleaves : root.leaves ≤ 256 :=
    root.symbols_length ▸ hsymbols.length_eq ▸ alphabet_length_le x
  obtain ⟨sym, code, hpath, hpre⟩ := root.exists_leafPath_prefix (bs := bs) (by omega)
  exact ⟨(sym, code), (hcodes _).2 hpath, hpre⟩

/-! ### The decode trie -/

/-- Settles O51: `trieBuild_read_eq_ok` says what a read returns and which bits it consumes. -/
theorem trieReadsExactlyTheCodes : Obligations.TrieReadsExactlyTheCodes := by
  refine fun p hp => ⟨fun e he rest => (trieBuild_read_eq_ok hp).2 ⟨e.2, he, rfl⟩, fun bs rest sym h => ?_⟩
  obtain ⟨code, he, rfl⟩ := (trieBuild_read_eq_ok hp).1 h
  exact ⟨(sym, code), he, rfl, rfl⟩

end Sys2Proof.Machine
end

section
/-! PROOFS. The commands HUF_BUILD, HUF_ENC, HUF_TRIE and HUF_DEC (43_huffman.md R112 to R115). -/

namespace Sys2Proof.Machine

/-! ### HUF_BUILD -/

/-- HUF_D, the memories and the trie are read by no CSR but HUF_D and HUF_STATE (R37). -/
theorem State.setHufD_sameCsrs (s : State) (d : Nat) (m : Mems) (t : Option Trie) :
    SameCsrs [.status, .hufD, .hufState] s { s.setHufD d with mems := m, trie := t }.commitOk := by
  intro r hr
  cases r
  case status | hufD | hufState => simp at hr
  all_goals rfl

/-- HUF_BUILD's updates, of any code map (R112). -/
def State.putCodes (s : State) (p : CodeMap) : State := { (s.writeTable p).setHufD p.length with trie := none }

theorem hufBuild_eq (s : State) :
    hufBuild s = (do
      require (s.regs.clen.toNat ≤ s.cfg.contentCap) .param
      require (s.regs.clen.toNat ≠ 0) .emptyInput
      .ok (s.putCodes (hufCodes s.contentList))) := rfl

/-- A symbol outside the map has length 0 (R108). -/
theorem State.writeTable_len_not_mem (s : State) {p : CodeMap} {i : Nat} (h : ∀ e ∈ p, e.1.toNat ≠ i) :
    (s.writeTable p).hufLen i = 0 := by
  unfold State.hufLen; rw [s.writeTable_ctl_not_mem h]; rfl

/-- A symbol outside the map has no code bit that is 1 (R108). -/
theorem State.writeTable_codeBit_not_mem (s : State) {p : CodeMap} {i j : Nat} (h : ∀ e ∈ p, e.1.toNat ≠ i)
    (hj : j < 256) : (s.writeTable p).hufCodeBit i j = false := by
  unfold State.hufCodeBit; rw [s.writeTable_code_not_mem h (by omega)]; exact BitVec.getLsbD_zero

/-- The code bits past a symbol's length are 0, whether the map has the symbol or not (R108). -/
theorem State.writeTable_codeBit_of_len_le (s : State) {p : CodeMap} (hp : p.Ascending) {sym : Byte} {j : Nat}
    (hlen : (s.writeTable p).hufLen sym.toNat ≤ j) (hj : j < 256) : (s.writeTable p).hufCodeBit sym.toNat j = false := by
  by_cases h : ∃ e ∈ p, e.1 = sym
  · obtain ⟨e, he, rfl⟩ := h
    exact (s.writeTable_holds hp).zeros e he j (s.writeTable_len_mem hp he ▸ hlen) hj
  · exact s.writeTable_codeBit_not_mem (fun e he hs => h ⟨e, he, BitVec.eq_of_toNat_eq hs⟩) hj

/-- The symbols of the content are those that HUF_CODES gives a code (R107). -/
theorem mem_contentList_iff_hufCodes {x : List Byte} (h : x ≠ []) {sym : Byte} :
    sym ∈ x ↔ ∃ e ∈ hufCodes x, e.1 = sym := by
  rw [← mem_alphabet, ← hufCodes_symbols h, List.mem_map]

/-- Settles O32: the checks in their order, then what WRITE_TABLE of HUF_CODES leaves in HUF_TABLE. -/
theorem hufBuildFillsTheTable : Obligations.HufBuildFillsTheTable := by
  refine fun s => ⟨decode_eq_ok_iff_encode rfl, fun hcap => ?_, fun hcap h0 => ?_, fun hcap h0 => ?_⟩
  · rw [exec_hufBuild, hufBuild_eq, require_neg (by omega), bind_error, State.commit_error]
  · rw [exec_hufBuild, hufBuild_eq, require_pos hcap, bind_ok, require_neg (by omega), bind_error, State.commit_error]
  · have hx := State.contentList_ne_nil h0
    have hp := hufCodes_ascending hx
    have hok : hufBuild s = .ok (s.putCodes (hufCodes s.contentList)) := by
      rw [hufBuild_eq, require_pos hcap, bind_ok, require_pos h0, bind_ok]
    have hnot {sym : Byte} (hs : sym ∉ s.contentList) : ∀ e ∈ hufCodes s.contentList, e.1.toNat ≠ sym.toNat :=
      fun e he h => hs ((mem_contentList_iff_hufCodes hx).2 ⟨e, he, BitVec.eq_of_toNat_eq h⟩)
    refine ⟨_, by rw [exec_hufBuild, hok, State.commit_ok], (hufBuild_leaves hok).okCommit, fun sym => ?_,
      fun e he => s.writeTable_bits_mem hp he, fun sym j hlen hj => s.writeTable_codeBit_of_len_le hp hlen hj,
      fun sym hs => s.writeTable_len_not_mem (hnot hs), ?_, rfl, s.setHufD_sameCsrs _ _ _,
      fun m k hk => s.writeTable_entry _ hk, rfl⟩
    · by_cases hs : sym ∈ s.contentList
      · obtain ⟨e, he, rfl⟩ := (mem_contentList_iff_hufCodes hx).1 hs
        exact (s.writeTable_valid_mem hp he).trans (decide_eq_true hs).symm
      · exact (s.writeTable_valid_not_mem (hnot hs)).trans (decide_eq_false hs).symm
    · rw [← hufCodes_length hx]
      exact toNat_ofNat9 (hufCodes_length hx ▸ alphabet_length_le _)

/-! ### HUF_ENC -/

@[simp] theorem State.hufBits_length (s : State) (sym : Nat) : (s.hufBits sym).length = s.hufLen sym := by
  simp [State.hufBits]

theorem State.hufBits_getElem (s : State) (sym : Nat) {k : Nat} (h : k < (s.hufBits sym).length) :
    (s.hufBits sym)[k] = s.hufCodeBit sym k := by
  simp [State.hufBits]

/-- Settles O33: the checks in their order, then the append of R122. -/
theorem hufEncAppendsTheCode : Obligations.HufEncAppendsTheCode := by
  intro s sym
  have happend (hlen : s.regs.bvLen.toNat ≤ s.cfg.bitbufCap) (hv : s.hufValid sym.toNat = true)
      (hl : s.hufLen sym.toNat ≠ 0) : hufEnc sym s = s.appendChecked (s.hufBits sym.toNat) := by
    rw [hufEnc, State.checkBvLen_eq_ok (u := ()).2 hlen, bind_ok, State.checkCode_eq_ok (u := ()).2 ⟨hv, hl⟩, bind_ok]
  refine ⟨decode_eq_ok_iff_encode rfl, fun hlen => ?_, fun hlen hv => ?_, fun hlen hv hl => ?_,
    fun hlen hv hl hfull => ?_, fun hv hl hfit hc hm => ?_⟩
  · rw [exec_hufEnc, hufEnc, State.checkBvLen_eq_error.2 ⟨hlen, rfl⟩, bind_error, State.commit_error]
  · rw [exec_hufEnc, hufEnc, State.checkBvLen_eq_ok (u := ()).2 hlen, bind_ok,
      State.checkCode_eq_error.2 (.inl ⟨hv, rfl⟩), bind_error, State.commit_error]
  · rw [exec_hufEnc, hufEnc, State.checkBvLen_eq_ok (u := ()).2 hlen, bind_ok,
      State.checkCode_eq_error.2 (.inr ⟨hv, hl, rfl⟩), bind_error, State.commit_error]
  · rw [exec_hufEnc, happend hlen hv hl, State.appendChecked_of_full (by rwa [s.hufBits_length]), State.commit_error]
  · rw [← s.hufBits_length] at hfit
    obtain ⟨hok, hbit, hbv, hres, hcsr, hent, htrie, hdraws⟩ := State.appended_of_fits hfit hc hm
    rw [s.hufBits_length] at hbv hres hent
    refine ⟨_, by rw [exec_hufEnc, happend (by omega) hv hl], hok, fun k hk => ?_, hbv, hres, hcsr, hent, htrie, hdraws⟩
    rw [hbit k (by rwa [s.hufBits_length]), s.hufBits_getElem]

/-! ### HUF_TRIE -/

/-- HUF_TRIE's updates (R114). -/
def State.putTrie (s : State) : State :=
  { s.setHufD s.tablePairs.length with trie := some (trieBuild s.tablePairs) }

theorem hufTrie_eq (s : State) :
    hufTrie s = (do require (tableOk s.tablePairs = true) .badTable; .ok s.putTrie) := rfl

/-- The table has an entry for each of the 256 symbols (R40). -/
theorem State.tablePairs_length_le (s : State) : s.tablePairs.length ≤ 256 := by
  have hsymbols : symbols.length = 256 := by simp [symbols]
  rw [State.tablePairs, List.length_map, ← hsymbols]
  exact List.length_filter_le _ _

/-- Settles O34: the check of TABLE_OK decides between the trie and BAD_TABLE. -/
theorem hufTrieBuildsFromTheTable : Obligations.HufTrieBuildsFromTheTable := by
  refine fun s => ⟨decode_eq_ok_iff_encode rfl, fun hbad => ?_, fun htable => ?_⟩
  · rw [exec_hufTrie, hufTrie_eq, require_neg (by rw [hbad]; exact Bool.false_ne_true), bind_error, State.commit_error]
  · have hok : hufTrie s = .ok s.putTrie := by rw [hufTrie_eq, require_pos htable, bind_ok]
    exact ⟨_, by rw [exec_hufTrie, hok, State.commit_ok], (hufTrie_leaves hok).okCommit, rfl,
      toNat_ofNat9 s.tablePairs_length_le, s.setHufD_sameCsrs _ _ _, fun _ _ _ => rfl, rfl⟩

/-! ### HUF_DEC -/

/-- With BV_LEN and the trie in order, HUF_DEC is its read (R115). -/
theorem hufDec_of_trie {s : State} (hlen : s.regs.bvLen.toNat ≤ s.cfg.bitbufCap) {root : Trie}
    (ht : s.trie = some root) :
    hufDec s = (s.readStream root.read >>= fun a => .ok ((s.setResult a.1.toNat).consume a.2)) := by
  rw [hufDec, State.checkBvLen_eq_ok (u := ()).2 hlen, bind_ok, State.needTrie_eq_ok.2 ht, bind_ok]

/-- Settles O35: `trieBuild_read_eq_ok` and `trieBuild_read_eq_error` say what HUF_READ does in the table's trie. -/
theorem hufDecReadsTheSymbol : Obligations.HufDecReadsTheSymbol := by
  intro s
  refine ⟨decode_eq_ok_iff_encode rfl, fun hlen => ?_, fun hlen ht => ?_, fun root c hlen ht he => ?_,
    fun p bs c hp => trieBuild_read_eq_error hp, fun sym rest hlen hsome hok hv hs => ?_⟩
  · rw [exec_hufDec, hufDec, State.checkBvLen_eq_error.2 ⟨hlen, rfl⟩, bind_error, State.commit_error]
  · rw [exec_hufDec, hufDec, State.checkBvLen_eq_ok (u := ()).2 hlen, bind_ok, State.needTrie_eq_error.2 ⟨ht, rfl⟩,
      bind_error, State.commit_error]
  · rw [exec_hufDec, hufDec_of_trie hlen ht, State.readStream_eq_error.2 he, bind_error, State.commit_error]
  · obtain ⟨root, ht⟩ := Option.isSome_iff_exists.1 hsome
    obtain ⟨htable, rfl⟩ := hok root ht
    have hread : (trieBuild s.tablePairs).read (s.hufBits sym.toNat ++ rest) = .ok (sym, rest) :=
      (trieBuild_read_eq_ok htable).2 ⟨_, State.mem_tablePairs.2 ⟨hv, rfl⟩, rfl⟩
    have hdec : hufDec s = .ok ((s.setResult sym.toNat).consume (s.hufLen sym.toNat)) := by
      rw [hufDec_of_trie hlen ht, State.readStream_of_append hs hread, bind_ok, s.hufBits_length]
    have hword := State.bvRptr_add_lt hs
    rw [s.hufBits_length] at hword
    refine ⟨_, by rw [exec_hufDec, hdec, State.commit_ok], (hufDec_leaves hdec).okCommit, BitVec.ofNat_toNat 32 sym,
      toNat_ofNat32 (by omega), toNat_ofNat32 hword, fun r hr => ?_, fun _ _ _ => rfl, rfl, rfl⟩
    cases r
    case status | result | resultBits | bvRptr => simp at hr
    all_goals rfl

end Sys2Proof.Machine
end

section
/-! PROOFS. The commands EO_ENC and EO_DEC, and the length of the Elias-omega code (44_elias.md R116 to R120). -/

namespace Sys2Proof.Machine

/-! ### The length of OMEGA -/

theorem log2_mono {a b : Nat} (h : a ≤ b) : a.log2 ≤ b.log2 := by
  simpa only [Nat.log2_eq_log_two] using Nat.log_mono_right h

/-- A group is as long as the binary of the length that it gives (R116). -/
theorem omegaLead_length {ell : Nat} (h : 2 ≤ ell) :
    (omegaLead ell).length = (omegaLead ((ell - 1).log2 + 1)).length + ((ell - 1).log2 + 1) := by
  simp [omegaLead_eq h, bin_length]

theorem omega_length (n : Nat) : (omega n).length = (omegaLead (n.log2 + 1)).length + (n.log2 + 1) := by
  rw [omega_eq, List.length_append, bin_length]

/-- What leads a longer component is no shorter. -/
theorem omegaLead_length_mono {a b : Nat} (h1 : 1 ≤ a) (hab : a ≤ b) :
    (omegaLead a).length ≤ (omegaLead b).length := by
  induction a using Nat.strong_induction_on generalizing b with
  | _ a ih =>
    obtain rfl | ha : a = 1 ∨ 2 ≤ a := by omega
    · simp [omegaLead_one]
    · have hlog : (a - 1).log2 ≤ (b - 1).log2 := log2_mono (by omega)
      have hlead := ih _ (log2_pred_lt ha) (by omega) (Nat.add_le_add_right hlog 1)
      rw [omegaLead_length ha, omegaLead_length (ha.trans hab)]
      omega

/-- A greater number has no shorter code (R116). -/
theorem omega_length_mono {a b : Nat} (hab : a ≤ b) : (omega a).length ≤ (omega b).length := by
  have hlog : a.log2 ≤ b.log2 := log2_mono hab
  have hlead := omegaLead_length_mono (Nat.le_add_left 1 a.log2) (Nat.add_le_add_right hlog 1)
  rw [omega_length, omega_length]
  omega

/-- The longest code of a 32-bit value with offset 1 (R116). -/
theorem omega_two_pow_32_length : (omega (2 ^ 32)).length = 45 := by decide

/-- Settles O49: `eoRead_eq_ok` is both directions; the bound on the length is that of the greatest value. -/
theorem eliasOmegaRoundTrip : Obligations.EliasOmegaRoundTrip := by
  refine ⟨fun off v rest hoff hn hv => ⟨(eoRead_eq_ok hoff).2 ⟨hn, hv, rfl⟩, ?_⟩,
    fun off v bs rest hoff => (eoRead_eq_ok hoff).1⟩
  rw [← omega_two_pow_32_length]
  exact omega_length_mono (by omega)

/-- Settles O48: `omega_length_mono`, and the ends of the ranges of the table of R116. -/
theorem omegaLengthsGrow : Obligations.OmegaLengthsGrow :=
  ⟨fun _ _ _ => omega_length_mono, by decide⟩

/-! ### EO_ENC -/

/-- Settles O36: the checks in their order, then the append of R122. -/
theorem eoEncAppendsOmega : Obligations.EoEncAppendsOmega := by
  rintro s g n rfl
  have happend (hlen : s.regs.bvLen.toNat ≤ s.cfg.bitbufCap) (hn : s.regs.arg.toNat + g.toNat ≠ 0) :
      eoEnc g.toNat s = s.appendChecked (omega (s.regs.arg.toNat + g.toNat)) := by
    rw [eoEnc, State.checkBvLen_eq_ok (u := ()).2 hlen, bind_ok, require_pos hn, bind_ok]
  refine ⟨decode_eq_ok_iff_encode rfl, fun hlen => ?_, fun hlen hn => ?_, fun hlen hn hfull => ?_,
    fun hn hfit hc hm => ?_⟩
  · rw [exec_eoEnc, eoEnc, State.checkBvLen_eq_error.2 ⟨hlen, rfl⟩, bind_error, State.commit_error]
  · rw [exec_eoEnc, eoEnc, State.checkBvLen_eq_ok (u := ()).2 hlen, bind_ok, require_neg (not_not_intro hn),
      bind_error, State.commit_error]
  · rw [exec_eoEnc, happend hlen hn, State.appendChecked_of_full hfull, State.commit_error]
  · obtain ⟨hok, hbit, hbv, hres, hcsr, hent, htrie, hdraws⟩ := State.appended_of_fits hfit hc hm
    exact ⟨_, by rw [exec_eoEnc, happend (by omega) hn], hok, hbit, hbv, hres, hcsr, hent, htrie, hdraws⟩

/-! ### EO_DEC -/

/-- With BV_LEN in order, EO_DEC is its read (R120). -/
theorem eoDec_of_bvLen_le {s : State} (hlen : s.regs.bvLen.toNat ≤ s.cfg.bitbufCap) (gen : Nat) :
    eoDec gen s = (s.readStream (eoRead gen) >>= fun a => .ok ((s.setResult a.1).consume a.2)) := by
  rw [eoDec, State.checkBvLen_eq_ok (u := ()).2 hlen, bind_ok]

/-- Settles O37: `eoRead_eq_ok` and `eoRead_eq_error` say what EO_READ does with the bits at BV_RPTR. -/
theorem eoDecReadsTheValue : Obligations.EoDecReadsTheValue := by
  intro s g
  refine ⟨decode_eq_ok_iff_encode rfl, fun hlen => ?_, fun c hlen he => ?_, fun bs c => eoRead_eq_error,
    fun v rest hlen hv hn hs => ?_⟩
  · rw [exec_eoDec, eoDec, State.checkBvLen_eq_error.2 ⟨hlen, rfl⟩, bind_error, State.commit_error]
  · rw [exec_eoDec, eoDec_of_bvLen_le hlen, State.readStream_eq_error.2 he, bind_error, State.commit_error]
  · have hread := (eoRead_eq_ok (rest := rest) (Nat.le_of_lt_succ g.isLt)).2 ⟨hn, hv, rfl⟩
    have hdec : eoDec g.toNat s = .ok ((s.setResult v).consume (omega (v + g.toNat)).length) := by
      rw [eoDec_of_bvLen_le hlen, State.readStream_of_append hs hread, bind_ok]
    have hword := State.bvRptr_add_lt hs
    refine ⟨_, by rw [exec_eoDec, hdec, State.commit_ok], (eoDec_leaves hdec).okCommit, toNat_ofNat32 hv,
      toNat_ofNat32 (by omega), toNat_ofNat32 hword, fun r hr => ?_, fun _ _ _ => rfl, rfl, rfl⟩
    cases r
    case status | result | resultBits | bvRptr => simp at hr
    all_goals rfl

end Sys2Proof.Machine
end

section
/-! PROOFS. The commands BV_CLEAR, BV_PUT and BV_GET (45_bitvector.md R125 to R127). -/

namespace Sys2Proof.Machine

/-! ### BV_CLEAR -/

/-- Settles O38: BV_CLEAR has no check, and its updates are of BV_LEN and BV_RPTR alone. -/
theorem bvClearEmptiesTheVector : Obligations.BvClearEmptiesTheVector := by
  refine fun s => ⟨decode_eq_ok_iff_encode rfl, _, exec_bvClear s, (bvClear_leaves s).okCommit, rfl, rfl,
    fun r hr => ?_, fun _ _ _ => rfl, rfl, rfl⟩
  cases r
  case status | bvLen | bvRptr => simp at hr
  all_goals rfl

/-! ### BV_PUT -/

/-- Bit k of a field of n bits is bit n − 1 − k of its number (R13). -/
theorem binFixed_getElem (n v : Nat) {k : Nat} (h : k < (binFixed n v).length) :
    (binFixed n v)[k] = v.testBit (n - 1 - k) := by
  simp [binFixed]

/-- Settles O39: the checks in their order, then the append of R122. -/
theorem bvPutAppendsTheField : Obligations.BvPutAppendsTheField := by
  rintro s nb n rfl h1 h32
  have hlength := binFixed_length nb.toNat s.regs.arg.toNat
  have happend (hlen : s.regs.bvLen.toNat ≤ s.cfg.bitbufCap) (harg : s.regs.arg.toNat < 2 ^ nb.toNat) :
      bvPut nb.toNat s = s.appendChecked (binFixed nb.toNat s.regs.arg.toNat) := by
    rw [bvPut, State.checkBvLen_eq_ok (u := ()).2 hlen, bind_ok, require_pos harg, bind_ok]
  refine ⟨decode_eq_ok_iff_encode (decide_eq_true ⟨h1, h32⟩), fun hlen => ?_, fun hlen harg => ?_,
    fun hlen harg hfull => ?_, fun harg hfit hc hm => ?_⟩
  · rw [exec_bvPut, bvPut, State.checkBvLen_eq_error.2 ⟨hlen, rfl⟩, bind_error, State.commit_error]
  · rw [exec_bvPut, bvPut, State.checkBvLen_eq_ok (u := ()).2 hlen, bind_ok, require_neg (Nat.not_lt.2 harg),
      bind_error, State.commit_error]
  · rw [exec_bvPut, happend hlen harg, State.appendChecked_of_full (by rwa [hlength]), State.commit_error]
  · rw [← hlength] at hfit
    obtain ⟨hok, hbit, hbv, hres, hcsr, hent, htrie, hdraws⟩ := State.appended_of_fits hfit hc hm
    rw [hlength] at hbv hres hent
    refine ⟨_, by rw [exec_bvPut, happend (by omega) harg], hok, fun k hk => ?_, hbv, hres, hcsr, hent, htrie, hdraws⟩
    exact (hbit k (by rwa [hlength])).trans (binFixed_getElem _ _ _)

/-! ### BV_GET -/

/-- The n bits of the vector from position r on, or as many as there are (R123). -/
def State.field (s : State) (r n : Nat) : Bits := (s.bitsFrom r).take n

theorem State.field_append_drop (s : State) (r n : Nat) : s.bitsFrom r = s.field r n ++ (s.bitsFrom r).drop n :=
  (List.take_append_drop n _).symm

theorem State.field_length {s : State} {r n : Nat} (h : r + n ≤ s.regs.bvLen.toNat) : (s.field r n).length = n := by
  rw [State.field, List.length_take, s.bitsFrom_length]
  omega

theorem State.field_getElem (s : State) {r n k : Nat} (h : k < (s.field r n).length) :
    (s.field r n)[k] = s.bit (r + k) := by
  simp only [State.field, List.getElem_take, s.bitsFrom_getElem]

/-- A word holds the integer of at most 32 bits. -/
theorem toNat_ofNat32_val {bs : Bits} (h : bs.length ≤ 32) : (BitVec.ofNat 32 (val bs)).toNat = val bs :=
  toNat_ofNat32 ((val_lt bs).trans_le (Nat.pow_le_pow_right (by omega) h))

/-- In that word the first bit of the sequence is the most significant one (R13). -/
theorem getLsbD_ofNat32_val {bs : Bits} (h : bs.length ≤ 32) {k : Nat} (hk : k < bs.length) :
    (BitVec.ofNat 32 (val bs)).getLsbD (bs.length - 1 - k) = bs[k] := by
  rw [← BitVec.testBit_toNat, toNat_ofNat32_val h, val_testBit bs k hk]

/-- A read into RESULT changes no CSR but RESULT, RESULT_BITS and BV_RPTR (R123, R127). -/
theorem State.readResult_sameCsrs (s : State) (v k : Nat) :
    SameCsrs [.status, .result, .resultBits, .bvRptr] s ((s.setResult v).consume k).commitOk := by
  intro r hr
  cases r
  case status | result | resultBits | bvRptr => simp at hr
  all_goals rfl

/-- With BV_LEN in order, BV_GET is its read (R127). -/
theorem bvGet_of_bvLen_le {s : State} (hlen : s.regs.bvLen.toNat ≤ s.cfg.bitbufCap) (n : Nat) :
    bvGet n s = (s.readStream (take n) >>= fun a => .ok ((s.setResult (val a.1)).consume a.2)) := by
  rw [bvGet, State.checkBvLen_eq_ok (u := ()).2 hlen, bind_ok]

/-- With the field within BV_LEN, RESULT is the field's integer (R127). -/
theorem bvGet_of_fits {s : State} {n : Nat} (hlen : s.regs.bvLen.toNat ≤ s.cfg.bitbufCap)
    (hfit : s.regs.bvRptr.toNat + n ≤ s.regs.bvLen.toNat) :
    bvGet n s = .ok ((s.setResult (val (s.field s.regs.bvRptr.toNat n))).consume n) := by
  have htake := take_append (s.field s.regs.bvRptr.toNat n) ((s.bitsFrom s.regs.bvRptr.toNat).drop n)
  rw [State.field_length hfit] at htake
  rw [bvGet_of_bvLen_le hlen, State.readStream_of_append (s.field_append_drop _ n) htake, bind_ok,
    State.field_length hfit]

/-- Settles O40: the checks in their order, then RESULT is the integer of the field at BV_RPTR. -/
theorem bvGetReadsTheField : Obligations.BvGetReadsTheField := by
  rintro s nb n rfl h1 h32
  refine ⟨decode_eq_ok_iff_encode (decide_eq_true ⟨h1, h32⟩), fun hlen => ?_, fun hlen hcut => ?_,
    fun hlen hfit => ?_⟩
  · rw [exec_bvGet, bvGet, State.checkBvLen_eq_error.2 ⟨hlen, rfl⟩, bind_error, State.commit_error]
  · have hshort : (s.bitsFrom s.regs.bvRptr.toNat).length < nb.toNat := by rw [s.bitsFrom_length]; omega
    rw [exec_bvGet, bvGet_of_bvLen_le hlen, State.readStream_eq_error.2 (take_eq_error.2 ⟨hshort, rfl⟩), bind_error,
      State.commit_error]
  · have hget := bvGet_of_fits hlen hfit
    have hlength := State.field_length hfit
    have hfield := hlength.trans_le h32
    have hbit {k : Nat} (hk : k < (s.field s.regs.bvRptr.toNat nb.toNat).length) :=
      (getLsbD_ofNat32_val hfield hk).trans (s.field_getElem hk)
    have hlt := (toNat_ofNat32_val hfield).trans_lt (val_lt _)
    rw [hlength] at hlt
    simp only [hlength] at hbit
    exact ⟨_, by rw [exec_bvGet, hget, State.commit_ok], (bvGet_leaves hget).okCommit, fun _ => hbit, hlt,
      toNat_ofNat32 (by omega), toNat_ofNat32 (hfit.trans_lt s.regs.bvLen.isLt), s.readResult_sameCsrs _ _,
      fun _ _ _ => rfl, rfl, rfl⟩

end Sys2Proof.Machine
end

section
/-! PROOFS. FRAME_PARSE of a container, whichever encoder made it (46_container.md R128, R131 to R133). -/

namespace Sys2Proof.Machine

/-! ### The triples of a container -/

/-- A triple that a container with the table `p` can hold (R96, R128): two fields for EO1 and a symbol with a code. -/
def CodeMap.Carries (p : CodeMap) (t : Triple) : Prop := t.1 < 2 ^ 32 ∧ t.2.1 < 2 ^ 32 ∧ t.2.2 ∈ p.map (·.1)

/-- The last field of a container, its triples (R128). -/
def CodeMap.tripleField (p : CodeMap) (triples : List Triple) : Bits :=
  triples.flatMap fun t => tripleBits t.1 t.2.1 (p.code t.2.2)

theorem CodeMap.tripleField_cons_append (p : CodeMap) (t : Triple) (triples : List Triple) (rest : Bits) :
    p.tripleField (t :: triples) ++ rest =
      tripleBits t.1 t.2.1 (p.code t.2.2) ++ (p.tripleField triples ++ rest) := List.append_assoc _ _ _

/-- A symbol of the map stands in it with its code. -/
theorem CodeMap.mem_code {p : CodeMap} {sym : Byte} (h : sym ∈ p.map (·.1)) : (sym, p.code sym) ∈ p := by
  cases hlookup : p.lookup sym with
  | none =>
    obtain ⟨e, he, rfl⟩ := List.mem_map.1 h
    simpa using List.lookup_eq_none_iff.1 hlookup e he
  | some code =>
    obtain ⟨before, after, rfl, _⟩ := List.lookup_eq_some_iff.1 hlookup
    simp [CodeMap.code, hlookup]

theorem tripleRead_tripleBits {p : CodeMap} (hp : tableOk p = true) {t : Triple} (ht : p.Carries t) (rest : Bits) :
    tripleRead (trieBuild p) (tripleBits t.1 t.2.1 (p.code t.2.2) ++ rest) = .ok (t, rest) := by
  obtain ⟨ho, hl, hsym⟩ := ht
  exact (tripleRead_eq_ok hp).2 ⟨ho, hl, _, CodeMap.mem_code hsym, rfl⟩

/-- Triples that replay to `n` symbols are read until the last one and no further: each takes a round, as RECON_ONE lets
none run past `n`, and after the last the output has `n` symbols (R132). -/
theorem readContent_tripleField {p : CodeMap} (hp : tableOk p = true) {n fuel : Nat} {triples : List Triple}
    {out x : List Byte} (hfields : ∀ t ∈ triples, p.Carries t) (hx : x.length = n) (hfuel : n ≤ out.length + fuel)
    (hreplay : triples.foldlM (fun out t => reconOne out t n .badStream) out = .ok x) (rest : Bits) :
    readContent (trieBuild p) n fuel out (p.tripleField triples ++ rest) = .ok (x, rest) := by
  induction triples generalizing fuel out with
  | nil =>
    cases hreplay
    cases fuel with
    | zero => rfl
    | succ fuel => rw [readContent_succ, if_neg (by omega)]; rfl
  | cons t triples ih =>
    obtain ⟨ht, htriples⟩ := List.forall_mem_cons.1 hfields
    rw [List.foldlM_cons] at hreplay
    obtain ⟨out', hstep, hreplay⟩ := bind_eq_ok.1 hreplay
    obtain ⟨⟨_, _, hroom⟩, hout'⟩ := reconOne_eq_ok.1 hstep
    have hlength : out'.length = out.length + (t.2.1 + 1) := by
      rw [hout', List.length_append, reconSymbols_length]
    obtain ⟨fuel, rfl⟩ : ∃ k, fuel = k + 1 := Nat.exists_eq_add_one.2 (by omega)
    rw [readContent_succ, if_pos (by omega), CodeMap.tripleField_cons_append, tripleRead_tripleBits hp ht, bind_ok,
      hstep, bind_ok]
    exact ih htriples (by omega) hreplay

/-! ### The other fields -/

theorem eoRead_eo1 {v : Nat} (h : v < 2 ^ 32) (rest : Bits) : eoRead 1 (eo1 v ++ rest) = .ok (v, rest) :=
  eoRead_one_eq_ok.2 ⟨h, rfl⟩

theorem readEntries_flatMap {p : CodeMap} {least : Nat} (h : p.ListedFrom least) (rest : Bits) :
    readEntries p.length least (p.flatMap entryBits ++ rest) = .ok (p, rest) := readEntries_eq_ok.2 ⟨rfl, h, rfl⟩

/-- A container field by field, from its first bit to the bits after it (R128). -/
theorem IsContainer.bits_append {c : Config} {f : Frame} {triples : List Triple} {bs : Bits}
    (h : IsContainer c f triples bs) (rest : Bits) :
    bs ++ rest = eo1 f.name.length ++ (f.name.flatMap (fun b => binFixed 8 b.toNat) ++ (eo1 f.content.length ++
      (eo1 f.codes.length ++ (f.codes.flatMap entryBits ++ (f.codes.tripleField triples ++ rest))))) := by
  simp only [h.bits, CodeMap.tripleField, List.append_assoc]

/-- The table and the triples of a container read back (R132). -/
theorem IsContainer.parseTable_eq {c : Config} {f : Frame} {triples : List Triple} {bs : Bits}
    (h : IsContainer c f triples bs) (rest : Bits) :
    parseTable f.name f.content.length
      (eo1 f.codes.length ++ (f.codes.flatMap entryBits ++ (f.codes.tripleField triples ++ rest))) = .ok (f, rest) := by
  obtain ⟨⟨hpos, htop⟩, hlisted⟩ := CodeMap.listed_iff.1 h.listed
  have hcontent := readContent_tripleField h.ok h.fields rfl (Nat.le_add_left _ _) h.replay rest
  simp only [parseTable, eoRead_eo1 (show f.codes.length < 2 ^ 32 by omega), bind_ok,
    require_pos (show f.codes.length ≠ 0 ∧ f.codes.length ≤ 256 by omega), readEntries_flatMap hlisted,
    require_pos h.ok, hcontent]

/-- FRAME_PARSE of a container returns what it holds and leaves what follows it (R132, R133). -/
theorem IsContainer.frameParse_append {c : Config} (hc : c.Legal) {f : Frame} {triples : List Triple} {bs : Bits}
    (h : IsContainer c f triples bs) (rest : Bits) : frameParse c (bs ++ rest) = .ok (f, rest) := by
  obtain ⟨_, hcontentCap, hnameCap, _⟩ := hc
  obtain ⟨hpos, hcontent⟩ := h.content
  have hname := h.name
  rw [h.bits_append, frameParse_eq]
  simp only [eoRead_eo1 (show f.name.length < 2 ^ 32 by omega), bind_ok, require_pos hname, readBytes_flatMap,
    eoRead_eo1 (show f.content.length < 2 ^ 32 by omega), require_pos (Nat.ne_of_gt hpos), require_pos hcontent,
    h.parseTable_eq]

/-! ### FRAME_BITS is a container -/

theorem IsMatch.next_mem {x : List Byte} {p w l o len : Nat} {c : Byte} (h : IsMatch x p w l o len c) : c ∈ x := by
  cases h with
  | none _ next _ | found _ _ _ _ _ _ _ _ _ _ _ next => exact List.mem_of_getElem? next

/-- Each triple of PARSE is a match in the content (R91, R94). -/
theorem parseFrom_isMatch {x : List Byte} {w l fuel p : Nat} (hl : 1 ≤ l) {t : Triple}
    (ht : t ∈ parseFrom x w l fuel p) : ∃ p < x.length, IsMatch x p w l t.1 t.2.1 t.2.2 := by
  induction fuel generalizing p with
  | zero => cases ht
  | succ fuel ih =>
    unfold parseFrom at ht
    split at ht
    case isFalse => cases ht
    case isTrue hp =>
      rcases List.mem_cons.1 ht with rfl | ht
      · exact ⟨p, hp, matchMeetsTheDirectDefinition x p w l hp hl⟩
      · exact ih ht

/-- The table of HUF_CODES carries every triple of PARSE, its fields being below the content's length. -/
theorem hufCodes_carries_parse {x : List Byte} {w l : Nat} (hx : x ≠ []) (hlen : x.length < 2 ^ 32) (hl : 1 ≤ l)
    {t : Triple} (ht : t ∈ parse x w l) : (hufCodes x).Carries t := by
  obtain ⟨p, _, hmatch⟩ := parseFrom_isMatch hl ht
  obtain ⟨hoffset, hend⟩ := hmatch.bounds
  exact ⟨by omega, by omega, hufCodes_symbols hx ▸ mem_alphabet.2 hmatch.next_mem⟩

/-- HUF_CODES is a table that a container can hold (R107, R128). -/
theorem hufCodes_listed {x : List Byte} (hx : x ≠ []) : (hufCodes x).Listed := by
  obtain ⟨_, _, hsizes, _⟩ := huffmanCodeIsPrefixFree x hx
  exact ⟨hufCodes_length hx ▸ ⟨List.length_pos_iff.2 (alphabet_ne_nil hx), alphabet_length_le x⟩,
    (hufCodes_ascending hx).sorted, hsizes⟩

/-- FRAME_C's own container is one of the content's Huffman code and the triples of PARSE (R131). -/
theorem frameBits_isContainer {c : Config} {name x : List Byte} {w l : Nat} (hc : c.Legal)
    (hname : name.length ≤ c.nameCap) (hpos : 1 ≤ x.length) (hcontent : x.length ≤ c.contentCap) (hl : 1 ≤ l) :
    IsContainer c ⟨name, x, hufCodes x⟩ (parse x w l) (frameBits name x w l) := by
  obtain ⟨_, hcap, _⟩ := hc
  have hx : x ≠ [] := List.length_pos_iff.1 hpos
  obtain ⟨hreplay, _⟩ := reconstructionInvertsParse x w l hl
  exact {
    name := hname
    content := ⟨hpos, hcontent⟩
    listed := hufCodes_listed hx
    ok := tableOk_hufCodes hx
    fields := fun _ => hufCodes_carries_parse hx (by omega) hl
    replay := hreplay
    bits := rfl }

/-- Settles O52: every container parses back, and FRAME_BITS is one. -/
theorem frameRoundTrip : Obligations.FrameRoundTrip :=
  ⟨fun _ _ _ _ _ rest hc hname hpos hcontent _ hl _ =>
      (frameBits_isContainer hc hname hpos hcontent hl).frameParse_append hc rest,
    fun _ _ _ _ rest hc h => h.frameParse_append hc rest⟩

end Sys2Proof.Machine
end

section
/-! PROOFS. Acceptance, the commits and the interrupt that they drive (60_exceptions.md R138, R139, R143). -/

namespace Sys2Proof.Machine

/-! ### The command protocol -/

/-- Acceptance changes no CSR but CMD, STATUS and ERRCODE (R138). -/
theorem State.accept_sameCsrs (s : State) (w : Word) : SameCsrs [.cmd, .status, .errcode] s (s.accept w) := by
  intro r hr
  cases r
  case cmd | status | errcode => simp at hr
  all_goals rfl

/-- Settles O8: `exec_commits` says that a command's updates leave DONE and ERR alone, so both are still the 0 that
BUSY implies when the commit sets one of them. -/
theorem commandProtocol : Obligations.CommandProtocol := by
  refine ⟨fun s w => ⟨rfl, rfl, rfl, rfl, rfl, rfl, s.accept_sameCsrs w, rfl, rfl⟩,
    fun s => ⟨(LeavesControl.refl s).okCommit, s.commitOk_sameCsrs, rfl, rfl, rfl⟩,
    fun s c => ⟨rfl, rfl, rfl, (LeavesControl.refl s).commitFrame c, s.commitErr_sameCsrs c, rfl, rfl, rfl⟩,
    fun i s t hs hb h => ?_⟩
  obtain ⟨hdone, herr⟩ := hs.busyClear hb
  obtain ⟨t', ht', hcommit⟩ := exec_commits i s
  cases ht'.symm.trans h
  rcases hcommit with ⟨u, hu, rfl⟩ | ⟨u, c, hu, rfl⟩
  · exact ⟨hu.okCommit.frame, .inl ⟨rfl, hu.err.trans herr, hu.errCode⟩⟩
  · exact ⟨hu.commitFrame c, .inr ⟨hu.done.trans hdone, rfl, c, rfl⟩⟩

/-! ### All or nothing -/

/-- Every command but FRAME_C and FRAME_D answers its updates, which leave control alone, or an error with none, and
commits that answer from the state that it ran in (R139). -/
theorem exec_eq_commit {i : Instr} (hC : i ≠ .frameC) (hD : i ≠ .frameD) (s : State) :
    ∃ r, exec i s = .next (s.commit r) ∧ ∀ u, r = .ok u → LeavesControl s u := by
  cases i
  case frameC => exact absurd rfl hC
  case frameD => exact absurd rfl hD
  case nop => exact ⟨_, exec_nop s, fun _ h => by cases h; exact .refl s⟩
  case bvClear => exact ⟨_, exec_bvClear s, fun _ h => by cases h; exact bvClear_leaves s⟩
  case zarray => exact ⟨_, exec_zarray s, fun _ => zarray_leaves⟩
  case lzMatch => exact ⟨_, exec_lzMatch s, fun _ => lzMatch_leaves⟩
  case lzStep => exact ⟨_, exec_lzStep s, fun _ => lzStep_leaves⟩
  case lzRecon => exact ⟨_, exec_lzRecon s, fun _ => lzRecon_leaves⟩
  case triPut => exact ⟨_, exec_triPut s, fun _ => triPut_leaves⟩
  case triGet => exact ⟨_, exec_triGet s, fun _ => triGet_leaves⟩
  case hufBuild => exact ⟨_, exec_hufBuild s, fun _ => hufBuild_leaves⟩
  case hufEnc sym => exact ⟨_, exec_hufEnc sym s, fun _ => hufEnc_leaves⟩
  case hufTrie => exact ⟨_, exec_hufTrie s, fun _ => hufTrie_leaves⟩
  case hufDec => exact ⟨_, exec_hufDec s, fun _ => hufDec_leaves⟩
  case eoEnc g => exact ⟨_, exec_eoEnc g s, fun _ => eoEnc_leaves⟩
  case eoDec g => exact ⟨_, exec_eoDec g s, fun _ => eoDec_leaves⟩
  case bvPut n => exact ⟨_, exec_bvPut n s, fun _ => bvPut_leaves⟩
  case bvGet n => exact ⟨_, exec_bvGet n s, fun _ => bvGet_leaves⟩

/-- Settles O9: the command commits one answer (`exec_eq_commit`), Ok of its updates or Err from the state before
them. -/
theorem nonFrameCommandsAreAllOrNothing : Obligations.NonFrameCommandsAreAllOrNothing := by
  intro i s t hC hD h
  obtain ⟨r, hr, hleaves⟩ := exec_eq_commit hC hD s
  cases hr.symm.trans h
  rcases s.commit_cases r with ⟨u, hu, e⟩ | ⟨c, _, e⟩ <;> rw [e]
  · exact .inl (hleaves u hu).okCommit
  · exact .inr ⟨⟨c, rfl⟩, (LeavesControl.refl s).commitFrame c, s.commitErr_sameCsrs c, rfl, rfl, rfl, rfl⟩

/-! ### The interrupt -/

theorem State.irq_outOfReset {s : State} (h : s.rstN = true) :
    s.irq = (s.regs.irqEn && (s.regs.done || s.regs.err)) := by
  simp [State.irq, h]

theorem State.irq_of_not_pending {s : State} (hdone : s.regs.done = false) (herr : s.regs.err = false) :
    s.irq = false := by
  simp [State.irq, hdone, herr]

/-- A W1C bit `b` is cleared by a write whose bit `v` is 1 wherever `b` is (R26). -/
theorem w1c_clears {b v : Bool} (h : b = true → v = true) : (b && !v) = false := by
  cases b
  · rfl
  · simp [h rfl]

/-- What a write of CTRL without SRST leaves: IRQ_EN decides whether a pending DONE or ERR is signalled (R25, R143). -/
theorem State.irq_write_ctrl {s : State} (hr : s.rstN = true) {v : Word} (hv : v.getLsbD 0 = false) :
    (s.access ⟨0x008#24, 2#2, true, v⟩).1.irq = (v.getLsbD 1 && (s.regs.done || s.regs.err)) := by
  rw [State.access_write_ctrl hr, State.writeCtrl_of_false hv]
  exact State.irq_outOfReset hr

/-- Settles O12: acceptance, a W1C write and a soft reset leave no completion pending; a write of CTRL sets IRQ_EN. -/
theorem interruptFollowsCompletion : Obligations.InterruptFollowsCompletion := by
  refine fun s hr => ⟨State.irq_outOfReset hr, fun w => State.irq_of_not_pending (s.accept_done w) (s.accept_err w),
    fun v hdone herr => ?_, fun v hsrst hen => ?_, fun v hsrst hen => ?_, fun v hsrst => ?_, rfl⟩
  · rw [State.access_write_status hr]
    exact State.irq_of_not_pending (w1c_clears hdone) (w1c_clears herr)
  · rw [State.irq_write_ctrl hr hsrst, hen, Bool.false_and]
  · rw [State.irq_write_ctrl hr hsrst, hen, Bool.true_and]
  · rw [State.access_write_ctrl hr, State.writeCtrl, if_pos hsrst]
    exact State.irq_of_not_pending rfl rfl

end Sys2Proof.Machine
end

section
/-! PROOFS. The reset values, and hardware reset from the fall of rst_n to its rise (70_reset_and_hazards.md R149 to
R151). -/

namespace Sys2Proof.Machine

/-- Settles O21: IDLE, a CSR reads the register that `Regs.reset` or the parameters give it. -/
theorem resetValues : Obligations.ResetValues := by
  refine ⟨fun r => ?_, rfl, rfl, rfl⟩
  rw [State.readCsr_idle rfl]
  cases r <;> rfl

/-- Where rst_n was low its rise is a power-on that keeps the host and the schedule and counts its draws on (R149 to
R151). -/
theorem State.releaseReset_of_low {s : State} (h : s.rstN = false) :
    s.releaseReset = { State.powerOn s.cfg with
      mems := .reset s.draws, draws := s.draws + resetDraws, host := s.host, turns := s.turns } := by
  rw [State.releaseReset, h]
  rfl

/-- Every memory of a hardware reset but CTL is UNSPECIFIED by one of the reset's own draws (R151). -/
theorem Mems.reset_drawn (d : Nat) {m : MemName} (hm : m ≠ .hufCtl) :
    ∃ e, d ≤ e ∧ e < d + resetDraws ∧ (Mems.reset d).redraw e m = Mems.reset d := by
  have own (i : Nat) (hi : i < resetDraws) (h : (Mems.reset d).redraw (d + i) m = Mems.reset d) :
      ∃ e, d ≤ e ∧ e < d + resetDraws ∧ (Mems.reset d).redraw e m = Mems.reset d := ⟨d + i, by omega, by omega, h⟩
  cases m
  case name => exact own 0 (by decide) rfl
  case content => exact own 1 (by decide) rfl
  case bitbuf => exact own 2 (by decide) rfl
  case zin => exact own 3 (by decide) rfl
  case zout => exact own 4 (by decide) rfl
  case hufCode => exact own 5 (by decide) rfl
  case hufCtl => exact absurd rfl hm

/-- No CSR of an IDLE block depends on its memories, draws, host or schedule, so after the rise of rst_n each reads as
at power-on (R150). -/
theorem State.releaseReset_readCsr {s : State} (h : s.rstN = false) (r : Csr) :
    s.releaseReset.readCsr r = (State.powerOn s.cfg).readCsr r := by
  rw [State.releaseReset_of_low h, State.readCsr_idle rfl, State.readCsr_idle rfl]
  cases r <;> rfl

/-- Settles O22: while rst_n is low no access and no engine step does anything; `State.releaseReset_of_low` is its
rise. -/
theorem hardwareResetRestoresTheResetState : Obligations.HardwareResetRestoresTheResetState := by
  refine ⟨fun s a => ⟨State.access_inReset s.assertReset_rstN a, rfl, engineStep_of_idle (.inr s.assertReset_rstN),
    rfl, rfl, rfl, rfl⟩, fun s hr => ?_⟩
  refine ⟨?_, ?_, State.releaseReset_readCsr hr, ?_⟩ <;> rw [State.releaseReset_of_low hr]
  · rfl
  · rfl
  · exact ⟨fun _ => rfl, rfl, fun m => Mems.reset_drawn s.draws, rfl, rfl⟩

end Sys2Proof.Machine
end
